-- ==== Sys2Proof/Word.lean ====
section
/-! DEFINITION. The word types of the TunnelForward Cipher Engine (spec/00_scope.md R6, R7, R8). -/

namespace Sys2Proof

/-- A byte is 8 bits (R7). -/
abbrev Byte := BitVec 8

/-- A host-visible register, and every length, is 32 bits (`REG_BITS`, `LEN_BITS`, R6). -/
abbrev Word := BitVec 32

/-- A byte address of system memory is 32 bits and address arithmetic wraps modulo 2^32
(`ADDR_BITS`, R6, R9, R66). -/
abbrev Addr := BitVec 32

/-- A block is 16 bytes, read as one 128-bit string, most significant byte first (R7, R8). -/
abbrev Block := BitVec 128

end Sys2Proof
end

