-- ==== Sys2Proof/Config.lean ====
section
/-! DEFINITION. The parameters spec/00_scope.md R6 marks OPEN, as plain data. The machine carries
them in a field of State that no step changes, so every statement about all states holds for
every platform and every legal staging size. -/

namespace Sys2Proof

/-- The kind of an engine byte access (spec/20_memory.md R64). -/
inductive AccessKind where
  | read
  | write
  deriving DecidableEq, Repr

/-- A range of byte addresses, both ends included, on which the platform fails the engine's reads,
writes or both. A list of these is the platform predicate `MemOk` of R64 as plain data: every
predicate on addresses and kinds is such a list. -/
structure DeniedRange where
  first : Addr
  last : Addr
  denyRead : Bool
  denyWrite : Bool
  deriving DecidableEq, Repr

/-- The OPEN parameters (R6). -/
structure Config where
  /-- `BASE_ADDR`: the host-bus address of the register window (D34). -/
  baseAddr : Nat
  /-- `STAGE_BYTES`: the capacity of each staging queue (D20, R219). -/
  stageBytes : Nat
  /-- `CTR_WIDTH`: how many low bits of the CTR counter block count; 128 on this hardware, 1 to 128
  for variants (D8, R116). -/
  ctrWidth : Nat
  /-- `MemOk`, given by the ranges on which it is false (D30, R64); this engine's accesses alone ask it (log entry
  23). -/
  denied : List DeniedRange
  /-- `DMA_COHERENT`: engine accesses are coherent with the host's caches (D31, spec/20_memory.md R75); for other bus
  masters, log entry 24. -/
  dmaCoherent : Bool
  /-- `N_ENGINES`: how many independent engines the platform has, this one among them; they share memory alone
  (D34, spec/20_memory.md R77, spec/60_exceptions.md R267). -/
  nEngines : Nat
  deriving DecidableEq, Repr

/-- The parameter values State.reset carries: DESIGN CHOICE (log entry 2), but for `ctrWidth`, which
R6 fixes at 128 for this hardware. -/
def Config.initial : Config :=
  { baseAddr := 0, stageBytes := 32, ctrWidth := 128, denied := [], dmaCoherent := true
    nEngines := 1 }

end Sys2Proof
end

