-- ==== Sys2Proof/Syntax.lean ====
section
/-! DEFINITION. The instruction set: the seven command words of spec/opcode_table.json
(spec/30_encoding.md R81, R84). -/

namespace Sys2Proof

/-- One constructor per row of the opcode table. A command word carries no address, length or
immediate (R85), so the only operand is the AADZ bit of the two GCM commands (R82). -/
inductive Instr where
  /-- `NOP`, word 0x0000_0000 (R213). -/
  | nop
  /-- `ENC_CBC128`, word 0x0000_0001 (R143). -/
  | encCbc128
  /-- `DEC_CBC128`, word 0x0000_0002 (R146). -/
  | decCbc128
  /-- `ENC_CTR128`, word 0x0000_0003 (R162). -/
  | encCtr128
  /-- `DEC_CTR128`, word 0x0000_0004 (R163). -/
  | decCtr128
  /-- `ENC_GCM128`, word 0x0000_0005, or 0x0000_0105 with AADZ = 1 (R183). -/
  | encGcm128 (aadz : Bool)
  /-- `DEC_GCM128`, word 0x0000_0006, or 0x0000_0106 with AADZ = 1 (R184). -/
  | decGcm128 (aadz : Bool)
  deriving DecidableEq, Repr

end Sys2Proof
end

