-- ==== Sys2Proof/WellFormed.lean ====
section
/-! DEFINITION. Which command words are legal (spec/30_encoding.md R80, R83) and which parameter
values are (spec/00_scope.md R6, spec/92_eei_decisions.md "Parameters left OPEN"). -/

namespace Sys2Proof

/-- The four fields of a command word as R80's table lays them out, before any check. -/
structure CommandFields where
  /-- bits [3:0] -/
  op : BitVec 4
  /-- bits [7:4], reserved -/
  res0 : BitVec 4
  /-- bit [8] -/
  aadz : Bool
  /-- bits [31:9], reserved -/
  res1 : BitVec 23
  deriving DecidableEq, Repr

/-- OP is 0 to 6 (R81, R83). -/
def CommandFields.opDefined (f : CommandFields) : Bool := f.op.toNat ≤ 6

/-- RES0 = 0 (R83). -/
def CommandFields.res0Zero (f : CommandFields) : Bool := f.res0 = 0

/-- RES1 = 0 (R83). -/
def CommandFields.res1Zero (f : CommandFields) : Bool := f.res1 = 0

/-- AADZ = 0 unless OP is 5 or 6 (R82, R83). -/
def CommandFields.aadzAllowed (f : CommandFields) : Bool := !f.aadz || f.op = 5 || f.op = 6

/-- A command word is legal when the four checks hold (R83). With OP = 0 they leave only the
all-zero word, as R83 asks. -/
def CommandFields.wf (f : CommandFields) : Bool :=
  f.opDefined && f.res0Zero && f.res1Zero && f.aadzAllowed

/-- The fields an instruction stands for (R81, R82). -/
def Instr.fields : Instr → CommandFields
  | .nop => { op := 0, res0 := 0, aadz := false, res1 := 0 }
  | .encCbc128 => { op := 1, res0 := 0, aadz := false, res1 := 0 }
  | .decCbc128 => { op := 2, res0 := 0, aadz := false, res1 := 0 }
  | .encCtr128 => { op := 3, res0 := 0, aadz := false, res1 := 0 }
  | .decCtr128 => { op := 4, res0 := 0, aadz := false, res1 := 0 }
  | .encGcm128 aadz => { op := 5, res0 := 0, aadz := aadz, res1 := 0 }
  | .decGcm128 aadz => { op := 6, res0 := 0, aadz := aadz, res1 := 0 }

/-- An instruction is well formed when its fields are. Syntax.lean's type admits no other. -/
def Instr.wf (i : Instr) : Bool := i.fields.wf

/-- `STAGE_BYTES` is a multiple of 16, at least 32 (R219). -/
def Config.stageWf (c : Config) : Bool := c.stageBytes % 16 = 0 && 32 ≤ c.stageBytes

/-- `CTR_WIDTH` is 1 to 128 (R6). -/
def Config.ctrWf (c : Config) : Bool := 1 ≤ c.ctrWidth && c.ctrWidth ≤ 128

/-- `BASE_ADDR` is 64-byte aligned (R6). -/
def Config.baseWf (c : Config) : Bool := c.baseAddr % 64 = 0

/-- `N_ENGINES` is at least 1 (spec/92_eei_decisions.md, "Parameters left OPEN"). -/
def Config.enginesWf (c : Config) : Bool := 1 ≤ c.nEngines

/-- A legal choice of the parameters. `MemOk` and `DMA_COHERENT` are not restricted. -/
def Config.wf (c : Config) : Bool := c.stageWf && c.ctrWf && c.baseWf && c.enginesWf

/-- The parameters of this hardware, as R6 fixes them: a legal choice with `CTR_WIDTH` = 128. -/
def Config.thisHardware (c : Config) : Bool := c.wf && c.ctrWidth = 128

end Sys2Proof
end

