-- ==== Sys2Proof/Decode.lean ====
section
/-! DEFINITION. The decoder of command words, total on all 2^32 words and rejecting by name, and after
it the encoder (spec/30_encoding.md R80 to R84, spec/opcode_table.json). -/

namespace Sys2Proof

/-- Why a word is no command: one name per condition of R83. -/
inductive DecodeError where
  /-- OP is 7 to 15. -/
  | reservedOp
  /-- RES0 is not 0. -/
  | reservedBitsLow
  /-- RES1 is not 0. -/
  | reservedBitsHigh
  /-- AADZ is 1 and OP is neither 5 nor 6. -/
  | aadzNotGcm
  deriving DecidableEq, Repr

/-- The fields of a command word (R80). -/
def wordFields (w : Word) : CommandFields :=
  { op := w.extractLsb' 0 4
    res0 := w.extractLsb' 4 4
    aadz := w.getLsbD 8
    res1 := w.extractLsb' 9 23 }

/-- The instruction OP selects once the fields are known to be legal (R81); OP 7 to 15 selects none. -/
def selectOp (op : Nat) (aadz : Bool) : Option Instr :=
  match op with
  | 0 => some .nop
  | 1 => some .encCbc128
  | 2 => some .decCbc128
  | 3 => some .encCtr128
  | 4 => some .decCtr128
  | 5 => some (.encGcm128 aadz)
  | 6 => some (.decGcm128 aadz)
  | _ => none

/-- The instruction of a word's fields, or the first check of R83 that refuses them (the order of the
checks is log entry 20's). -/
def decodeFields (f : CommandFields) : Except DecodeError Instr :=
  if !f.res0Zero then .error .reservedBitsLow
  else if !f.res1Zero then .error .reservedBitsHigh
  else if !f.aadzAllowed then .error .aadzNotGcm
  else
    match selectOp f.op.toNat f.aadz with
    | some i => .ok i
    | none => .error .reservedOp

/-- Every write to CMD is one complete 32-bit command (R80). -/
def decode (w : Word) : Except DecodeError Instr := decodeFields (wordFields w)

/-- The word of given fields, laid out as R80's table says. -/
def fieldsWord (f : CommandFields) : Word :=
  f.res1 ++ BitVec.ofBool f.aadz ++ f.res0 ++ f.op

/-- The command word of an instruction (R84). -/
def encode (i : Instr) : Word := fieldsWord i.fields

/-- The instruction the decoder reads from an opcode-table word: a command is one 32-bit word whose
bit 0 is the table's bit 0; bits above `nbits` are 0. -/
def decodeTableWord (nbits w : Nat) : Option Instr :=
  match decode (BitVec.ofNat 32 (w % 2 ^ nbits)) with
  | .ok i => some i
  | .error _ => none

end Sys2Proof
end

