-- ==== Sys2Proof/Machine/State.lean ====
section
/-! DEFINITION. The state of the machine: the block's host-visible registers and internal registers
(spec/10_state.md), system memory (spec/20_memory.md R60), the platform parameters, and the host's
pending accesses. -/

namespace Sys2Proof.Machine

/-- The six operations, that is OP 1 to 6 (spec/30_encoding.md R81). -/
inductive CipherOp where
  | encCbc128
  | decCbc128
  | encCtr128
  | decCtr128
  | encGcm128
  | decGcm128
  deriving DecidableEq, Repr

/-- STATUS.STATE (R23). -/
inductive RunState where
  /-- 0: no operation has completed since reset. -/
  | idle
  /-- 1: an operation is running. -/
  | busy
  /-- 2: the last operation completed without error. -/
  | doneOk
  /-- 3: the last command completed with an error. -/
  | doneErr
  deriving DecidableEq, Repr

/-- The error codes of STATUS.ERR and `S.perr` (R24, R55, spec/60_exceptions.md R250). Codes 8 to 15
are never produced, so they have no constructor. -/
inductive ErrorCode where
  | none
  | invalidKeyLength
  | invalidPadding
  | authenticationFailure
  | bufferTooSmall
  | invalidIvLength
  | illegalCommand
  | memoryFault
  deriving DecidableEq, Repr

/-- The sequencer phases (R45). -/
inductive Phase where
  | none
  | check
  | loadKey
  | loadIv
  | init
  | aad
  | data
  | tag
  | zero
  deriving DecidableEq, Repr

/-- The defined fields of the STATUS register (R23, R24, R25). Bits [3:2] and [31:9] read 0 and no rule
writes them (R26), so they are no state. -/
structure Status where
  state : RunState
  err : ErrorCode
  ign : Bool
  deriving DecidableEq, Repr

/-- The ten descriptor registers (R29 to R39). -/
structure Desc where
  keyAddr : Word
  keyLen : Word
  ivAddr : Word
  ivLen : Word
  aadAddr : Word
  aadLen : Word
  srcAddr : Word
  srcLen : Word
  dstAddr : Word
  dstCap : Word
  deriving DecidableEq, Repr

/-- The names of the ten descriptor registers (R39). -/
inductive DescReg where
  | keyAddr
  | keyLen
  | ivAddr
  | ivLen
  | aadAddr
  | aadLen
  | srcAddr
  | srcLen
  | dstAddr
  | dstCap
  deriving DecidableEq, Repr

/-- The sixteen registers of the window (R20). -/
inductive Reg where
  | cmd
  | status
  | resultLen
  | faultAddr
  | desc (d : DescReg)
  | irqEn
  | irqStat
  deriving DecidableEq, Repr

/-- The internal registers of the engine (R45 to R55), none of them host-visible. -/
structure Engine where
  /-- `S.ph` (R45) -/
  ph : Phase
  /-- `S.op`, 4 bits (R46) -/
  op : BitVec 4
  /-- `S.aadz` (R46) -/
  aadz : Bool
  /-- `S.key`, 16 bytes (R47) -/
  key : Block
  /-- `S.iv`, 16 bytes; GCM uses bytes 0 to 11 (R47) -/
  iv : Block
  /-- `S.cv`, the CBC chaining value (R48) -/
  cv : Block
  /-- `S.cb`, the counter block (R49) -/
  cb : Block
  /-- `S.h`, the GCM hash subkey (R50) -/
  h : Block
  /-- `S.ej0`, the GCM tag mask (R50) -/
  ej0 : Block
  /-- `S.y`, the GHASH accumulator (R51) -/
  y : Block
  /-- `S.tag`, the received tag (R52) -/
  tag : Block
  /-- `S.in`, the staging input, oldest byte first (R53) -/
  inq : List Byte
  /-- `S.out`, the staging output, oldest byte first (R53) -/
  outq : List Byte
  /-- `S.t_len`, the text length (R54) -/
  tLen : Word
  /-- `S.src_pos`, text bytes read from the source (R54) -/
  srcPos : Word
  /-- `S.t_done`, text bytes the transform has consumed (R54) -/
  tDone : Word
  /-- `S.dst_pos`, bytes written to the destination (R54) -/
  dstPos : Word
  /-- `S.aad_pos`, AAD bytes absorbed (R54) -/
  aadPos : Word
  /-- `S.aad_bytes`, the AAD length that enters the length block (R54) -/
  aadBytes : Word
  /-- `S.zero_pos`, bytes zero-filled (R54) -/
  zeroPos : Word
  /-- `S.tail_done`, the CBC final unit has been transformed (R55) -/
  tailDone : Bool
  /-- `S.perr`, the pending late error (R55) -/
  perr : ErrorCode
  deriving DecidableEq, Repr

/-- Every internal register zero, both queues empty and no phase: the engine after reset (R58, R292)
and after every completion (spec/44_stream_manager.md R238). -/
def Engine.cleared : Engine :=
  { ph := .none, op := 0, aadz := false, key := 0, iv := 0, cv := 0, cb := 0, h := 0, ej0 := 0
    y := 0, tag := 0, inq := [], outq := [], tLen := 0, srcPos := 0, tDone := 0, dstPos := 0
    aadPos := 0, aadBytes := 0, zeroPos := 0, tailDone := false, perr := .none }

/-- System memory (R60): address and byte pairs, addresses strictly rising, no zero byte listed. -/
abbrev Memory := List Host.Cell

/-- One byte the host's caches hold: a copy of memory, or, when `dirty`, a byte the host has written and not yet
cleaned (spec/20_memory.md R75). -/
structure CacheByte where
  addr : Addr
  value : Byte
  dirty : Bool
  deriving DecidableEq, Repr

/-- What the host's caches hold, addresses strictly rising (log entry 16). The block itself has no cache (R75). -/
abbrev HostCache := List CacheByte

/-- The bus masters other than the host and this engine (R73, R77). -/
inductive Master where
  /-- Another engine of the platform: the `k`-th beside this one (spec/60_exceptions.md R267). -/
  | engine (k : Nat)
  /-- A bus master that is no engine. -/
  | other
  deriving DecidableEq, Repr

/-- What the host, or another bus master, can do (spec/30_encoding.md R86, R88, spec/20_memory.md R60,
R73, R75, spec/70_reset_and_hazards.md R290). -/
inductive HostOp where
  /-- A bus write of `size` bytes at host-bus address `addr`; `wr R, v` is the aligned 4-byte one (R86). -/
  | write (addr size : Nat) (value : Word)
  /-- A bus read of `size` bytes at host-bus address `addr`; `rd R` is the aligned 4-byte one (R86). -/
  | read (addr size : Nat)
  /-- A byte of system memory written by the host, into its caches where they are not coherent (R60, R73, R75). -/
  | memWrite (addr : Addr) (value : Byte)
  /-- A byte of system memory read by the host, from its caches where they are not coherent (R60, R73, R75). -/
  | memRead (addr : Addr)
  /-- The host's caches take a copy of a byte of memory, because a byte beside it was read or ahead of a read. -/
  | cacheFetch (addr : Addr)
  /-- The host cleans a byte from its caches, or they write it back by themselves (R75). -/
  | cacheClean (addr : Addr)
  /-- The host invalidates a byte in its caches, or they let it go by themselves (R75). -/
  | cacheInvalidate (addr : Addr)
  /-- A byte of system memory written by another bus master (R73, R77). -/
  | masterWrite (m : Master) (addr : Addr) (value : Byte)
  /-- A byte of system memory read by another bus master (R73, R77). -/
  | masterRead (m : Master) (addr : Addr)
  /-- The pseudo-operation `wait`: read STATUS until STATE is not BUSY (R88). -/
  | wait
  /-- The platform asserts the reset input (R290). -/
  | reset
  deriving DecidableEq, Repr

/-- One host access and when it lands: after `after` more engine steps, and, when `together` is set, in
the same step as an action of the engine (R11, R41, R240). -/
structure HostInput where
  after : Nat
  together : Bool
  op : HostOp
  deriving DecidableEq, Repr

/-- Why the machine can stop with a fault. -/
inductive Fault where
  /-- Raised by the engine's step alone, in a state that no run from a legal state reaches (`S.op` no
  operation while a phase is active, a GCM phase under another operation, a DEC_CBC128 text that ends
  inside a block): no rule gives such a state a next step (log entry 12). Safe. -/
  | sequencerUndefined
  deriving DecidableEq, Repr

/-- Why the machine refuses a step. -/
inductive Refusal where
  /-- Raised by exec's arm of an instruction that has no meaning yet. Safe. -/
  | notModelled (mnemonic : String)
  /-- Raised by the host port: a read or write inside the window that is not an aligned 32-bit access
  (R21: "not a defined access ... changes no state, and a model refuses it"). Safe. -/
  | undefinedRegisterAccess
  /-- Raised by the host port: while BUSY the host or another bus master writes the key, IV, AAD or source range,
  or reads or writes the destination range (R73; spec/93_implementation_defined.md part 2: "The model should
  refuse the host action"). Safe. -/
  | busyRangeAccess
  deriving DecidableEq, Repr

/-- The whole machine. The registers are R20's, the internal registers R45 to R55's; `cfg`, `inputs`,
`rdata` and `hostCache` are the model's own fields (log entries 2, 3, 4 and 16). CMD holds no value (R22, R59). -/
structure State where
  /-- The platform parameters (R6); no step changes them. -/
  cfg : Config
  /-- STATUS (0x04) -/
  status : Status
  /-- RESULT_LEN (0x08), R27 -/
  resultLen : Word
  /-- FAULT_ADDR (0x0C), R28 -/
  faultAddr : Word
  /-- KEY_ADDR (0x10) to DST_CAP (0x34) -/
  desc : Desc
  /-- IRQ_EN.DONE_IE (0x38 bit 0), R40 -/
  doneIe : Bool
  /-- IRQ_STAT.DONE_P (0x3C bit 0), R41 -/
  doneP : Bool
  /-- The internal registers -/
  eng : Engine
  /-- System memory, as the engine's accesses find it (R75) -/
  mem : Memory
  /-- What the host's caches hold where they are not coherent with the engine's accesses -/
  hostCache : HostCache
  /-- The host accesses still to come, the next one first -/
  inputs : List HostInput
  /-- The data the last host read returned -/
  rdata : Word
  deriving DecidableEq, Repr

/-- The machine right after reset (R291, R292): every host-visible and internal register zero, nothing
listed in memory, nothing in the host's caches, no host access pending. -/
def State.reset : State :=
  { cfg := Config.initial
    status := { state := .idle, err := .none, ign := false }
    resultLen := 0
    faultAddr := 0
    desc :=
      { keyAddr := 0, keyLen := 0, ivAddr := 0, ivLen := 0, aadAddr := 0, aadLen := 0, srcAddr := 0
        srcLen := 0, dstAddr := 0, dstCap := 0 }
    doneIe := false
    doneP := false
    eng := Engine.cleared
    mem := []
    hostCache := []
    inputs := []
    rdata := 0 }

end Sys2Proof.Machine
end

