-- ==== Sys2Proof/Machine/Memory.lean ====
section
/-! DEFINITION. System memory: a flat space of 2^32 bytes (spec/20_memory.md R60, R62, R66). It is a list
of (address, byte) pairs in one canonical form, and a byte it does not list reads as zero (log entry 1). -/

namespace Sys2Proof.Machine

/-- What an address that is not listed reads as: DESIGN CHOICE (log entry 1). -/
def Memory.unlisted : Byte := 0

/-- The canonical form: addresses strictly rising and inside the address space, and no entry equal to
what an unlisted address reads as. -/
abbrev Memory.wf (m : Memory) : Prop :=
  m.Pairwise (fun c d => c.1 < d.1) ∧ ∀ c ∈ m, c.1 < 2 ^ 32 ∧ c.2 ≠ Memory.unlisted

/-- The byte at an address. -/
def Memory.read : Memory → Nat → Byte
  | [], _ => Memory.unlisted
  | c :: m, a => if c.1 = a then c.2 else Memory.read m a

/-- The byte at an address replaced, keeping the canonical form. -/
def Memory.write : Memory → Nat → Byte → Memory
  | [], a, b => if b = Memory.unlisted then [] else [(a, b)]
  | c :: m, a, b =>
    if a < c.1 then (if b = Memory.unlisted then c :: m else (a, b) :: c :: m)
    else if a = c.1 then (if b = Memory.unlisted then m else (a, b) :: m)
    else c :: Memory.write m a b

/-- The byte at a 32-bit address. -/
def Memory.byteAt (m : Memory) (a : Addr) : Byte := Memory.read m a.toNat

/-- The byte at a 32-bit address replaced. -/
def Memory.setByte (m : Memory) (a : Addr) (b : Byte) : Memory := Memory.write m a.toNat b

/-- `n` bytes from `a` on, ascending, across the wrap at the top (R62, R66). -/
def Memory.bytesAt (m : Memory) : Addr → Nat → List Byte
  | _, 0 => []
  | a, n + 1 => m.byteAt a :: Memory.bytesAt m (a + 1) n

/-- A byte string stored from `a` on, ascending, across the wrap at the top (R62, R66). -/
def Memory.setBytes (m : Memory) : Addr → List Byte → Memory
  | _, [] => m
  | a, b :: bs => Memory.setBytes (m.setByte a b) (a + 1) bs

end Sys2Proof.Machine
end

