-- ==== Sys2Proof/Machine/Operands.lean ====
section
/-! DEFINITION. Where an operation's operands are and how long (spec/30_encoding.md R81, R85,
spec/20_memory.md R61, spec/44_stream_manager.md R214, R215). -/

namespace Sys2Proof.Machine

/-- OP (R81). -/
def CipherOp.code : CipherOp → BitVec 4
  | .encCbc128 => 1
  | .decCbc128 => 2
  | .encCtr128 => 3
  | .decCtr128 => 4
  | .encGcm128 => 5
  | .decGcm128 => 6

/-- The operation an OP value selects; 0 (no operation) and 7 to 15 (reserved) select none (R81). -/
def CipherOp.ofCode (c : BitVec 4) : Option CipherOp :=
  match c.toNat with
  | 1 => some .encCbc128
  | 2 => some .decCbc128
  | 3 => some .encCtr128
  | 4 => some .decCtr128
  | 5 => some .encGcm128
  | 6 => some .decGcm128
  | _ => none

/-- The GCM commands (R82). -/
def CipherOp.isGcm : CipherOp → Bool
  | .encCbc128 => false
  | .decCbc128 => false
  | .encCtr128 => false
  | .decCtr128 => false
  | .encGcm128 => true
  | .decGcm128 => true

/-- `IV_BYTES(op)` (R214). -/
def ivBytes (op : CipherOp) : Nat := if op.isGcm then 12 else 16

/-- `padlen(n)` (spec/40_primitives.md R111). -/
def padLen (n : Nat) : Nat := 16 - n % 16

/-- `required(op, n)`, as a number without a width, so that it never overflows (R215). -/
def required (op : CipherOp) (n : Nat) : Nat :=
  match op with
  | .encCbc128 => 16 * (n / 16 + 1)
  | .decCbc128 => n - 1
  | .encCtr128 => n
  | .decCtr128 => n
  | .encGcm128 => n + 16
  | .decGcm128 => n - 16

/-- The text length: the whole source, less the trailing tag for DEC_GCM128 (R218). -/
def textLen (op : CipherOp) (srcLen : Word) : Word :=
  match op with
  | .encCbc128 => srcLen
  | .decCbc128 => srcLen
  | .encCtr128 => srcLen
  | .decCtr128 => srcLen
  | .encGcm128 => srcLen
  | .decGcm128 => srcLen - 16

/-- Address `a` is one of the `n` addresses from `first` on, across the wrap at the top (R66). -/
def inRange (first : Addr) (n : Nat) (a : Addr) : Bool := (a - first).toNat < n

/-- `a` is in the key, IV, AAD or source range of an operation (R61). -/
def inInputRange (op : CipherOp) (aadz : Bool) (d : Desc) (a : Addr) : Bool :=
  inRange d.keyAddr 16 a || inRange d.ivAddr (ivBytes op) a
    || (op.isGcm && !aadz && inRange d.aadAddr d.aadLen.toNat a)
    || inRange d.srcAddr d.srcLen.toNat a

/-- `a` is in the destination range of an operation (R61). -/
def inDestRange (op : CipherOp) (d : Desc) (a : Addr) : Bool :=
  inRange d.dstAddr (required op d.srcLen.toNat) a

/-- The value of a descriptor register. -/
def Desc.get (d : Desc) : DescReg → Word
  | .keyAddr => d.keyAddr
  | .keyLen => d.keyLen
  | .ivAddr => d.ivAddr
  | .ivLen => d.ivLen
  | .aadAddr => d.aadAddr
  | .aadLen => d.aadLen
  | .srcAddr => d.srcAddr
  | .srcLen => d.srcLen
  | .dstAddr => d.dstAddr
  | .dstCap => d.dstCap

/-- A descriptor register replaced; all 32 bits are stored (R29 to R39). -/
def Desc.set (d : Desc) (r : DescReg) (v : Word) : Desc :=
  match r with
  | .keyAddr => { d with keyAddr := v }
  | .keyLen => { d with keyLen := v }
  | .ivAddr => { d with ivAddr := v }
  | .ivLen => { d with ivLen := v }
  | .aadAddr => { d with aadAddr := v }
  | .aadLen => { d with aadLen := v }
  | .srcAddr => { d with srcAddr := v }
  | .srcLen => { d with srcLen := v }
  | .dstAddr => { d with dstAddr := v }
  | .dstCap => { d with dstCap := v }

/-- The offset of a register in the window (R20). -/
def Reg.offset : Reg → Nat
  | .cmd => 0x00
  | .status => 0x04
  | .resultLen => 0x08
  | .faultAddr => 0x0C
  | .desc .keyAddr => 0x10
  | .desc .keyLen => 0x14
  | .desc .ivAddr => 0x18
  | .desc .ivLen => 0x1C
  | .desc .aadAddr => 0x20
  | .desc .aadLen => 0x24
  | .desc .srcAddr => 0x28
  | .desc .srcLen => 0x2C
  | .desc .dstAddr => 0x30
  | .desc .dstCap => 0x34
  | .irqEn => 0x38
  | .irqStat => 0x3C

/-- The register at word `k` of the window, `k` from 0 to 15 (R20). -/
def Reg.ofIndex (k : Nat) : Option Reg :=
  match k with
  | 0 => some .cmd
  | 1 => some .status
  | 2 => some .resultLen
  | 3 => some .faultAddr
  | 4 => some (.desc .keyAddr)
  | 5 => some (.desc .keyLen)
  | 6 => some (.desc .ivAddr)
  | 7 => some (.desc .ivLen)
  | 8 => some (.desc .aadAddr)
  | 9 => some (.desc .aadLen)
  | 10 => some (.desc .srcAddr)
  | 11 => some (.desc .srcLen)
  | 12 => some (.desc .dstAddr)
  | 13 => some (.desc .dstCap)
  | 14 => some .irqEn
  | 15 => some .irqStat
  | _ => none

end Sys2Proof.Machine
end

