-- ==== Sys2Proof/Machine/Flags.lean ====
section
/-! DEFINITION. The status register, the interrupt bits and the interrupt output (spec/10_state.md R23 to
R26, R40 to R42). -/

namespace Sys2Proof.Machine

/-- STATUS.STATE (R23). -/
def RunState.code : RunState → Nat
  | .idle => 0
  | .busy => 1
  | .doneOk => 2
  | .doneErr => 3

/-- STATUS.ERR (R250). -/
def ErrorCode.code : ErrorCode → Nat
  | .none => 0
  | .invalidKeyLength => 1
  | .invalidPadding => 2
  | .authenticationFailure => 3
  | .bufferTooSmall => 4
  | .invalidIvLength => 5
  | .illegalCommand => 6
  | .memoryFault => 7

/-- What STATUS reads as: STATE in bits [1:0], ERR in [7:4], IGN in [8], the others 0 (R23 to R26). -/
def Status.word (t : Status) : Word :=
  BitVec.ofNat 32 (t.state.code + 16 * t.err.code + 256 * t.ign.toNat)

/-- A one-bit register as the word it reads as, bits [31:1] zero (R40, R41). -/
def bitWord (b : Bool) : Word := if b then 1 else 0

/-- STATE = BUSY. -/
def State.busy (s : State) : Bool := s.status.state = .busy

/-- The interrupt output `irq` (R42). -/
def State.irq (s : State) : Bool := s.doneIe && s.doneP

/-- A host write was ignored because STATE = BUSY: IGN becomes 1 (R25). -/
def State.setIgn (s : State) : State := { s with status := { s.status with ign := true } }

end Sys2Proof.Machine
end

