-- ==== Sys2Proof/Machine/Ops.lean ====
section
/-! DEFINITION. The named operations over memory and registers that every meaning and every engine step
shares: the engine's checked accesses (spec/20_memory.md R64, R67), the acceptance of a command, the
completion of an operation, with an error or without, and the host's register accesses. -/

namespace Sys2Proof.Machine

/-- A denied range applies to an access at `a` of kind `k`. -/
def DeniedRange.covers (r : DeniedRange) (a : Addr) (k : AccessKind) : Bool :=
  decide (r.first.toNat ≤ a.toNat) && decide (a.toNat ≤ r.last.toNat) &&
    (match k with
      | .read => r.denyRead
      | .write => r.denyWrite)

/-- `MemOk(a, k)`: it depends on `a` and `k` only (R64). -/
def memOk (c : Config) (a : Addr) (k : AccessKind) : Bool := !c.denied.any fun r => DeniedRange.covers r a k

/-- `MemRead(a, n)` byte by byte, ascending: the bytes, or the address of the first read that fails (R10,
R64). -/
def readRun (c : Config) (m : Memory) : Addr → Nat → Except Addr (List Byte)
  | _, 0 => .ok []
  | a, n + 1 =>
    if memOk c a .read then
      match readRun c m (a + 1) n with
      | .ok bs => .ok (m.byteAt a :: bs)
      | .error f => .error f
    else .error a

/-- `MemWrite(a, n, v)` byte by byte, ascending: the memory afterwards and, when a write fails, its
address. The bytes before the failed one stay written (R10, R64). -/
def writeRun (c : Config) (m : Memory) : Addr → List Byte → Memory × Option Addr
  | _, [] => (m, none)
  | a, b :: bs => if memOk c a .write then writeRun c (m.setByte a b) (a + 1) bs else (m, some a)

/-! ## Starting an operation -/

/-- `accept(w)` for a word whose OP is `op` and whose bit 8 is `aadz` (R211). -/
def acceptCommand (op : CipherOp) (aadz : Bool) (s : State) : State :=
  { s with
    status := { state := .busy, err := .none, ign := false }
    resultLen := 0
    faultAddr := 0
    doneP := false
    eng := { s.eng with op := op.code, aadz := aadz, ph := .check } }

/-- A CMD write of an operation's word: ignored with IGN set while BUSY, accepted otherwise (R210). -/
def startOperation (op : CipherOp) (aadz : Bool) (s : State) : State :=
  if s.busy then s.setIgn else acceptCommand op aadz s

/-- `illegal(w)` (R212). -/
def illegalCommand (s : State) : State :=
  { s with
    status := { state := .doneErr, err := .illegalCommand, ign := s.status.ign }
    resultLen := 0
    faultAddr := 0
    doneP := true }

/-- A CMD write of an illegal word: ignored with IGN set while BUSY, IllegalCommand otherwise (R210). -/
def illegalWrite (s : State) : State := if s.busy then s.setIgn else illegalCommand s

/-! ## Completing an operation: the exception entry, and the way back -/

/-- `complete_ok(n)`, zeroize included (R236, R238). -/
def completeOk (n : Word) (s : State) : State :=
  { s with
    resultLen := n
    status := { s.status with state := .doneOk, err := .none }
    doneP := true
    eng := Engine.cleared }

/-- `complete_err(code, addr)`, zeroize included (R237, R238): the entry every error of a running
operation takes (R258). -/
def completeErr (code : ErrorCode) (addr : Addr) (s : State) : State :=
  { s with
    resultLen := 0
    status := { s.status with state := .doneErr, err := code }
    faultAddr := if code = .memoryFault then addr else 0
    doneP := true
    eng := Engine.cleared }

/-- A failed engine access at `a`: MemoryFault, with the memory as the earlier accesses left it (R64). -/
def memoryFault (a : Addr) (m : Memory) (s : State) : State :=
  completeErr .memoryFault a { s with mem := m }

/-- A late error found in a unit or a TAG step: both queues are dropped and the ZERO phase follows (R228). -/
def lateError (code : ErrorCode) (e : Engine) : Engine :=
  { e with perr := code, outq := [], inq := [], zeroPos := 0, ph := .zero }

/-- The return from a completion: the host clears DONE_P by writing 1 to IRQ_STAT; there is nothing to
restore (R41, R261). -/
def acknowledge (s : State) : State := { s with doneP := false }

/-! ## The host's register accesses -/

/-- What a register reads as; reads have no side effect (R20, R22, R43). -/
def readReg (r : Reg) (s : State) : Word :=
  match r with
  | .cmd => 0
  | .status => s.status.word
  | .resultLen => s.resultLen
  | .faultAddr => s.faultAddr
  | .desc d => s.desc.get d
  | .irqEn => bitWord s.doneIe
  | .irqStat => bitWord s.doneP

/-- A write of a descriptor register: ignored with IGN set while BUSY, stored otherwise (R39). -/
def writeDesc (d : DescReg) (v : Word) (s : State) : State :=
  if s.busy then s.setIgn else { s with desc := s.desc.set d v }

/-- A write of IRQ_EN stores bit 0, in every state (R40). -/
def writeIrqEn (v : Word) (s : State) : State := { s with doneIe := v.getLsbD 0 }

/-- A write of IRQ_STAT clears DONE_P when bit 0 is 1 and leaves it otherwise (R41). -/
def writeIrqStat (v : Word) (s : State) : State := if v.getLsbD 0 then acknowledge s else s

/-- The reset input: every register and internal register to its reset value, memory unchanged, no
completion reported (R291, R292, R293). The model's own fields stay (log entry 17). -/
def assertReset (s : State) : State :=
  { State.reset with cfg := s.cfg, mem := s.mem, hostCache := s.hostCache, inputs := s.inputs, rdata := s.rdata }

end Sys2Proof.Machine
end

