-- ==== Sys2Proof/Machine/Command.lean ====
section
/-! DEFINITION. The NOP command (spec/44_stream_manager.md R213). -/

namespace Sys2Proof.Machine

/-- NOP: no register, no internal state and no memory changes, in any state (R213). -/
def execNop (s : State) : Host.Outcome State Fault Refusal := .next s

end Sys2Proof.Machine
end

