-- ==== Sys2Proof/Machine/Bytes.lean ====
section
/-! DEFINITION. Byte strings and blocks (spec/00_scope.md R7, R8, R9, spec/40_primitives.md R110, R115,
R120). -/

namespace Sys2Proof.Machine

/-- Byte `i` of a block, byte 0 the most significant (R8). -/
def blockByte (x : Block) (i : Nat) : Byte := x.extractLsb' (8 * (15 - i)) 8

/-- The 16 bytes of a block in memory order (R8, R62). -/
def blockBytes (x : Block) : List Byte := (List.range 16).map (blockByte x)

/-- The unsigned integer a byte string stands for, most significant byte first (R8). -/
def bytesNat (bs : List Byte) : Nat := bs.foldl (fun acc b => 256 * acc + b.toNat) 0

/-- The block a 16-byte string stands for (R8). -/
def bytesBlock (bs : List Byte) : Block := BitVec.ofNat 128 (bytesNat bs)

/-- `A xor B`, lane by lane; with a shorter `A` it takes the first bytes of `B`, which is
`P xor MSB_r(KS)` (R110). -/
def xorBytes (a b : List Byte) : List Byte := List.zipWith (fun x y => x ^^^ y) a b

/-- `zpad` of at most one block: zero bytes up to 16 (R120). -/
def padBlock (bs : List Byte) : List Byte := bs ++ List.replicate (16 - bs.length) 0

/-- The block of at most 16 bytes followed by zero bytes: `zpad` of one block (R120). -/
def zpadBlock (bs : List Byte) : Block := bytesBlock (padBlock bs)

/-- `inc_w(X)`: the low `w` bits advance by one modulo `2^w`, the others stay (R115). -/
def incBlock (w : Nat) (x : Block) : Block :=
  BitVec.ofNat 128 ((x.toNat - x.toNat % 2 ^ w) + (x.toNat % 2 ^ w + 1) % 2 ^ w)

/-- A byte string cut into 16-byte pieces, the last one shorter when the length is no multiple of 16. -/
def chunksOf : Nat → List Byte → List (List Byte)
  | 0, _ => []
  | _, [] => []
  | n + 1, b :: bs => (b :: bs).take 16 :: chunksOf n ((b :: bs).drop 16)

/-- The 16-byte pieces `X_1 .. X_m` of a byte string (R119, R122); there is none for the empty string. -/
def chunks (bs : List Byte) : List (List Byte) := chunksOf bs.length bs

end Sys2Proof.Machine
end

