-- ==== Sys2Proof/Machine/Aes.lean ====
section
/-! DEFINITION. The block cipher `E`, `D`: AES-128 (spec/00_scope.md R3, spec/40_primitives.md R100 to
R108). The state array is the list of its bytes in the order of R101, `s[r][c]` at index `r + 4c`. -/

namespace Sys2Proof.Machine

/-- R102's SBOX table, one row of sixteen bytes per high nibble, the low nibble 0 first. -/
def sboxRows : List Block :=
  [0x637c777bf26b6fc53001672bfed7ab76#128, 0xca82c97dfa5947f0add4a2af9ca472c0#128,
   0xb7fd9326363ff7cc34a5e5f171d83115#128, 0x04c723c31896059a071280e2eb27b275#128,
   0x09832c1a1b6e5aa0523bd6b329e32f84#128, 0x53d100ed20fcb15b6acbbe394a4c58cf#128,
   0xd0efaafb434d338545f9027f503c9fa8#128, 0x51a3408f929d38f5bcb6da2110fff3d2#128]
  ++ [0xcd0c13ec5f974417c4a77e3d645d1973#128, 0x60814fdc222a908846eeb814de5e0bdb#128,
   0xe0323a0a4906245cc2d3ac629195e479#128, 0xe7c8376d8dd54ea96c56f4ea657aae08#128,
   0xba78252e1ca6b4c6e8dd741f4bbd8b8a#128, 0x703eb5664803f60e613557b986c11d9e#128,
   0xe1f8981169d98e949b1e87e9ce5528df#128, 0x8ca1890dbfe6426841992d0fb054bb16#128]

/-- R102's INV_SBOX table, laid out the same way. -/
def invSboxRows : List Block :=
  [0x52096ad53036a538bf40a39e81f3d7fb#128, 0x7ce339829b2fff87348e4344c4dee9cb#128,
   0x547b9432a6c2233dee4c950b42fac34e#128, 0x082ea16628d924b2765ba2496d8bd125#128,
   0x72f8f66486689816d4a45ccc5d65b692#128, 0x6c704850fdedb9da5e154657a78d9d84#128,
   0x90d8ab008cbcd30af7e45805b8b34506#128, 0xd02c1e8fca3f0f02c1afbd0301138a6b#128]
  ++ [0x3a9111414f67dcea97f2cfcef0b4e673#128, 0x96ac7422e7ad3585e2f937e81c75df6e#128,
   0x47f11a711d29c5896fb7620eaa18be1b#128, 0xfc563e4bc6d279209adbc0fe78cd5af4#128,
   0x1fdda8338807c731b11210592780ec5f#128, 0x60517fa919b54a0d2de57a9f93c99cef#128,
   0xa0e03b4dae2af5b0c8ebbb3c83539961#128, 0x172b047eba77d626e169146355210c7d#128]

/-- Row = high nibble, column = low nibble (R102). -/
def tableByte (rows : List Block) (x : Byte) : Byte :=
  blockByte (rows.getD (x.toNat / 16) 0) (x.toNat % 16)

/-- `SBOX[x]` (R102). -/
def sbox (x : Byte) : Byte := tableByte sboxRows x

/-- `INV_SBOX[x]` (R102). -/
def invSbox (x : Byte) : Byte := tableByte invSboxRows x

/-- `2 • a` in GF(2^8) (R104). -/
def xtime (a : Byte) : Byte := (a <<< 1) ^^^ (if 0x80 ≤ a.toNat then 0x1B else 0)

/-- `k • a` in GF(2^8) modulo 0x11B for a multiplier `k < 16` (R104). -/
def gfMulSmall (k : Nat) (a : Byte) : Byte :=
  (if k.testBit 0 then a else 0) ^^^ (if k.testBit 1 then xtime a else 0)
    ^^^ (if k.testBit 2 then xtime (xtime a) else 0)
    ^^^ (if k.testBit 3 then xtime (xtime (xtime a)) else 0)

/-- SubBytes (R102). -/
def subBytes (s : List Byte) : List Byte := s.map sbox

/-- InvSubBytes (R102). -/
def invSubBytes (s : List Byte) : List Byte := s.map invSbox

/-- ShiftRows: `s'[r][c] = s[r][(c + r) mod 4]` (R103). -/
def shiftRows (s : List Byte) : List Byte :=
  (List.range 16).map fun k => s.getD (k % 4 + 4 * ((k / 4 + k % 4) % 4)) 0

/-- InvShiftRows: `s'[r][c] = s[r][(c - r) mod 4]` (R103). -/
def invShiftRows (s : List Byte) : List Byte :=
  (List.range 16).map fun k => s.getD (k % 4 + 4 * ((k / 4 + 4 - k % 4) % 4)) 0

/-- The circulant column map with first row `(k0, k1, k2, k3)` (R104). -/
def mixColumn (k0 k1 k2 k3 : Nat) (a0 a1 a2 a3 : Byte) : List Byte :=
  [gfMulSmall k0 a0 ^^^ gfMulSmall k1 a1 ^^^ gfMulSmall k2 a2 ^^^ gfMulSmall k3 a3,
   gfMulSmall k3 a0 ^^^ gfMulSmall k0 a1 ^^^ gfMulSmall k1 a2 ^^^ gfMulSmall k2 a3,
   gfMulSmall k2 a0 ^^^ gfMulSmall k3 a1 ^^^ gfMulSmall k0 a2 ^^^ gfMulSmall k1 a3,
   gfMulSmall k1 a0 ^^^ gfMulSmall k2 a1 ^^^ gfMulSmall k3 a2 ^^^ gfMulSmall k0 a3]

/-- MixColumns: first row (2, 3, 1, 1), on each column of four bytes (R104). -/
def mixColumns : List Byte → List Byte
  | a0 :: a1 :: a2 :: a3 :: rest => mixColumn 2 3 1 1 a0 a1 a2 a3 ++ mixColumns rest
  | _ => []

/-- InvMixColumns: first row (14, 11, 13, 9) (R104). -/
def invMixColumns : List Byte → List Byte
  | a0 :: a1 :: a2 :: a3 :: rest => mixColumn 14 11 13 9 a0 a1 a2 a3 ++ invMixColumns rest
  | _ => []

/-- AddRoundKey (R105). -/
def addRoundKey (rk s : List Byte) : List Byte := xorBytes s rk

/-- `Rcon[i]` for `i` from 1 to 10 (R106). -/
def rcon (i : Nat) : Byte :=
  ([0x01, 0x02, 0x04, 0x08, 0x10, 0x20, 0x40, 0x80, 0x1b, 0x36] : List Byte).getD (i - 1) 0

/-- `RotWord` (R106). -/
def rotWord : List Byte → List Byte
  | a0 :: rest => rest ++ [a0]
  | [] => []

/-- One step of the key expansion: from `w[0..i)` to `w[0..i]` (R106). -/
def expandWord (w : List (List Byte)) : List (List Byte) :=
  let i := w.length
  let t := w.getD (i - 1) []
  let t := if i % 4 = 0 then xorBytes (subBytes (rotWord t)) [rcon (i / 4), 0, 0, 0] else t
  w ++ [xorBytes (w.getD (i - 4) []) t]

/-- `n` steps of the key expansion. -/
def expandWords : Nat → List (List Byte) → List (List Byte)
  | 0, w => w
  | n + 1, w => expandWords n (expandWord w)

/-- The 44 words `w[0..43]` of a key (R106). -/
def keyWords (k : Block) : List (List Byte) :=
  let b := blockBytes k
  expandWords 40 [b.take 4, (b.drop 4).take 4, (b.drop 8).take 4, b.drop 12]

/-- `rk[r] = w[4r] || w[4r+1] || w[4r+2] || w[4r+3]` (R106). -/
def roundKey (w : List (List Byte)) (r : Nat) : List Byte :=
  w.getD (4 * r) [] ++ w.getD (4 * r + 1) [] ++ w.getD (4 * r + 2) [] ++ w.getD (4 * r + 3) []

/-- One of the rounds 1 to 9 of `E` (R107). -/
def encRound (w : List (List Byte)) (s : List Byte) (r : Nat) : List Byte :=
  addRoundKey (roundKey w r) (mixColumns (shiftRows (subBytes s)))

/-- One of the rounds 9 to 1 of `D` (R108). -/
def decRound (w : List (List Byte)) (s : List Byte) (r : Nat) : List Byte :=
  invMixColumns (addRoundKey (roundKey w r) (invSubBytes (invShiftRows s)))

/-- `E(K, X)` (R107). -/
@[irreducible] def blockE (k x : Block) : Block :=
  let w := keyWords k
  let s := addRoundKey (roundKey w 0) (blockBytes x)
  let s := [1, 2, 3, 4, 5, 6, 7, 8, 9].foldl (encRound w) s
  bytesBlock (addRoundKey (roundKey w 10) (shiftRows (subBytes s)))

/-- `D(K, Y)` (R108). -/
@[irreducible] def blockD (k y : Block) : Block :=
  let w := keyWords k
  let s := addRoundKey (roundKey w 10) (blockBytes y)
  let s := [9, 8, 7, 6, 5, 4, 3, 2, 1].foldl (decRound w) s
  bytesBlock (addRoundKey (roundKey w 0) (invSubBytes (invShiftRows s)))

end Sys2Proof.Machine
end

