-- ==== Sys2Proof/Machine/Cbc.lean ====
section
/-! DEFINITION. CBC-128: the two commands and the units their DATA phase applies (spec/41_cbc128.md). -/

namespace Sys2Proof.Machine

/-- ENC_CBC128: the CMD write of word 0x0000_0001 (R143, R210, R211). An accepted command then runs in
the engine's steps (Stream.lean) with the units below. -/
def execEncCbc128 (s : State) : Host.Outcome State Fault Refusal := .next (startOperation .encCbc128 false s)

/-- DEC_CBC128: the CMD write of word 0x0000_0002 (R146, R210, R211). -/
def execDecCbc128 (s : State) : Host.Outcome State Fault Refusal := .next (startOperation .decCbc128 false s)

/-- `unpad_ok(B)`: the last byte `v` is 1 to 16 and the last `v` bytes all equal `v` (R113). -/
def unpadOk (b : Block) : Bool :=
  let v := (blockByte b 15).toNat
  decide (1 ≤ v) && decide (v ≤ 16) &&
    ((blockBytes b).drop (16 - v)).all fun x => x = blockByte b 15

/-- INIT of both commands: `S.cv <- S.iv` (R218). -/
def cbcInit (e : Engine) : Engine := { e with cv := e.iv }

/-- ENC_CBC128 full-block unit (R144). -/
def encCbc128Full (e : Engine) : Engine :=
  let x := bytesBlock (e.inq.take 16)
  let c := blockE e.key (x ^^^ e.cv)
  { e with inq := e.inq.drop 16, cv := c, outq := e.outq ++ blockBytes c, tDone := e.tDone + 16 }

/-- ENC_CBC128 padding unit (R145). -/
def encCbc128Pad (e : Engine) : Engine :=
  let r := e.inq.length
  let x := bytesBlock (e.inq ++ List.replicate (16 - r) (BitVec.ofNat 8 (16 - r)))
  let c := blockE e.key (x ^^^ e.cv)
  { e with
    inq := []
    cv := c
    outq := e.outq ++ blockBytes c
    tDone := e.tDone + BitVec.ofNat 32 r
    tailDone := true }

/-- The ENC_CBC128 unit: a full block when one is there, else the padding unit (R144, R145). -/
def encCbc128Unit (e : Engine) : Engine :=
  if 16 ≤ e.inq.length then encCbc128Full e else encCbc128Pad e

/-- DEC_CBC128 non-last unit (R147). -/
def decCbc128Mid (e : Engine) : Engine :=
  let x := bytesBlock (e.inq.take 16)
  let p := blockD e.key x ^^^ e.cv
  { e with inq := e.inq.drop 16, cv := x, outq := e.outq ++ blockBytes p, tDone := e.tDone + 16 }

/-- DEC_CBC128 last unit: the plaintext less its padding, or the late error InvalidPadding (R148, R228).
R148 takes the 16 bytes of `S.in` and leaves `S.cv` (DEDUCED, log entry 11). -/
def decCbc128Last (e : Engine) : Engine :=
  let x := bytesBlock (e.inq.take 16)
  let p := blockD e.key x ^^^ e.cv
  let e' := { e with inq := e.inq.drop 16, tDone := e.tLen, tailDone := true }
  if unpadOk p then
    { e' with outq := e'.outq ++ (blockBytes p).take (16 - (blockByte p 15).toNat) }
  else lateError .invalidPadding e'

/-- The DEC_CBC128 unit: which of R147 and R148 applies; neither does when the text ends inside the block,
which R214's length check rules out. -/
def decCbc128Unit (e : Engine) : Option Engine :=
  if e.tDone.toNat + 16 < e.tLen.toNat then some (decCbc128Mid e)
  else if e.tDone.toNat + 16 = e.tLen.toNat then some (decCbc128Last e)
  else none

end Sys2Proof.Machine
end

