-- ==== Sys2Proof/Machine/Ctr.lean ====
section
/-! DEFINITION. CTR-128: the two commands and the unit their DATA phase applies (spec/42_ctr128.md). -/

namespace Sys2Proof.Machine

/-- ENC_CTR128: the CMD write of word 0x0000_0003 (R162, R210, R211). -/
def execEncCtr128 (s : State) : Host.Outcome State Fault Refusal := .next (startOperation .encCtr128 false s)

/-- DEC_CTR128: the CMD write of word 0x0000_0004 (R163, R210, R211). -/
def execDecCtr128 (s : State) : Host.Outcome State Fault Refusal := .next (startOperation .decCtr128 false s)

/-- INIT of both commands: `S.cb <- S.iv` (R218). -/
def ctrInit (e : Engine) : Engine := { e with cb := e.iv }

/-- The CTR unit of both commands: 16 bytes of `S.in`, or all of it when fewer are left, combined with the
keystream block; the counter block advances by `inc_CTR_WIDTH` (R164). -/
def ctrUnit (width : Nat) (e : Engine) : Engine :=
  let x := e.inq.take 16
  let ks := blockE e.key e.cb
  { e with
    inq := e.inq.drop 16
    outq := e.outq ++ xorBytes x (blockBytes ks)
    cb := incBlock width e.cb
    tDone := e.tDone + BitVec.ofNat 32 x.length }

end Sys2Proof.Machine
end

