-- ==== Sys2Proof/Machine/Galois.lean ====
section
/-! DEFINITION. The GF(2^128) multiplier, GHASH and the GCM building blocks (spec/40_primitives.md R117
to R123). -/

namespace Sys2Proof.Machine

/-- `R = e1 00 .. 00` (R118). -/
def gcmR : Block := 0xe1000000000000000000000000000000#128

/-- `V <- rightshift(V)`, reduced by `R` when bit 127 of `V` is 1 (R118). -/
def gcmShift (v : Block) : Block := if v.getLsbD 0 then (v >>> 1) ^^^ gcmR else v >>> 1

/-- The loop of R118: `n` iterations from `i`, on `Z` and `V`. Bit `i` of a block is counted from its
most significant end (R8). -/
def gcmMulLoop (x : Block) : Nat → Nat → Block → Block → Block
  | 0, _, z, _ => z
  | n + 1, i, z, v => gcmMulLoop x n (i + 1) (if x.getMsbD i then z ^^^ v else z) (gcmShift v)

/-- `X • Y` (R118). -/
@[irreducible] def gcmMul (x y : Block) : Block := gcmMulLoop x 128 0 0 y

/-- `y <- (y xor X) • H`: one block absorbed into the accumulator (R119). -/
def ghashStep (h y x : Block) : Block := gcmMul (y ^^^ x) h

/-- The GCM length block `L(a, c) = [8a]_64 || [8c]_64` (R120). -/
def lengthBlock (a c : Nat) : Block := BitVec.ofNat 64 (8 * a) ++ BitVec.ofNat 64 (8 * c)

/-- The 12-byte nonce in bytes 0 to 11 of `S.iv` (R47, R185). -/
def nonceOf (iv : Block) : BitVec 96 := iv.extractLsb' 32 96

/-- `J0 = N || 00 00 00 01` (R121). -/
def j0Block (n : BitVec 96) : Block := n ++ 1#32

end Sys2Proof.Machine
end

