-- ==== Sys2Proof/Machine/Gcm.lean ====
section
/-! DEFINITION. GCM-128: the two commands, INIT, the AAD phase, the units and the TAG phase
(spec/43_gcm128.md). -/

namespace Sys2Proof.Machine

/-- ENC_GCM128: the CMD write of word 0x0000_0005, or 0x0000_0105 with AADZ = 1 (R183, R210, R211). -/
def execEncGcm128 (aadz : Bool) (s : State) : Host.Outcome State Fault Refusal :=
  .next (startOperation .encGcm128 aadz s)

/-- DEC_GCM128: the CMD write of word 0x0000_0006, or 0x0000_0106 with AADZ = 1 (R184, R210, R211). -/
def execDecGcm128 (aadz : Bool) (s : State) : Host.Outcome State Fault Refusal :=
  .next (startOperation .decGcm128 aadz s)

/-- GCM INIT (R185); `aadLen` is the AAD_LEN register. -/
def gcmInit (aadLen : Word) (e : Engine) : Engine :=
  let j0 := j0Block (nonceOf e.iv)
  { e with
    h := blockE e.key 0
    ej0 := blockE e.key j0
    cb := incBlock 32 j0
    y := 0
    aadPos := 0
    aadBytes := if e.aadz then 16 else aadLen }

/-- The GCM AAD step: the default block, one block of AAD from memory, or the move to DATA (R186). -/
def gcmAad (s : State) : State :=
  let e := s.eng
  if e.aadz then
    { s with eng := { e with y := ghashStep e.h e.y 0, aadPos := 16, ph := .data } }
  else if e.aadPos.toNat < s.desc.aadLen.toNat then
    let k := min 16 (s.desc.aadLen.toNat - e.aadPos.toNat)
    match readRun s.cfg s.mem (s.desc.aadAddr + e.aadPos) k with
    | .ok a =>
      { s with
        eng := { e with y := ghashStep e.h e.y (zpadBlock a), aadPos := e.aadPos + BitVec.ofNat 32 k } }
    | .error f => memoryFault f s.mem s
  else { s with eng := { e with ph := .data } }

/-- ENC_GCM128 unit: the ciphertext it makes is hashed (R187). -/
def encGcm128Unit (e : Engine) : Engine :=
  let x := e.inq.take 16
  let c := xorBytes x (blockBytes (blockE e.key e.cb))
  { e with
    inq := e.inq.drop 16
    y := ghashStep e.h e.y (zpadBlock c)
    cb := incBlock 32 e.cb
    outq := e.outq ++ c
    tDone := e.tDone + BitVec.ofNat 32 x.length }

/-- DEC_GCM128 unit: the ciphertext it receives is hashed (R188). -/
def decGcm128Unit (e : Engine) : Engine :=
  let x := e.inq.take 16
  let p := xorBytes x (blockBytes (blockE e.key e.cb))
  { e with
    inq := e.inq.drop 16
    y := ghashStep e.h e.y (zpadBlock x)
    cb := incBlock 32 e.cb
    outq := e.outq ++ p
    tDone := e.tDone + BitVec.ofNat 32 x.length }

/-- `S.y` after the length block is absorbed (R189, R190). -/
def gcmFinalHash (e : Engine) : Block :=
  ghashStep e.h e.y (lengthBlock e.aadBytes.toNat e.tLen.toNat)

/-- `T = S.ej0 xor S.y`, the computed tag (R123, R189, R190). -/
def gcmTag (e : Engine) : Block := e.ej0 ^^^ gcmFinalHash e

/-- ENC_GCM128 TAG step: the tag follows the ciphertext in the destination (R189). -/
def encGcm128Tag (s : State) : State :=
  match writeRun s.cfg s.mem (s.desc.dstAddr + s.eng.dstPos) (blockBytes (gcmTag s.eng)) with
  | (m, none) => completeOk (s.eng.dstPos + 16) { s with mem := m }
  | (m, some f) => memoryFault f m s

/-- DEC_GCM128 TAG step: all 16 bytes of the received tag must equal the computed one, or the late error
AuthenticationFailure follows (R124, R190). -/
def decGcm128Tag (s : State) : State :=
  match readRun s.cfg s.mem (s.desc.srcAddr + s.eng.tLen) 16 with
  | .ok bs =>
    let e := { s.eng with tag := bytesBlock bs, y := gcmFinalHash s.eng }
    if bytesBlock bs = gcmTag s.eng then completeOk s.eng.dstPos { s with eng := e }
    else { s with eng := lateError .authenticationFailure e }
  | .error f => memoryFault f s.mem s

end Sys2Proof.Machine
end

