-- ==== Sys2Proof/Machine/Stream.lean ====
section
/-! DEFINITION. The engine's sequencer: one step per phase action, and in the DATA phase the staging
buffers' "feed until underflow, drain on overflow" loop (spec/44_stream_manager.md R214 to R229). -/

namespace Sys2Proof.Machine

/-! ## Checking and loading -/

/-- The first check of R214 that fails, or none. -/
def checkError (op : CipherOp) (d : Desc) : Option ErrorCode :=
  if d.keyLen.toNat ≠ 16 then some .invalidKeyLength
  else if d.ivLen.toNat ≠ ivBytes op then some .invalidIvLength
  else if op = .decCbc128 ∧ (d.srcLen.toNat = 0 ∨ d.srcLen.toNat % 16 ≠ 0) then some .invalidPadding
  else if op = .decGcm128 ∧ d.srcLen.toNat < 16 then some .authenticationFailure
  else if d.dstCap.toNat < required op d.srcLen.toNat then some .bufferTooSmall
  else none

/-- CHECK (R214). -/
def checkStep (op : CipherOp) (s : State) : State :=
  match checkError op s.desc with
  | some c => completeErr c 0 s
  | none => { s with eng := { s.eng with ph := .loadKey } }

/-- LOAD_KEY (R216). -/
def loadKeyStep (s : State) : State :=
  match readRun s.cfg s.mem s.desc.keyAddr 16 with
  | .ok bs => { s with eng := { s.eng with key := bytesBlock bs, ph := .loadIv } }
  | .error f => memoryFault f s.mem s

/-- LOAD_IV: bytes 0 to n-1 of `S.iv` are read, the others stay (R217). -/
def loadIvStep (op : CipherOp) (s : State) : State :=
  match readRun s.cfg s.mem s.desc.ivAddr (ivBytes op) with
  | .ok bs =>
    { s with
      eng := { s.eng with iv := bytesBlock (bs ++ (blockBytes s.eng.iv).drop (ivBytes op)), ph := .init } }
  | .error f => memoryFault f s.mem s

/-- The mode's part of INIT (R218, R185). -/
def modeInit (op : CipherOp) (d : Desc) (e : Engine) : Engine :=
  match op with
  | .encCbc128 => cbcInit e
  | .decCbc128 => cbcInit e
  | .encCtr128 => ctrInit e
  | .decCtr128 => ctrInit e
  | .encGcm128 => gcmInit d.aadLen e
  | .decGcm128 => gcmInit d.aadLen e

/-- INIT (R218). -/
def initStep (op : CipherOp) (s : State) : State :=
  { s with
    eng :=
      { modeInit op s.desc s.eng with
        tLen := textLen op s.desc.srcLen
        srcPos := 0
        tDone := 0
        dstPos := 0
        tailDone := false
        ph := if op.isGcm then .aad else .data } }

/-! ## The staging loop -/

/-- `exhausted` (R220). -/
def exhausted (e : Engine) : Bool := e.srcPos = e.tLen

/-- `free` (R220). -/
def freeOut (s : State) : Nat := s.cfg.stageBytes - s.eng.outq.length

/-- `unit_ready` of the counter modes (R220). -/
def streamUnitReady (e : Engine) : Bool :=
  decide (16 ≤ e.inq.length) || (exhausted e && decide (0 < e.inq.length) && decide (e.inq.length < 16))

/-- `unit_ready` (R220). -/
def unitReady (op : CipherOp) (e : Engine) : Bool :=
  match op with
  | .encCbc128 => decide (16 ≤ e.inq.length) || (exhausted e && !e.tailDone)
  | .decCbc128 => decide (16 ≤ e.inq.length)
  | .encCtr128 => streamUnitReady e
  | .decCtr128 => streamUnitReady e
  | .encGcm128 => streamUnitReady e
  | .decGcm128 => streamUnitReady e

/-- `overflow` (R220). -/
def overflow (op : CipherOp) (s : State) : Bool := unitReady op s.eng && decide (freeOut s < 16)

/-- `underflow` (R220). -/
def underflow (op : CipherOp) (e : Engine) : Bool := !unitReady op e && !exhausted e

/-- The unit of the mode applied to the engine, when one applies (R221). -/
def applyUnit (op : CipherOp) (width : Nat) (e : Engine) : Option Engine :=
  match op with
  | .encCbc128 => some (encCbc128Unit e)
  | .decCbc128 => decCbc128Unit e
  | .encCtr128 => some (ctrUnit width e)
  | .decCtr128 => some (ctrUnit width e)
  | .encGcm128 => some (encGcm128Unit e)
  | .decGcm128 => some (decGcm128Unit e)

/-- XFORM (R223). -/
def xformStep (op : CipherOp) (s : State) : Host.Outcome State Fault Refusal :=
  match applyUnit op s.cfg.ctrWidth s.eng with
  | some e => .next { s with eng := e }
  | none => .fault .sequencerUndefined

/-- DRAIN: the whole of `S.out`, oldest byte first (R224). -/
def drainStep (s : State) : State :=
  match writeRun s.cfg s.mem (s.desc.dstAddr + s.eng.dstPos) s.eng.outq with
  | (m, none) =>
    { s with
      mem := m
      eng := { s.eng with outq := [], dstPos := s.eng.dstPos + BitVec.ofNat 32 s.eng.outq.length } }
  | (m, some f) => memoryFault f m s

/-- How many bytes FEED reads (R225). -/
def feedCount (s : State) : Nat :=
  min (s.cfg.stageBytes - s.eng.inq.length) (s.eng.tLen.toNat - s.eng.srcPos.toNat)

/-- FEED (R225). -/
def feedStep (s : State) : State :=
  match readRun s.cfg s.mem (s.desc.srcAddr + s.eng.srcPos) (feedCount s) with
  | .ok bs =>
    { s with
      eng := { s.eng with inq := s.eng.inq ++ bs, srcPos := s.eng.srcPos + BitVec.ofNat 32 (feedCount s) } }
  | .error f => memoryFault f s.mem s

/-- End of data: TAG for the GCM commands, completion for every other (R226). -/
def endOfData (op : CipherOp) (s : State) : State :=
  if op.isGcm then { s with eng := { s.eng with ph := .tag } } else completeOk s.eng.dstPos s

/-- Step selection in phase DATA: the first applicable line (R222). -/
def dataStep (op : CipherOp) (s : State) : Host.Outcome State Fault Refusal :=
  if unitReady op s.eng && decide (16 ≤ freeOut s) then xformStep op s
  else if overflow op s then .next (drainStep s)
  else if underflow op s.eng then .next (feedStep s)
  else if 0 < s.eng.outq.length then .next (drainStep s)
  else .next (endOfData op s)

/-! ## The late phases -/

/-- The AAD phase exists for the GCM commands alone (R218). -/
def aadStep (op : CipherOp) (s : State) : Host.Outcome State Fault Refusal :=
  if op.isGcm then .next (gcmAad s) else .fault .sequencerUndefined

/-- The TAG phase of the GCM commands (R189, R190). -/
def tagStep (op : CipherOp) (s : State) : Host.Outcome State Fault Refusal :=
  match op with
  | .encCbc128 => .fault .sequencerUndefined
  | .decCbc128 => .fault .sequencerUndefined
  | .encCtr128 => .fault .sequencerUndefined
  | .decCtr128 => .fault .sequencerUndefined
  | .encGcm128 => .next (encGcm128Tag s)
  | .decGcm128 => .next (decGcm128Tag s)

/-- ZERO: zero bytes over every destination byte the operation wrote, then the pending error (R229). The
writes are checked like every engine access (R64; log entry 10). -/
def zeroStep (s : State) : State :=
  let n := s.eng.dstPos.toNat - s.eng.zeroPos.toNat
  match writeRun s.cfg s.mem (s.desc.dstAddr + s.eng.zeroPos) (List.replicate n 0) with
  | (m, none) => completeErr s.eng.perr 0 { s with mem := m }
  | (m, some f) => memoryFault f m s

/-! ## The sequencer -/

/-- The one enabled step of the running operation (R235, R240). -/
def phaseStep (op : CipherOp) (s : State) : Host.Outcome State Fault Refusal :=
  match s.eng.ph with
  | .none => .next s
  | .check => .next (checkStep op s)
  | .loadKey => .next (loadKeyStep s)
  | .loadIv => .next (loadIvStep op s)
  | .init => .next (initStep op s)
  | .aad => aadStep op s
  | .data => dataStep op s
  | .tag => tagStep op s
  | .zero => .next (zeroStep s)

/-- One engine step. With no operation running the engine takes none and issues no access (R15, R241,
R269): the state stays. -/
def engineStep (s : State) : Host.Outcome State Fault Refusal :=
  if s.eng.ph = .none then .next s
  else
    match CipherOp.ofCode s.eng.op with
    | some op => phaseStep op s
    | none => .fault .sequencerUndefined

end Sys2Proof.Machine
end

