-- ==== Sys2Proof/Machine/Dispatch.lean ====
section
/-! DEFINITION. The dispatch from an instruction to its meaning, one arm per constructor. -/

namespace Sys2Proof.Machine

def exec (i : Instr) (s : State) : Host.Outcome State Fault Refusal :=
  match i with
  | .nop => Sys2Proof.Machine.execNop s
  | .encCbc128 => Sys2Proof.Machine.execEncCbc128 s
  | .decCbc128 => Sys2Proof.Machine.execDecCbc128 s
  | .encCtr128 => Sys2Proof.Machine.execEncCtr128 s
  | .decCtr128 => Sys2Proof.Machine.execDecCtr128 s
  | .encGcm128 aadz => Sys2Proof.Machine.execEncGcm128 aadz s
  | .decGcm128 aadz => Sys2Proof.Machine.execDecGcm128 aadz s

end Sys2Proof.Machine
end

