-- ==== Sys2Proof/Machine/HostCache.lean ====
section
/-! DEFINITION. What the host's caches hold, byte by byte (spec/20_memory.md R71, R75; log entry 16). -/

namespace Sys2Proof.Machine

/-- Addresses strictly rising. -/
abbrev HostCache.wf (c : HostCache) : Prop := c.Pairwise fun x y => x.addr.toNat < y.addr.toNat

/-- The cached byte of an address, if there is one. -/
def HostCache.held : HostCache → Addr → Option CacheByte
  | [], _ => none
  | x :: c, a => if x.addr = a then some x else HostCache.held c a

/-- A byte put into the caches, in the place of the one they held for its address. -/
def HostCache.put : HostCache → CacheByte → HostCache
  | [], x => [x]
  | y :: c, x =>
    if x.addr.toNat < y.addr.toNat then x :: y :: c
    else if x.addr = y.addr then x :: c
    else y :: HostCache.put c x

/-- The byte of an address taken out of the caches. -/
def HostCache.without (c : HostCache) (a : Addr) : HostCache := c.filter fun x => x.addr ≠ a

end Sys2Proof.Machine
end

