-- ==== Sys2Proof/Machine/HostPort.lean ====
section
/-! DEFINITION. The host's side: accesses to the register window, to system memory through the host's caches, the
accesses of other bus masters, the `wait` loop and the reset input (spec/10_state.md R20, R21, spec/20_memory.md
R71, R73, R75, R77, spec/30_encoding.md R86, R88). -/

namespace Sys2Proof.Machine

/-- What an access of `size` bytes at host-bus address `addr` is to the block. -/
inductive WindowAccess where
  /-- It touches no byte of the window. -/
  | outside
  /-- It touches the window and is no naturally aligned 32-bit access (R21). -/
  | undefined
  /-- It is an access to a register. -/
  | register (r : Reg)
  deriving DecidableEq, Repr

/-- The block decodes the 64 bytes from BASE_ADDR on (R20, R21). -/
def windowAccess (base addr size : Nat) : WindowAccess :=
  if addr + size ≤ base ∨ base + 64 ≤ addr then .outside
  else if size = 4 ∧ base ≤ addr ∧ (addr - base) % 4 = 0 then
    match Reg.ofIndex ((addr - base) / 4) with
    | some r => .register r
    | none => .undefined
  else .undefined

/-- A write of `w` to CMD (R210): a legal word is its instruction, any other an illegal command. -/
def writeCmd (w : Word) (s : State) : Host.Outcome State Fault Refusal :=
  match decode w with
  | .ok i => exec i s
  | .error _ => .next (illegalWrite s)

/-- A write of a register; writes to read-only registers are ignored (R43). -/
def writeReg (r : Reg) (v : Word) (s : State) : Host.Outcome State Fault Refusal :=
  match r with
  | .cmd => writeCmd v s
  | .status => .next s
  | .resultLen => .next s
  | .faultAddr => .next s
  | .desc d => .next (writeDesc d v s)
  | .irqEn => .next (writeIrqEn v s)
  | .irqStat => .next (writeIrqStat v s)

/-- A bus write. One that misses the window is none of the block's (log entry 7). -/
def busWrite (addr size : Nat) (v : Word) (s : State) : Host.Outcome State Fault Refusal :=
  match windowAccess s.cfg.baseAddr addr size with
  | .outside => .next s
  | .undefined => .refused .undefinedRegisterAccess
  | .register r => writeReg r v s

/-- A bus read: the register's value goes to the host, nothing else changes (R43). -/
def busRead (addr size : Nat) (s : State) : Host.Outcome State Fault Refusal :=
  match windowAccess s.cfg.baseAddr addr size with
  | .outside => .next s
  | .undefined => .refused .undefinedRegisterAccess
  | .register r => .next { s with rdata := readReg r s }

/-- While BUSY the address is one no other agent may write: the running operation's inputs and its
destination (R73). -/
def writeForbidden (s : State) (a : Addr) : Bool :=
  s.busy &&
    match CipherOp.ofCode s.eng.op with
    | some op => inInputRange op s.eng.aadz s.desc a || inDestRange op s.desc a
    | none => true

/-- While BUSY the address is one no other agent may read: the running operation's destination (R73). -/
def readForbidden (s : State) (a : Addr) : Bool :=
  s.busy &&
    match CipherOp.ofCode s.eng.op with
    | some op => inDestRange op s.desc a
    | none => true

/-! ## Accesses to system memory

`MemOk` is asked of this engine's accesses alone; those of the host, of its caches and of every other master complete
(DESIGN CHOICE, log entry 23). No access of another master meets the host's caches (DESIGN CHOICE, log entry 24). -/

/-- A byte is written in system memory, unless R73 forbids it. No `MemOk` is asked (log entry 23). -/
def storeByte (a : Addr) (b : Byte) (s : State) : Host.Outcome State Fault Refusal :=
  if writeForbidden s a then .refused .busyRangeAccess
  else .next { s with mem := s.mem.setByte a b }

/-- The host writes a byte (R60, R73). Where its caches are not coherent the byte stays in them until it is cleaned
(R75). -/
def hostMemWrite (a : Addr) (b : Byte) (s : State) : Host.Outcome State Fault Refusal :=
  if s.cfg.dmaCoherent then storeByte a b s
  else if writeForbidden s a then .refused .busyRangeAccess
  else .next { s with hostCache := s.hostCache.put { addr := a, value := b, dirty := true } }

/-- The host's caches take a copy of a byte of memory they do not hold (R75); it is a read by the host's bus master
(R73), and asks no `MemOk` (log entry 23). -/
def cacheFetch (a : Addr) (s : State) : Host.Outcome State Fault Refusal :=
  if s.cfg.dmaCoherent then .next s
  else
    match s.hostCache.held a with
    | some _ => .next s
    | none =>
      if readForbidden s a then .refused .busyRangeAccess
      else
        .next { s with hostCache := s.hostCache.put { addr := a, value := s.mem.byteAt a, dirty := false } }

/-- The byte a read of the host's finds: the cached one where its caches are not coherent and hold it, else
memory's (R75). -/
def hostByte (a : Addr) (s : State) : Byte :=
  if s.cfg.dmaCoherent then s.mem.byteAt a
  else
    match s.hostCache.held a with
    | some x => x.value
    | none => s.mem.byteAt a

/-- The host reads a byte (R60, R73); caches that are not coherent keep a copy of it (R75). No `MemOk` is asked (log
entry 23). -/
def hostMemRead (a : Addr) (s : State) : Host.Outcome State Fault Refusal :=
  if readForbidden s a then .refused .busyRangeAccess
  else
    match cacheFetch a s with
    | .next t => .next { t with rdata := (hostByte a s).setWidth 32 }
    | .fault f => .fault f
    | .refused r => .refused r

/-- A byte is cleaned from the host's caches (R75): one the host has written reaches system memory, and the caches
keep it. -/
def cacheClean (a : Addr) (s : State) : Host.Outcome State Fault Refusal :=
  if s.cfg.dmaCoherent then .next s
  else
    match s.hostCache.held a with
    | none => .next s
    | some x =>
      if x.dirty then storeByte a x.value { s with hostCache := s.hostCache.put { x with dirty := false } }
      else .next s

/-- A byte is invalidated in the host's caches (R75): they no longer hold it, and one not yet cleaned is lost. -/
def cacheInvalidate (a : Addr) (s : State) : State :=
  if s.cfg.dmaCoherent then s else { s with hostCache := s.hostCache.without a }

/-- The platform has this bus master: `N_ENGINES` counts this engine and the others (R267). -/
def Master.present (c : Config) (m : Master) : Bool :=
  match m with
  | .engine k => k + 1 < c.nEngines
  | .other => true

/-- Another bus master, an engine or not, writes a byte of system memory (R73, R77). No `MemOk` is asked (log entry 23),
and a copy the host's caches hold stays as it is (log entry 24). -/
def masterWrite (m : Master) (a : Addr) (b : Byte) (s : State) : Host.Outcome State Fault Refusal :=
  if m.present s.cfg then storeByte a b s else .next s

/-- Another bus master reads a byte of system memory (R73, R77); what it reads is its own. It asks no `MemOk` and meets
no cached byte (log entries 23 and 24). -/
def masterRead (m : Master) (a : Addr) (s : State) : Host.Outcome State Fault Refusal :=
  if m.present s.cfg && readForbidden s a then .refused .busyRangeAccess else .next s

/-- One turn of `wait`: `rd STATUS`, and again after another engine step while STATE = BUSY (R88;
log entry 18). -/
def pollStatus (s : State) : State :=
  { s with
    rdata := s.status.word
    inputs := if s.busy then { after := 1, together := false, op := .wait } :: s.inputs else s.inputs }

/-- What a host access does. -/
def hostAct (op : HostOp) (s : State) : Host.Outcome State Fault Refusal :=
  match op with
  | .write addr size v => busWrite addr size v s
  | .read addr size => busRead addr size s
  | .memWrite a b => hostMemWrite a b s
  | .memRead a => hostMemRead a s
  | .cacheFetch a => cacheFetch a s
  | .cacheClean a => cacheClean a s
  | .cacheInvalidate a => .next (cacheInvalidate a s)
  | .masterWrite m a b => masterWrite m a b s
  | .masterRead m a => masterRead m a s
  | .wait => .next (pollStatus s)
  | .reset => .next (assertReset s)

/-- A host access that lands in the same step as an action of the engine: the access first, then the
engine's step, so that a completion wins over a simultaneous clear of DONE_P (R41). With no operation
running before the access the engine has no step to take (R241). DESIGN CHOICE but for the completion (log
entry 5). -/
def hostStep (together : Bool) (op : HostOp) (s : State) : Host.Outcome State Fault Refusal :=
  match hostAct op s with
  | .next s' => if together = true ∧ s.eng.ph ≠ .none then engineStep s' else .next s'
  | .fault f => .fault f
  | .refused r => .refused r

/-! ## The host syntax of R86 and R88 -/

/-- `wr R, v` (R86). -/
def wr (c : Config) (r : Reg) (v : Word) : HostOp := .write (c.baseAddr + r.offset) 4 v

/-- `rd R` (R86). -/
def rd (c : Config) (r : Reg) : HostOp := .read (c.baseAddr + r.offset) 4

/-- `cmd MNEMONIC` (R88). -/
def cmd (c : Config) (i : Instr) : HostOp := wr c .cmd (encode i)

/-- `ack` (R88). -/
def ack (c : Config) : HostOp := wr c .irqStat 1

/-- `desc k, kl, i, il, a, al, s, sl, d, dc` (R88). -/
def descOps (c : Config) (d : Desc) : List HostOp :=
  [wr c (.desc .keyAddr) d.keyAddr, wr c (.desc .keyLen) d.keyLen, wr c (.desc .ivAddr) d.ivAddr,
   wr c (.desc .ivLen) d.ivLen, wr c (.desc .aadAddr) d.aadAddr, wr c (.desc .aadLen) d.aadLen,
   wr c (.desc .srcAddr) d.srcAddr, wr c (.desc .srcLen) d.srcLen, wr c (.desc .dstAddr) d.dstAddr,
   wr c (.desc .dstCap) d.dstCap]

/-- A host operation that lands at once. -/
def atOnce (op : HostOp) : HostInput := { after := 0, together := false, op := op }

end Sys2Proof.Machine
end

