-- ==== Sys2Proof/Machine/Step.lean ====
section
/-! DEFINITION. One step of the machine: the next host access when its time has come, else one engine step
(spec/00_scope.md R11, spec/44_stream_manager.md R240). -/

namespace Sys2Proof.Machine

/-- The host's next access lands when its count is zero; until then, and when none is pending, the engine
moves. Every interleaving of the two agents is some list of inputs (R240). -/
def step (s : State) : Host.Outcome State Fault Refusal :=
  match s.inputs with
  | [] => engineStep s
  | inp :: rest =>
    match inp.after with
    | 0 => hostStep inp.together inp.op { s with inputs := rest }
    | n + 1 => engineStep { s with inputs := { inp with after := n } :: rest }

/-- `s` with the opcode-table word as the host's very next access: a write of it to CMD. A command is no
fetch (R76); the block reads it from the CMD write that carries it. -/
def State.withFetchWord (s : State) (nbits w : Nat) : State :=
  { s with inputs := atOnce (wr s.cfg .cmd (BitVec.ofNat 32 (w % 2 ^ nbits))) :: s.inputs }

end Sys2Proof.Machine
end

