-- ==== Sys2Proof/Machine/Reference.lean ====
section
/-! DEFINITION. The reference functions of the three modes, on whole byte strings
(spec/41_cbc128.md R140, R141, spec/42_ctr128.md R160, spec/43_gcm128.md R180, R181). The engine never
calls them; the claims compare its output with theirs (spec/44_stream_manager.md R231). -/

namespace Sys2Proof.Machine

/-! ## CBC -/

/-- `pad(P)` (spec/40_primitives.md R112). -/
def padPkcs (p : List Byte) : List Byte :=
  p ++ List.replicate (padLen p.length) (BitVec.ofNat 8 (padLen p.length))

/-- `C_i = E(K, Q_i xor C_{i-1})` (R140). -/
def cbcEncBlocks (k : Block) : Block → List Block → List Block
  | _, [] => []
  | c, q :: qs => blockE k (q ^^^ c) :: cbcEncBlocks k (blockE k (q ^^^ c)) qs

/-- `CBC_ENC(K, IV, P)` (R140). -/
def cbcEnc (k iv : Block) (p : List Byte) : List Byte :=
  (cbcEncBlocks k iv ((chunks (padPkcs p)).map bytesBlock)).flatMap blockBytes

/-- `Q_i = D(K, C_i) xor C_{i-1}` (R141). -/
def cbcDecBlocks (k : Block) : Block → List Block → List Block
  | _, [] => []
  | c, x :: xs => (blockD k x ^^^ c) :: cbcDecBlocks k x xs

/-- `CBC_DEC(K, IV, C)`; none is the error InvalidPadding (R141). -/
def cbcDec (k iv : Block) (c : List Byte) : Option (List Byte) :=
  if c.length = 0 ∨ c.length % 16 ≠ 0 then none
  else
    let qs := cbcDecBlocks k iv ((chunks c).map bytesBlock)
    let last := qs.getLastD 0
    if unpadOk last then some ((qs.flatMap blockBytes).take (c.length - (blockByte last 15).toNat))
    else none

/-! ## CTR -/

/-- `Y_i = X_i xor MSB(E(K, CB_i))`, `CB_{i+1} = inc_w(CB_i)`, on the pieces `X_i` (R122, R160). -/
def ctrPieces (w : Nat) (k : Block) : Block → List (List Byte) → List Byte
  | _, [] => []
  | cb, x :: xs => xorBytes x (blockBytes (blockE k cb)) ++ ctrPieces w k (incBlock w cb) xs

/-- `CTR(K, IV, X)` with `CTR_WIDTH` = `w` (R160). -/
def ctr (w : Nat) (k iv : Block) (x : List Byte) : List Byte := ctrPieces w k iv (chunks x)

/-! ## GCM -/

/-- `GCTR(K, CB1, X)` (spec/40_primitives.md R122). -/
def gctr (k cb : Block) (x : List Byte) : List Byte := ctrPieces 32 k cb (chunks x)

/-- `zpad(B)` (R120). -/
def zpadBytes (b : List Byte) : List Byte := b ++ List.replicate ((16 - b.length % 16) % 16) 0

/-- `GHASH_H(X)` for a string of whole blocks (R119). -/
def ghash (h : Block) (x : List Byte) : Block :=
  (chunks x).foldl (fun y c => ghashStep h y (bytesBlock c)) 0

/-- The GCM tag of AAD `a` and ciphertext `c` (R123). -/
def gcmTagOf (k : Block) (n : BitVec 96) (a c : List Byte) : Block :=
  blockE k (j0Block n) ^^^
    ghash (blockE k 0) (zpadBytes a ++ zpadBytes c ++ blockBytes (lengthBlock a.length c.length))

/-- `GCM_ENC(K, N, A, P)` (R180). -/
def gcmEnc (k : Block) (n : BitVec 96) (a p : List Byte) : List Byte :=
  let c := gctr k (incBlock 32 (j0Block n)) p
  c ++ blockBytes (gcmTagOf k n a c)

/-- `GCM_DEC(K, N, A, X)`; none is the error AuthenticationFailure (R181). -/
def gcmDec (k : Block) (n : BitVec 96) (a x : List Byte) : Option (List Byte) :=
  if x.length < 16 then none
  else
    let c := x.take (x.length - 16)
    if x.drop (x.length - 16) = blockBytes (gcmTagOf k n a c) then
      some (gctr k (incBlock 32 (j0Block n)) c)
    else none

end Sys2Proof.Machine
end

