-- ==== Sys2Proof/Safety.lean ====
section
/-! DEFINITION. The terms the claims are stated in: runs of the machine, the invariant of its states, when
an operation is ready to run to a result, and what a finished operation leaves. -/

namespace Sys2Proof.Machine

/-- `n` steps, stopping at the first fault or refusal. -/
def run : Nat → State → Host.Outcome State Fault Refusal
  | 0, s => .next s
  | n + 1, s =>
    match step s with
    | .next s' => run n s'
    | .fault f => .fault f
    | .refused r => .refused r

/-! ## The invariant -/

/-- A command's registers tell one story: ERR is 0 unless STATE is DONE_ERR (R24), RESULT_LEN is 0 unless
DONE_OK (R27), FAULT_ADDR is 0 unless the code is MemoryFault (R28). -/
structure StatusInv (s : State) : Prop where
  err : s.status.err = .none ↔ s.status.state ≠ .doneErr
  len : s.status.state ≠ .doneOk → s.resultLen = 0
  fault : s.status.err ≠ .memoryFault → s.faultAddr = 0

/-- How many output bytes the units have made, by mode, with the text bytes consumed (R227). -/
def producedOk (op : CipherOp) (e : Engine) : Prop :=
  match op with
  | .encCbc128 =>
    (e.tailDone = false ∧ e.tDone.toNat % 16 = 0 ∧ e.dstPos.toNat + e.outq.length = e.tDone.toNat) ∨
    (e.tailDone = true ∧ e.tDone = e.tLen ∧
      e.dstPos.toNat + e.outq.length = required .encCbc128 e.tLen.toNat)
  | .decCbc128 =>
    (e.tailDone = false ∧ e.tDone.toNat % 16 = 0 ∧ e.tDone.toNat < e.tLen.toNat ∧
      e.dstPos.toNat + e.outq.length = e.tDone.toNat) ∨
    (e.tailDone = true ∧ e.tDone = e.tLen ∧ e.dstPos.toNat + e.outq.length < e.tLen.toNat ∧
      e.tLen.toNat ≤ e.dstPos.toNat + e.outq.length + 16)
  | .encCtr128 | .decCtr128 | .encGcm128 | .decGcm128 =>
    (e.tDone.toNat % 16 = 0 ∨ e.tDone = e.tLen) ∧ e.dstPos.toNat + e.outq.length = e.tDone.toNat

/-- The invariants of the data phase (R227). -/
structure DataInv (op : CipherOp) (c : Config) (d : Desc) (e : Engine) : Prop where
  tLen : e.tLen = textLen op d.srcLen
  inCap : e.inq.length ≤ c.stageBytes
  outCap : e.outq.length ≤ c.stageBytes
  srcPos : e.srcPos.toNat = e.tDone.toNat + e.inq.length
  srcLe : e.srcPos.toNat ≤ e.tLen.toNat
  produced : producedOk op e
  perr : e.perr = .none

/-- Nothing has been moved yet: the positions are zero and the queues empty. -/
def Untouched (e : Engine) : Prop :=
  e.inq = [] ∧ e.outq = [] ∧ e.srcPos = 0 ∧ e.tDone = 0 ∧ e.dstPos = 0 ∧ e.tailDone = false ∧ e.perr = .none

/-- What holds in each phase of a running operation (R214 to R229, R235). -/
def PhaseInv (op : CipherOp) (c : Config) (d : Desc) (e : Engine) : Prop :=
  match e.ph with
  | .none => False
  | .check => Untouched e
  | .loadKey | .loadIv | .init => checkError op d = none ∧ Untouched e
  | .aad =>
    checkError op d = none ∧ Untouched e ∧ op.isGcm = true ∧ e.tLen = textLen op d.srcLen ∧
      (e.aadz = false → e.aadPos.toNat ≤ d.aadLen.toNat)
  | .data => checkError op d = none ∧ DataInv op c d e
  | .tag =>
    checkError op d = none ∧ op.isGcm = true ∧ e.tLen = textLen op d.srcLen ∧
      e.inq = [] ∧ e.outq = [] ∧ e.dstPos = e.tLen ∧ e.perr = .none
  | .zero =>
    checkError op d = none ∧ e.inq = [] ∧ e.outq = [] ∧ e.zeroPos = 0 ∧
      e.dstPos.toNat ≤ required op d.srcLen.toNat ∧
      ((op = .decCbc128 ∧ e.perr = .invalidPadding) ∨
        (op = .decGcm128 ∧ e.perr = .authenticationFailure))

/-- What holds of the running operation, if there is one: STATE = BUSY exactly when a phase is active
(R56); with none, every internal register is zero (R57, R238); with one, `S.op` is an operation, AADZ
stands with GCM alone (R83), the phase's facts hold, and every destination byte written so far is one
the platform lets the engine write (R64). -/
structure RunningInv (s : State) : Prop where
  busy : s.status.state = .busy ↔ s.eng.ph ≠ .none
  idle : s.eng.ph = .none → s.eng = Engine.cleared
  active : s.eng.ph ≠ .none →
    ∃ op, CipherOp.ofCode s.eng.op = some op ∧ (s.eng.aadz = true → op.isGcm = true) ∧
      PhaseInv op s.cfg s.desc s.eng
  written : ∀ i < s.eng.dstPos.toNat, memOk s.cfg (s.desc.dstAddr + BitVec.ofNat 32 i) .write = true

/-- The invariant of the machine. -/
structure Inv (s : State) : Prop where
  cfg : s.cfg.wf = true
  mem : Memory.wf s.mem
  cache : HostCache.wf s.hostCache
  status : StatusInv s
  running : RunningInv s

/-! ## The field GF(2^8) -/

/-- The product in GF(2^8) modulo 0x11B, by the bits of the first factor (R102, R104): `n` bits from bit `i`. -/
def gfMul8From (a : Byte) : Nat → Nat → Byte → Byte
  | 0, _, _ => 0
  | n + 1, i, b => (if a.getLsbD i then b else 0) ^^^ gfMul8From a n (i + 1) (xtime b)

/-- `a • b` in GF(2^8) (R102). -/
def gfMul8 (a b : Byte) : Byte := gfMul8From a 8 0 b

/-! ## Running an operation to its end -/

/-- Every engine read of the `n` bytes from `a` on completes. -/
def readsOk (c : Config) (a : Addr) (n : Nat) : Prop :=
  ∀ i < n, memOk c (a + BitVec.ofNat 32 i) .read = true

/-- Every engine write of the `n` bytes from `a` on completes. -/
def writesOk (c : Config) (a : Addr) (n : Nat) : Prop :=
  ∀ i < n, memOk c (a + BitVec.ofNat 32 i) .write = true

/-- No byte of the destination is a source byte of a greater offset: the condition under which writing as
one goes does no harm. Both cases of R68 (disjoint, or starting at or below the source without wrap)
imply it. -/
def overlapAllowed (op : CipherOp) (d : Desc) : Prop :=
  ∀ i j, i < d.srcLen.toNat → j < required op d.srcLen.toNat →
    d.dstAddr + BitVec.ofNat 32 j = d.srcAddr + BitVec.ofNat 32 i → i ≤ j

/-- The machine is between operations: nothing runs and the internal registers are zero (R57, R238). -/
structure Between (s : State) : Prop where
  cfg : s.cfg.wf = true
  mem : Memory.wf s.mem
  cache : HostCache.wf s.hostCache
  notBusy : s.status.state ≠ .busy
  cleared : s.eng = Engine.cleared

/-- Everything an operation needs to run to its end without an early error or a memory fault, and to
give its reference result (R214, R64, R68). -/
structure Ready (op : CipherOp) (aadz : Bool) (s : State) : Prop where
  between : Between s
  noInputs : s.inputs = []
  checks : checkError op s.desc = none
  key : readsOk s.cfg s.desc.keyAddr 16
  iv : readsOk s.cfg s.desc.ivAddr (ivBytes op)
  aad : op.isGcm = true → aadz = false → readsOk s.cfg s.desc.aadAddr s.desc.aadLen.toNat
  src : readsOk s.cfg s.desc.srcAddr s.desc.srcLen.toNat
  dst : writesOk s.cfg s.desc.dstAddr (required op s.desc.srcLen.toNat)
  overlap : overlapAllowed op s.desc

/-- The operands of R85 as memory holds them. -/
def keyOf (s : State) : Block := bytesBlock (s.mem.bytesAt s.desc.keyAddr 16)

/-- The 16-byte IV of the CBC and CTR commands. -/
def ivOf (s : State) : Block := bytesBlock (s.mem.bytesAt s.desc.ivAddr 16)

/-- The 12-byte nonce of the GCM commands. -/
def gcmNonceOf (s : State) : BitVec 96 := BitVec.ofNat 96 (bytesNat (s.mem.bytesAt s.desc.ivAddr 12))

/-- The AAD of the GCM commands: the 16 zero bytes of the default, or AAD_LEN bytes of memory (R82). -/
def aadOf (aadz : Bool) (s : State) : List Byte :=
  if aadz then List.replicate 16 0 else s.mem.bytesAt s.desc.aadAddr s.desc.aadLen.toNat

/-- The source bytes. -/
def srcOf (s : State) : List Byte := s.mem.bytesAt s.desc.srcAddr s.desc.srcLen.toNat

/-- R239's bound on the engine steps of one operation. -/
def stepBound (op : CipherOp) (d : Desc) : Nat :=
  8 + (d.aadLen.toNat + 15) / 16 + 2 * d.srcLen.toNat + 1 + required op d.srcLen.toNat + 16

/-- What a successful operation leaves of the state it started in: `out` at the destination and nothing
else in memory, its length in RESULT_LEN, DONE_OK, DONE_P, and the internal registers zero (R231, R236). -/
def finishedOk (out : List Byte) (s : State) : State :=
  { s with
    status := { state := .doneOk, err := .none, ign := false }
    resultLen := BitVec.ofNat 32 out.length
    faultAddr := 0
    doneP := true
    eng := Engine.cleared
    mem := s.mem.setBytes s.desc.dstAddr out }

/-- What an operation that ended with a late error leaves: the `n` destination bytes it wrote are zero and
nothing else in memory changed, RESULT_LEN is 0, DONE_ERR with the code (R229, R231, R237). -/
def finishedLate (code : ErrorCode) (n : Nat) (s : State) : State :=
  { s with
    status := { state := .doneErr, err := code, ign := false }
    resultLen := 0
    faultAddr := 0
    doneP := true
    eng := Engine.cleared
    mem := s.mem.setBytes s.desc.dstAddr (List.replicate n 0) }

end Sys2Proof.Machine
end

