-- ==== Sys2Proof/Certificates/Slice0/Obligations.lean ====
section
/-! DEFINITION. The statements about the model, each from a numbered rule of spec/ or from several. An
address is written as a range's start plus an offset; address arithmetic wraps (spec/20_memory.md R66). -/

section
open Sys2Proof Sys2Proof.Machine

/-! ## Reset (spec/70_reset_and_hazards.md) -/

/-- R291, R292: right after reset, at power-on or asserted in any state, every host-visible register reads
zero, the interrupt output is deasserted, and every internal register is zero with no phase active. -/
def Obligations.ResetLeavesEveryRegisterZero : Prop :=
  ∀ s t : State, (t = State.reset ∨ hostAct .reset s = .next t) →
    (∀ r : Reg, readReg r t = 0) ∧
    t.status = { state := .idle, err := .none, ign := false } ∧
    t.doneIe = false ∧ t.doneP = false ∧ t.irq = false ∧
    t.eng =
      { ph := .none, op := 0, aadz := false, key := 0, iv := 0, cv := 0, cb := 0, h := 0, ej0 := 0, y := 0
        tag := 0, inq := [], outq := [], tLen := 0, srcPos := 0, tDone := 0, dstPos := 0, aadPos := 0
        aadBytes := 0, zeroPos := 0, tailDone := false, perr := .none }

/-- R293: reset in any state, BUSY included, stops the operation at once: STATE is IDLE, no completion is
reported, memory is as it was, and the engine then does nothing. -/
def Obligations.ResetEndsARunningOperation : Prop :=
  ∀ (s : State) (together : Bool), ∃ t : State, hostStep together .reset s = .next t ∧
    t.status.state = .idle ∧ t.doneP = false ∧ t.eng.ph = .none ∧ t.mem = s.mem ∧
    engineStep t = .next t

/-! ## Command words (spec/30_encoding.md) -/

/-- R81, R82, R84: some command words, read off the tables. -/
def Obligations.CommandWordsDecode : Prop :=
  decode 0x00000000 = .ok .nop ∧ decode 0x00000001 = .ok .encCbc128 ∧
  decode 0x00000002 = .ok .decCbc128 ∧ decode 0x00000003 = .ok .encCtr128 ∧
  decode 0x00000004 = .ok .decCtr128 ∧ decode 0x00000005 = .ok (.encGcm128 false) ∧
  decode 0x00000105 = .ok (.encGcm128 true) ∧ decode 0x00000006 = .ok (.decGcm128 false) ∧
  decode 0x00000106 = .ok (.decGcm128 true) ∧ decode 0x00000007 = .error .reservedOp ∧
  decode 0x00000011 = .error .reservedBitsLow ∧ decode 0x00000201 = .error .reservedBitsHigh ∧
  decode 0x00000101 = .error .aadzNotGcm

/-- R84: the nine words of the table are the legal ones, each its command, and a decoder's `match` is the
word with AADZ cleared and its `mask` 0xFFFF_FFFF for OP 0 to 4, 0xFFFF_FEFF for OP 5 and 6. -/
def Obligations.LegalWordsAreTheTable : Prop :=
  ∀ w : Word,
    (decode w = .ok .nop ↔ w &&& 0xFFFFFFFF = 0x00000000) ∧
    (decode w = .ok .encCbc128 ↔ w &&& 0xFFFFFFFF = 0x00000001) ∧
    (decode w = .ok .decCbc128 ↔ w &&& 0xFFFFFFFF = 0x00000002) ∧
    (decode w = .ok .encCtr128 ↔ w &&& 0xFFFFFFFF = 0x00000003) ∧
    (decode w = .ok .decCtr128 ↔ w &&& 0xFFFFFFFF = 0x00000004) ∧
    (∀ aadz, decode w = .ok (.encGcm128 aadz) ↔ w &&& 0xFFFFFEFF = 0x00000005 ∧ w.getLsbD 8 = aadz) ∧
    (∀ aadz, decode w = .ok (.decGcm128 aadz) ↔ w &&& 0xFFFFFEFF = 0x00000006 ∧ w.getLsbD 8 = aadz) ∧
    ((∃ i, decode w = .ok i) ↔
      w ∈ ([0x00000000, 0x00000001, 0x00000002, 0x00000003, 0x00000004, 0x00000005, 0x00000105, 0x00000006,
        0x00000106] : List Word))

/-- R83, R212: which words are legal, by their fields, and what becomes of every other word written to CMD, on the bus
or as the register's write: IllegalCommand at once when the block is not busy, with IGN as it was and no memory
accessed, and ignored with IGN set when it is. -/
def Obligations.LegalWordsByFields : Prop :=
  ∀ w : Word,
    ((∃ i, decode w = .ok i) ↔
      (w.extractLsb' 0 4).toNat ≤ 6 ∧ w.extractLsb' 4 4 = 0 ∧ w.extractLsb' 9 23 = 0 ∧
        (w.getLsbD 8 = true → (w.extractLsb' 0 4).toNat = 5 ∨ (w.extractLsb' 0 4).toNat = 6)) ∧
    (w.extractLsb' 0 4 = 0 → ((∃ i, decode w = .ok i) ↔ w = 0)) ∧
    (∀ s : State, writeReg .cmd w s = writeCmd w s ∧ busWrite s.cfg.baseAddr 4 w s = writeCmd w s ∧
      hostAct (wr s.cfg .cmd w) s = writeCmd w s) ∧
    ((∀ i, decode w ≠ .ok i) → ∀ s : State,
      (s.status.state ≠ .busy →
        writeCmd w s = .next { s with
          status := { state := .doneErr, err := .illegalCommand, ign := s.status.ign }
          resultLen := 0, faultAddr := 0, doneP := true }) ∧
      (s.status.state = .busy →
        writeCmd w s = .next { s with status := { s.status with ign := true } }))

/-- Encoder and decoder agree on all 2^32 words and all instructions (R80 to R84). -/
def Obligations.EncodeAndDecodeAgree : Prop :=
  (∀ (w : Word) (i : Instr), decode w = .ok i ↔ i.wf = true ∧ encode i = w) ∧
  (∀ (w : Word) (i : Instr), decodeTableWord 32 w.toNat = some i ↔ encode i = w)

/-! ## Commands (spec/44_stream_manager.md R210 to R213) -/

/-- R213: NOP changes nothing, in any state; a non-zero word with OP 0 is no NOP but an illegal command. -/
def Obligations.NopChangesNothing : Prop :=
  (∀ s : State, exec .nop s = .next s ∧ writeCmd 0x00000000 s = .next s) ∧
  (∀ (w : Word) (s : State), w ≠ 0 → w.extractLsb' 0 4 = 0 → s.status.state ≠ .busy →
    writeCmd w s = .next { s with
      status := { state := .doneErr, err := .illegalCommand, ign := s.status.ign }
      resultLen := 0, faultAddr := 0, doneP := true })

/-- R211: each of the six operations' commands, when the block is not busy, is accepted: BUSY, the last
completion's registers cleared, OP and AADZ latched from the word, phase CHECK; in a legal state every other
internal register is zero. -/
def Obligations.CommandStartsItsOperation : Prop :=
  ∀ (i : Instr) (s : State), i ≠ .nop → s.status.state ≠ .busy →
    exec i s = .next { s with
      status := { state := .busy, err := .none, ign := false }
      resultLen := 0, faultAddr := 0, doneP := false
      eng := { s.eng with
        op := (encode i).extractLsb' 0 4, aadz := (encode i).getLsbD 8, ph := .check } } ∧
    (Inv s → { s.eng with op := 0, aadz := false, ph := .none } = Engine.cleared)

/-- R210, and the frame of every command: while BUSY a command other than NOP changes IGN alone; in any state
a command changes no parameter, descriptor register, DONE_IE, pending host access, read data, byte of the host's
caches or byte of memory, and no internal register but `S.op`, `S.aadz` and `S.ph`. -/
def Obligations.CommandFrame : Prop :=
  (∀ (i : Instr) (s : State), i ≠ .nop → s.status.state = .busy →
    exec i s = .next { s with status := { s.status with ign := true } }) ∧
  (∀ (i : Instr) (s t : State), exec i s = .next t →
    t.cfg = s.cfg ∧ t.desc = s.desc ∧ t.doneIe = s.doneIe ∧ t.inputs = s.inputs ∧ t.rdata = s.rdata ∧
    t.hostCache = s.hostCache ∧
    (∀ a : Addr, t.mem.byteAt a = s.mem.byteAt a) ∧
    t.eng = { s.eng with op := t.eng.op, aadz := t.eng.aadz, ph := t.eng.ph })

/-- A step runs the decoded command: when the host's next access is a write of a legal word to CMD, the step
is exec of its instruction, followed by the engine's own step when the access lands in the same step as one
of the engine's actions. So it is with every access of the host: the step is the access, and then, in the same
step, the engine's; an access that is refused refuses the step; until an access's time has come, and when none is
pending, the step is the engine's (R11, R41, R210, R240). The schedule is the model's choice (log entry 3), the order
inside one step, access first, is its choice too but for R41's case (log entry 5), and that `withFetchWord` stands
for the write of the word to CMD is log entry 8's. -/
def Obligations.StepRunsTheDecodedCommand : Prop :=
  (∀ (s : State) (w : Word) (i : Instr) (rest : List HostInput), decode w = .ok i →
    (s.inputs = { after := 0, together := false, op := wr s.cfg .cmd w } :: rest →
      step s = exec i { s with inputs := rest }) ∧
    (s.inputs = { after := 0, together := true, op := wr s.cfg .cmd w } :: rest →
      ∀ t, exec i { s with inputs := rest } = .next t →
        step s = if s.eng.ph = .none then .next t else engineStep t) ∧
    step (s.withFetchWord 32 w.toNat) = exec i s) ∧
  (∀ (s : State) (op : HostOp) (rest : List HostInput),
    (s.inputs = { after := 0, together := false, op := op } :: rest →
      step s = hostAct op { s with inputs := rest }) ∧
    (s.inputs = { after := 0, together := true, op := op } :: rest →
      ∀ t, hostAct op { s with inputs := rest } = .next t →
        step s = if s.eng.ph = .none then .next t else engineStep t) ∧
    (∀ (together : Bool) (r : Refusal),
      s.inputs = { after := 0, together := together, op := op } :: rest →
        hostAct op { s with inputs := rest } = .refused r → step s = .refused r) ∧
    (∀ (n : Nat) (together : Bool),
      s.inputs = { after := n + 1, together := together, op := op } :: rest →
        step s = engineStep
          { s with inputs := { after := n, together := together, op := op } :: rest }) ∧
    (s.inputs = [] → step s = engineStep s)) ∧
  (∀ (s : State) (addr size : Nat) (v : Word),
    hostAct (.write addr size v) s = busWrite addr size v s ∧ hostAct (.read addr size) s = busRead addr size s)

/-! ## The register window (spec/10_state.md) -/

/-- R20, R22, R27 to R38, R86: each register answers at its offset: an aligned 32-bit write of it is its write, an
aligned 32-bit read gives the value it holds and changes nothing in the block; CMD holds none and reads 0. -/
def Obligations.EveryRegisterAtItsOffset : Prop :=
  ∀ (s : State) (v : Word),
    (∀ p ∈ ([(.cmd, 0x00, 0), (.status, 0x04, s.status.word), (.resultLen, 0x08, s.resultLen),
        (.faultAddr, 0x0C, s.faultAddr), (.desc .keyAddr, 0x10, s.desc.keyAddr),
        (.desc .keyLen, 0x14, s.desc.keyLen), (.desc .ivAddr, 0x18, s.desc.ivAddr),
        (.desc .ivLen, 0x1C, s.desc.ivLen), (.desc .aadAddr, 0x20, s.desc.aadAddr),
        (.desc .aadLen, 0x24, s.desc.aadLen), (.desc .srcAddr, 0x28, s.desc.srcAddr),
        (.desc .srcLen, 0x2C, s.desc.srcLen), (.desc .dstAddr, 0x30, s.desc.dstAddr),
        (.desc .dstCap, 0x34, s.desc.dstCap), (.irqEn, 0x38, if s.doneIe then 1 else 0),
        (.irqStat, 0x3C, if s.doneP then 1 else 0)] : List (Reg × Nat × Word)),
      busWrite (s.cfg.baseAddr + p.2.1) 4 v s = writeReg p.1 v s ∧
      busRead (s.cfg.baseAddr + p.2.1) 4 s = .next { s with rdata := readReg p.1 s } ∧
      readReg p.1 s = p.2.2) ∧
    (∀ d : DescReg, readReg (.desc d) s = s.desc.get d)

/-- R23 to R26: what STATUS reads as, bit by bit. -/
def Obligations.StatusReadsAsItsFields : Prop :=
  ∀ s : State,
    ((readReg .status s).extractLsb' 0 2).toNat =
      (match s.status.state with | .idle => 0 | .busy => 1 | .doneOk => 2 | .doneErr => 3) ∧
    (readReg .status s).extractLsb' 2 2 = 0 ∧
    ((readReg .status s).extractLsb' 4 4).toNat =
      (match s.status.err with
       | .none => 0 | .invalidKeyLength => 1 | .invalidPadding => 2 | .authenticationFailure => 3
       | .bufferTooSmall => 4 | .invalidIvLength => 5 | .illegalCommand => 6 | .memoryFault => 7) ∧
    (readReg .status s).getLsbD 8 = s.status.ign ∧
    (readReg .status s).extractLsb' 9 23 = 0

/-- R39: a descriptor register takes all 32 bits unless the block is busy; while it is, the write is ignored
and IGN set, and no step but a reset changes any of the ten registers. The last clause takes in a write that lands in
the very step that completes the operation, which R39 does not decide: that it finds the block busy is the model's
choice (log entry 5). -/
def Obligations.DescriptorRegistersFrozenWhileBusy : Prop :=
  (∀ (s : State) (d : DescReg) (v : Word), s.status.state ≠ .busy →
    ∃ t : State, writeReg (.desc d) v s = .next t ∧ t = { s with desc := t.desc } ∧
      t.desc.get d = v ∧ ∀ d' : DescReg, d' ≠ d → t.desc.get d' = s.desc.get d') ∧
  (∀ (s : State) (d : DescReg) (v : Word), s.status.state = .busy →
    writeReg (.desc d) v s = .next { s with status := { s.status with ign := true } }) ∧
  (∀ s t : State, s.status.state = .busy → step s = .next t →
    (∀ inp rest, s.inputs = inp :: rest → inp.after = 0 → inp.op ≠ .reset) → t.desc = s.desc)

/-- R40, R41, R42: IRQ_EN stores bit 0 in every state; DONE_P is set by every completion, cleared by a write of
1, by acceptance and by reset, and when a clear and a completion fall in the same step the completion wins;
the reserved bits read 0; the output is the and of the two. -/
def Obligations.InterruptRegisters : Prop :=
  (∀ (s : State) (v : Word),
    writeReg .irqEn v s = .next { s with doneIe := v.getLsbD 0 } ∧
    readReg .irqEn s = (if s.doneIe then 1 else 0) ∧
    (v.getLsbD 0 = true → writeReg .irqStat v s = .next { s with doneP := false }) ∧
    (v.getLsbD 0 = false → writeReg .irqStat v s = .next s) ∧
    readReg .irqStat s = (if s.doneP then 1 else 0) ∧
    (s.irq = true ↔ s.doneIe = true ∧ s.doneP = true)) ∧
  (∀ (s : State) (n : Word) (c : ErrorCode) (a : Addr),
    (completeOk n s).doneP = true ∧ (completeErr c a s).doneP = true ∧ (illegalCommand s).doneP = true ∧
    (assertReset s).doneP = false ∧ ∀ op aadz, (acceptCommand op aadz s).doneP = false) ∧
  (∀ (s t : State) (v : Word) (rest : List HostInput),
    s.inputs = { after := 0, together := true, op := wr s.cfg .irqStat v } :: rest →
    s.status.state = .busy → step s = .next t → t.status.state ≠ .busy → t.doneP = true)

/-- R43: a write to a read-only register is ignored, and a read of any register changes nothing but the data
the host receives (`rdata`, the model's own field, log entry 4). No register's value depends on an internal
register, the key among them (R16, R268). -/
def Obligations.ReadOnlyRegistersAndReads : Prop :=
  ∀ s : State,
    (∀ v : Word, writeReg .status v s = .next s ∧ writeReg .resultLen v s = .next s ∧
      writeReg .faultAddr v s = .next s) ∧
    (∀ r : Reg, ∃ d : Word, busRead (s.cfg.baseAddr + r.offset) 4 s = .next { s with rdata := d }) ∧
    (∀ (r : Reg) (e : Engine), readReg r { s with eng := e } = readReg r s)

/-- R21: an access that touches the window and is no naturally aligned 32-bit access is refused. R21 speaks of
accesses inside the window; that one across an end of it is refused too is the model's reading (log entry 7). -/
def Obligations.MalformedRegisterAccessRefused : Prop :=
  ∀ (s : State) (addr size : Nat) (v : Word), s.cfg.wf = true →
    s.cfg.baseAddr < addr + size → addr < s.cfg.baseAddr + 64 → ¬ (size = 4 ∧ addr % 4 = 0) →
    busWrite addr size v s = .refused .undefinedRegisterAccess ∧
    busRead addr size s = .refused .undefinedRegisterAccess

/-- R73, with R61's ranges: while an operation runs, a write of the host or of another bus master to its inputs or its
destination and a read of its destination are refused, and so are the accesses of the host's caches
(spec/93_implementation_defined.md part 2; log entry 6). Every other access runs: another master's, and the host's where
`DMA_COHERENT` holds, on system memory; the host's where it does not, on the host's caches: what the host writes reaches
memory when it is cleaned, and what it reads is memory's byte again once it has invalidated the cached one (R71, R75).
A master the platform does not have does nothing (`N_ENGINES`, R6, R267; log entry 15). That the caches work byte by
byte, that no access but this engine's asks `MemOk`, and that no other master's access meets the host's caches are the
model's choices (log entries 16, 23 and 24). -/
def Obligations.HostKeepsOffBusyRanges : Prop :=
  ∀ (s : State) (a : Addr) (b : Byte) (m : Master) (op : CipherOp) (mayWrite mayRead : Prop),
    (s.status.state = .busy → CipherOp.ofCode s.eng.op = some op) →
    (mayWrite ↔ (s.status.state = .busy →
      inInputRange op s.eng.aadz s.desc a = false ∧ inDestRange op s.desc a = false)) →
    (mayRead ↔ (s.status.state = .busy → inDestRange op s.desc a = false)) →
    (¬ mayWrite → hostAct (.memWrite a b) s = .refused .busyRangeAccess ∧
      (m.present s.cfg = true → hostAct (.masterWrite m a b) s = .refused .busyRangeAccess)) ∧
    (¬ mayRead → hostAct (.memRead a) s = .refused .busyRangeAccess ∧
      (m.present s.cfg = true → hostAct (.masterRead m a) s = .refused .busyRangeAccess)) ∧
    (m.present s.cfg = true →
      (mayWrite → hostAct (.masterWrite m a b) s = .next { s with mem := s.mem.setByte a b }) ∧
      (mayRead → hostAct (.masterRead m a) s = .next s)) ∧
    (m.present s.cfg = false →
      hostAct (.masterWrite m a b) s = .next s ∧ hostAct (.masterRead m a) s = .next s) ∧
    (s.cfg.dmaCoherent = true →
      (mayWrite → hostAct (.memWrite a b) s = .next { s with mem := s.mem.setByte a b }) ∧
      (mayRead → hostAct (.memRead a) s = .next { s with rdata := (s.mem.byteAt a).setWidth 32 }) ∧
      hostAct (.cacheFetch a) s = .next s ∧ hostAct (.cacheClean a) s = .next s ∧
      hostAct (.cacheInvalidate a) s = .next s) ∧
    (s.cfg.dmaCoherent = false →
      (mayWrite → ∃ t : State, hostAct (.memWrite a b) s = .next t ∧ t = { s with hostCache := t.hostCache } ∧
        t.hostCache.held a = some { addr := a, value := b, dirty := true } ∧
        (∀ a', a' ≠ a → t.hostCache.held a' = s.hostCache.held a') ∧
        ∃ u : State, hostAct (.cacheClean a) t = .next u ∧
          u = { t with mem := t.mem.setByte a b, hostCache := u.hostCache } ∧
          u.hostCache.held a = some { addr := a, value := b, dirty := false }) ∧
      (mayRead →
        (∀ x, s.hostCache.held a = some x →
          hostAct (.memRead a) s = .next { s with rdata := x.value.setWidth 32 }) ∧
        (s.hostCache.held a = none → ∃ t : State, hostAct (.memRead a) s = .next t ∧
          t = { s with hostCache := t.hostCache, rdata := (s.mem.byteAt a).setWidth 32 } ∧
          t.hostCache.held a = some { addr := a, value := s.mem.byteAt a, dirty := false } ∧
          ∀ a', a' ≠ a → t.hostCache.held a' = s.hostCache.held a')) ∧
      (∀ x, s.hostCache.held a = some x → hostAct (.cacheFetch a) s = .next s) ∧
      (s.hostCache.held a = none →
        (¬ mayRead → hostAct (.cacheFetch a) s = .refused .busyRangeAccess) ∧
        (mayRead → ∃ t : State, hostAct (.cacheFetch a) s = .next t ∧ t = { s with hostCache := t.hostCache } ∧
          t.hostCache.held a = some { addr := a, value := s.mem.byteAt a, dirty := false } ∧
          ∀ a', a' ≠ a → t.hostCache.held a' = s.hostCache.held a')) ∧
      (∀ x, s.hostCache.held a = some x → x.dirty = true →
        (¬ mayWrite → hostAct (.cacheClean a) s = .refused .busyRangeAccess) ∧
        (mayWrite → ∃ t : State, hostAct (.cacheClean a) s = .next t ∧
          t = { s with mem := s.mem.setByte a x.value, hostCache := t.hostCache } ∧
          t.hostCache.held a = some { addr := a, value := x.value, dirty := false } ∧
          ∀ a', a' ≠ a → t.hostCache.held a' = s.hostCache.held a')) ∧
      (∃ t : State, hostAct (.cacheInvalidate a) s = .next t ∧ t = { s with hostCache := t.hostCache } ∧
        t.hostCache.held a = none ∧ ∀ a', a' ≠ a → t.hostCache.held a' = s.hostCache.held a') ∧
      ((∀ x, s.hostCache.held a = some x → x.dirty = false) → hostAct (.cacheClean a) s = .next s))

/-! ## Checks and loading (spec/44_stream_manager.md R214 to R218) -/

/-- R214: CHECK, in its fixed order. -/
def Obligations.ChecksInTheirOrder : Prop :=
  ∀ (s : State) (op : CipherOp), s.eng.ph = .check → CipherOp.ofCode s.eng.op = some op →
    engineStep s = .next (
      if s.desc.keyLen.toNat ≠ 16 then completeErr .invalidKeyLength 0 s
      else if s.desc.ivLen.toNat ≠ (if op = .encGcm128 ∨ op = .decGcm128 then 12 else 16) then
        completeErr .invalidIvLength 0 s
      else if op = .decCbc128 ∧ (s.desc.srcLen.toNat = 0 ∨ s.desc.srcLen.toNat % 16 ≠ 0) then
        completeErr .invalidPadding 0 s
      else if op = .decGcm128 ∧ s.desc.srcLen.toNat < 16 then completeErr .authenticationFailure 0 s
      else if s.desc.dstCap.toNat < required op s.desc.srcLen.toNat then completeErr .bufferTooSmall 0 s
      else { s with eng := { s.eng with ph := .loadKey } })

/-- R215: the required destination length of each operation, computed without a width. -/
def Obligations.RequiredDestinationLength : Prop :=
  ∀ n : Nat,
    required .encCbc128 n = n + padLen n ∧ required .encCbc128 n = 16 * (n / 16 + 1) ∧
    (16 ≤ n → required .decCbc128 n + 1 = n) ∧
    required .encCtr128 n = n ∧ required .decCtr128 n = n ∧
    required .encGcm128 n = n + 16 ∧ (16 ≤ n → required .decGcm128 n + 16 = n)

/-- R216: LOAD_KEY reads the 16 key bytes in ascending order into `S.key`, or ends with MemoryFault at the
first one that fails. -/
def Obligations.LoadKeyReadsTheKey : Prop :=
  ∀ (s : State) (op : CipherOp), s.eng.ph = .loadKey → CipherOp.ofCode s.eng.op = some op →
    ((∀ i < 16, memOk s.cfg (s.desc.keyAddr + BitVec.ofNat 32 i) .read = true) →
      ∃ t : State, engineStep s = .next t ∧
        t = { s with eng := { s.eng with key := t.eng.key, ph := .loadIv } } ∧
        ∀ i < 16, blockByte t.eng.key i = s.mem.byteAt (s.desc.keyAddr + BitVec.ofNat 32 i)) ∧
    (∀ i < 16, (∀ j < i, memOk s.cfg (s.desc.keyAddr + BitVec.ofNat 32 j) .read = true) →
      memOk s.cfg (s.desc.keyAddr + BitVec.ofNat 32 i) .read = false →
      engineStep s = .next (completeErr .memoryFault (s.desc.keyAddr + BitVec.ofNat 32 i) s))

/-- R217: LOAD_IV does the same for the 16 or 12 IV bytes, leaving the other bytes of `S.iv`. -/
def Obligations.LoadIvReadsTheIv : Prop :=
  ∀ (s : State) (op : CipherOp), s.eng.ph = .loadIv → CipherOp.ofCode s.eng.op = some op →
    ∀ n : Nat, n = (if op = .encGcm128 ∨ op = .decGcm128 then 12 else 16) →
      ((∀ i < n, memOk s.cfg (s.desc.ivAddr + BitVec.ofNat 32 i) .read = true) →
        ∃ t : State, engineStep s = .next t ∧
          t = { s with eng := { s.eng with iv := t.eng.iv, ph := .init } } ∧
          (∀ i < n, blockByte t.eng.iv i = s.mem.byteAt (s.desc.ivAddr + BitVec.ofNat 32 i)) ∧
          (∀ i < 16, n ≤ i → blockByte t.eng.iv i = blockByte s.eng.iv i)) ∧
      (∀ i < n, (∀ j < i, memOk s.cfg (s.desc.ivAddr + BitVec.ofNat 32 j) .read = true) →
        memOk s.cfg (s.desc.ivAddr + BitVec.ofNat 32 i) .read = false →
        engineStep s = .next (completeErr .memoryFault (s.desc.ivAddr + BitVec.ofNat 32 i) s))

/-- R218 and R185: INIT of the three modes. -/
def Obligations.InitSetsUpTheMode : Prop :=
  ∀ (s : State) (op : CipherOp), s.eng.ph = .init → CipherOp.ofCode s.eng.op = some op →
    ((op = .encCbc128 ∨ op = .decCbc128) →
      engineStep s = .next { s with eng := { s.eng with
        cv := s.eng.iv, tLen := s.desc.srcLen, srcPos := 0, tDone := 0, dstPos := 0, tailDone := false
        ph := .data } }) ∧
    ((op = .encCtr128 ∨ op = .decCtr128) →
      engineStep s = .next { s with eng := { s.eng with
        cb := s.eng.iv, tLen := s.desc.srcLen, srcPos := 0, tDone := 0, dstPos := 0, tailDone := false
        ph := .data } }) ∧
    ((op = .encGcm128 ∨ op = .decGcm128) →
      ∀ j0 : Block, (∀ k < 12, blockByte j0 k = blockByte s.eng.iv k) → j0.setWidth 32 = 1#32 →
      engineStep s = .next { s with eng := { s.eng with
        h := blockE s.eng.key 0, ej0 := blockE s.eng.key j0, cb := incBlock 32 j0, y := 0, aadPos := 0
        aadBytes := if s.eng.aadz then 16 else s.desc.aadLen
        tLen := if op = .decGcm128 then s.desc.srcLen - 16 else s.desc.srcLen
        srcPos := 0, tDone := 0, dstPos := 0, tailDone := false, ph := .aad } })

/-- R186: one step of the AAD phase. -/
def Obligations.AadAbsorbedBlockByBlock : Prop :=
  ∀ (s : State) (op : CipherOp), s.eng.ph = .aad → CipherOp.ofCode s.eng.op = some op →
    (op = .encGcm128 ∨ op = .decGcm128) →
    (s.eng.aadz = true → engineStep s = .next { s with eng := { s.eng with
      y := gcmMul (s.eng.y ^^^ 0) s.eng.h, aadPos := 16, ph := .data } }) ∧
    (s.eng.aadz = false → s.eng.aadPos.toNat < s.desc.aadLen.toNat →
      ∀ k : Nat, k = min 16 (s.desc.aadLen.toNat - s.eng.aadPos.toNat) →
        (readsOk s.cfg (s.desc.aadAddr + s.eng.aadPos) k →
          engineStep s = .next { s with eng := { s.eng with
            y := gcmMul (s.eng.y ^^^ bytesBlock
              (s.mem.bytesAt (s.desc.aadAddr + s.eng.aadPos) k ++ List.replicate (16 - k) 0)) s.eng.h
            aadPos := s.eng.aadPos + BitVec.ofNat 32 k } }) ∧
        (∀ i < k, readsOk s.cfg (s.desc.aadAddr + s.eng.aadPos) i →
          memOk s.cfg (s.desc.aadAddr + s.eng.aadPos + BitVec.ofNat 32 i) .read = false →
          engineStep s = .next
            (completeErr .memoryFault (s.desc.aadAddr + s.eng.aadPos + BitVec.ofNat 32 i) s))) ∧
    (s.eng.aadz = false → ¬ s.eng.aadPos.toNat < s.desc.aadLen.toNat →
      engineStep s = .next { s with eng := { s.eng with ph := .data } })

/-! ## The units (spec/41_cbc128.md, 42_ctr128.md, 43_gcm128.md) -/

/-- R144, R145: the units of ENC_CBC128, when the staging output has room for a block. -/
def Obligations.CbcEncryptionUnits : Prop :=
  ∀ (s : State) (x c : Block), s.eng.ph = .data → CipherOp.ofCode s.eng.op = some .encCbc128 →
    16 ≤ s.cfg.stageBytes - s.eng.outq.length → c = blockE s.eng.key (x ^^^ s.eng.cv) →
    (16 ≤ s.eng.inq.length → x = bytesBlock (s.eng.inq.take 16) →
      engineStep s = .next { s with eng := { s.eng with
        inq := s.eng.inq.drop 16, cv := c, outq := s.eng.outq ++ blockBytes c
        tDone := s.eng.tDone + 16 } }) ∧
    (s.eng.srcPos = s.eng.tLen → s.eng.inq.length < 16 → s.eng.tailDone = false →
      x = bytesBlock (s.eng.inq ++
        List.replicate (16 - s.eng.inq.length) (BitVec.ofNat 8 (16 - s.eng.inq.length))) →
      engineStep s = .next { s with eng := { s.eng with
        inq := [], cv := c, outq := s.eng.outq ++ blockBytes c
        tDone := s.eng.tDone + BitVec.ofNat 32 s.eng.inq.length, tailDone := true } })

/-- R147, R148 (and R228 for the late error): the units of DEC_CBC128, when the staging output has room. That the last
unit removes its 16 bytes from `S.in` and leaves `S.cv` is the model's reading, not R148's words (log entry 11). -/
def Obligations.CbcDecryptionUnits : Prop :=
  ∀ (s : State) (x p : Block), s.eng.ph = .data → CipherOp.ofCode s.eng.op = some .decCbc128 →
    16 ≤ s.cfg.stageBytes - s.eng.outq.length → 16 ≤ s.eng.inq.length →
    x = bytesBlock (s.eng.inq.take 16) → p = blockD s.eng.key x ^^^ s.eng.cv →
    (s.eng.tDone.toNat + 16 < s.eng.tLen.toNat →
      engineStep s = .next { s with eng := { s.eng with
        inq := s.eng.inq.drop 16, cv := x, outq := s.eng.outq ++ blockBytes p
        tDone := s.eng.tDone + 16 } }) ∧
    (s.eng.tDone.toNat + 16 = s.eng.tLen.toNat → ∀ v : Nat, v = (blockByte p 15).toNat →
      ((1 ≤ v ∧ v ≤ 16 ∧ ∀ i < 16, 16 - v ≤ i → (blockByte p i).toNat = v) →
        engineStep s = .next { s with eng := { s.eng with
          inq := s.eng.inq.drop 16, outq := s.eng.outq ++ (blockBytes p).take (16 - v)
          tDone := s.eng.tLen, tailDone := true } }) ∧
      (¬ (1 ≤ v ∧ v ≤ 16 ∧ ∀ i < 16, 16 - v ≤ i → (blockByte p i).toNat = v) →
        engineStep s = .next { s with eng := { s.eng with
          inq := [], outq := [], tDone := s.eng.tLen, tailDone := true, perr := .invalidPadding
          zeroPos := 0, ph := .zero } }))

/-- R164: the unit of both CTR commands, when the staging output has room. -/
def Obligations.CtrUnit : Prop :=
  ∀ (s : State) (op : CipherOp) (x : List Byte), s.eng.ph = .data →
    CipherOp.ofCode s.eng.op = some op → (op = .encCtr128 ∨ op = .decCtr128) →
    16 ≤ s.cfg.stageBytes - s.eng.outq.length →
    (16 ≤ s.eng.inq.length ∧ x = s.eng.inq.take 16 ∨
      s.eng.srcPos = s.eng.tLen ∧ 0 < s.eng.inq.length ∧ s.eng.inq.length < 16 ∧ x = s.eng.inq) →
    engineStep s = .next { s with eng := { s.eng with
      inq := s.eng.inq.drop x.length
      outq := s.eng.outq ++ xorBytes x ((blockBytes (blockE s.eng.key s.eng.cb)).take x.length)
      cb := incBlock s.cfg.ctrWidth s.eng.cb
      tDone := s.eng.tDone + BitVec.ofNat 32 x.length } }

/-- R187, R188: the units of the two GCM commands, when the staging output has room; both hash the
ciphertext. -/
def Obligations.GcmUnits : Prop :=
  ∀ (s : State) (x y : List Byte), s.eng.ph = .data → 16 ≤ s.cfg.stageBytes - s.eng.outq.length →
    (16 ≤ s.eng.inq.length ∧ x = s.eng.inq.take 16 ∨
      s.eng.srcPos = s.eng.tLen ∧ 0 < s.eng.inq.length ∧ s.eng.inq.length < 16 ∧ x = s.eng.inq) →
    y = xorBytes x ((blockBytes (blockE s.eng.key s.eng.cb)).take x.length) →
    (CipherOp.ofCode s.eng.op = some .encGcm128 →
      engineStep s = .next { s with eng := { s.eng with
        inq := s.eng.inq.drop x.length
        y := gcmMul (s.eng.y ^^^ bytesBlock (y ++ List.replicate (16 - y.length) 0)) s.eng.h
        cb := incBlock 32 s.eng.cb, outq := s.eng.outq ++ y
        tDone := s.eng.tDone + BitVec.ofNat 32 x.length } }) ∧
    (CipherOp.ofCode s.eng.op = some .decGcm128 →
      engineStep s = .next { s with eng := { s.eng with
        inq := s.eng.inq.drop x.length
        y := gcmMul (s.eng.y ^^^ bytesBlock (x ++ List.replicate (16 - x.length) 0)) s.eng.h
        cb := incBlock 32 s.eng.cb, outq := s.eng.outq ++ y
        tDone := s.eng.tDone + BitVec.ofNat 32 x.length } })

/-! ## The staging loop (spec/44_stream_manager.md R220 to R226) -/

/-- R220, R222: which step phase DATA takes, on the definitions of R220. -/
def Obligations.StepSelectionInData : Prop :=
  ∀ (s : State) (op : CipherOp) (r free : Nat) (exhausted ready : Prop), s.eng.ph = .data →
    CipherOp.ofCode s.eng.op = some op → r = s.eng.inq.length →
    free = s.cfg.stageBytes - s.eng.outq.length → (exhausted ↔ s.eng.srcPos = s.eng.tLen) →
    (ready ↔
      (op = .encCbc128 ∧ (16 ≤ r ∨ exhausted ∧ s.eng.tailDone = false)) ∨
      (op = .decCbc128 ∧ 16 ≤ r) ∨
      ((op = .encCtr128 ∨ op = .decCtr128 ∨ op = .encGcm128 ∨ op = .decGcm128) ∧
        (16 ≤ r ∨ exhausted ∧ 0 < r ∧ r < 16))) →
    (ready ∧ 16 ≤ free → engineStep s = xformStep op s) ∧
    (ready ∧ free < 16 → engineStep s = .next (drainStep s)) ∧
    (¬ ready ∧ ¬ exhausted → engineStep s = .next (feedStep s)) ∧
    (¬ ready ∧ exhausted ∧ 0 < s.eng.outq.length → engineStep s = .next (drainStep s)) ∧
    (¬ ready ∧ exhausted ∧ s.eng.outq.length = 0 → engineStep s = .next (endOfData op s))

/-- R225: FEED reads `k` source bytes in ascending order, or ends with MemoryFault at the first one that
fails; where FEED is selected in a legal state, `k` is at least 1. -/
def Obligations.FeedReadsTheSource : Prop :=
  ∀ (s : State) (k : Nat), k = min (s.cfg.stageBytes - s.eng.inq.length) (s.eng.tLen.toNat - s.eng.srcPos.toNat) →
    (readsOk s.cfg (s.desc.srcAddr + s.eng.srcPos) k →
      feedStep s = { s with eng := { s.eng with
        inq := s.eng.inq ++ s.mem.bytesAt (s.desc.srcAddr + s.eng.srcPos) k
        srcPos := s.eng.srcPos + BitVec.ofNat 32 k } }) ∧
    (∀ i < k, readsOk s.cfg (s.desc.srcAddr + s.eng.srcPos) i →
      memOk s.cfg (s.desc.srcAddr + s.eng.srcPos + BitVec.ofNat 32 i) .read = false →
      feedStep s = completeErr .memoryFault (s.desc.srcAddr + s.eng.srcPos + BitVec.ofNat 32 i) s) ∧
    (∀ op, Inv s → s.eng.ph = .data → CipherOp.ofCode s.eng.op = some op → underflow op s.eng = true → 1 ≤ k)

/-- R224: DRAIN writes the whole staging output, oldest byte first, or ends with MemoryFault at the first write
that fails, the bytes before it written and no other. -/
def Obligations.DrainWritesTheOutput : Prop :=
  ∀ s : State,
    (writesOk s.cfg (s.desc.dstAddr + s.eng.dstPos) s.eng.outq.length →
      drainStep s = { s with
        mem := s.mem.setBytes (s.desc.dstAddr + s.eng.dstPos) s.eng.outq
        eng := { s.eng with
          outq := [], dstPos := s.eng.dstPos + BitVec.ofNat 32 s.eng.outq.length } }) ∧
    (∀ i < s.eng.outq.length, writesOk s.cfg (s.desc.dstAddr + s.eng.dstPos) i →
      memOk s.cfg (s.desc.dstAddr + s.eng.dstPos + BitVec.ofNat 32 i) .write = false →
      drainStep s = completeErr .memoryFault (s.desc.dstAddr + s.eng.dstPos + BitVec.ofNat 32 i)
        { s with mem := s.mem.setBytes (s.desc.dstAddr + s.eng.dstPos) (s.eng.outq.take i) })

/-- R226: at the end of data the GCM commands go on to TAG and every other command completes with the bytes
written as its result length. -/
def Obligations.EndOfData : Prop :=
  ∀ (s : State) (op : CipherOp), s.eng.ph = .data → CipherOp.ofCode s.eng.op = some op →
    unitReady op s.eng = false → s.eng.srcPos = s.eng.tLen → s.eng.outq = [] →
    engineStep s = .next (
      if op = .encGcm128 ∨ op = .decGcm128 then { s with eng := { s.eng with ph := .tag } }
      else completeOk s.eng.dstPos s)

/-! ## The late phases -/

/-- R189, R190: the TAG steps, with the length block written out; a failed access ends them as R64 says. That the tag
is written byte by byte, so that the bytes before a failed one stay written, is the model's reading of R10, R64 and
R67 (log entry 10). -/
def Obligations.TagSteps : Prop :=
  ∀ (s : State) (y t : Block), s.eng.ph = .tag →
    y = gcmMul (s.eng.y ^^^
      (BitVec.ofNat 64 (8 * s.eng.aadBytes.toNat) ++ BitVec.ofNat 64 (8 * s.eng.tLen.toNat))) s.eng.h →
    t = s.eng.ej0 ^^^ y →
    (CipherOp.ofCode s.eng.op = some .encGcm128 →
      (writesOk s.cfg (s.desc.dstAddr + s.eng.dstPos) 16 →
        engineStep s = .next (completeOk (s.eng.dstPos + 16)
          { s with mem := s.mem.setBytes (s.desc.dstAddr + s.eng.dstPos) (blockBytes t) })) ∧
      (∀ i < 16, writesOk s.cfg (s.desc.dstAddr + s.eng.dstPos) i →
        memOk s.cfg (s.desc.dstAddr + s.eng.dstPos + BitVec.ofNat 32 i) .write = false →
        engineStep s = .next (completeErr .memoryFault (s.desc.dstAddr + s.eng.dstPos + BitVec.ofNat 32 i)
          { s with mem := s.mem.setBytes (s.desc.dstAddr + s.eng.dstPos) ((blockBytes t).take i) }))) ∧
    (CipherOp.ofCode s.eng.op = some .decGcm128 →
      (readsOk s.cfg (s.desc.srcAddr + s.eng.tLen) 16 →
        (s.mem.bytesAt (s.desc.srcAddr + s.eng.tLen) 16 = blockBytes t →
          engineStep s = .next (completeOk s.eng.dstPos s)) ∧
        (s.mem.bytesAt (s.desc.srcAddr + s.eng.tLen) 16 ≠ blockBytes t →
          engineStep s = .next { s with eng := { s.eng with
            tag := bytesBlock (s.mem.bytesAt (s.desc.srcAddr + s.eng.tLen) 16), y := y
            perr := .authenticationFailure, outq := [], inq := [], zeroPos := 0, ph := .zero } })) ∧
      (∀ i < 16, readsOk s.cfg (s.desc.srcAddr + s.eng.tLen) i →
        memOk s.cfg (s.desc.srcAddr + s.eng.tLen + BitVec.ofNat 32 i) .read = false →
        engineStep s = .next
          (completeErr .memoryFault (s.desc.srcAddr + s.eng.tLen + BitVec.ofNat 32 i) s)))

/-- R229: in a legal state ZERO writes a zero over every destination byte the operation wrote, no write of it
fails, and the pending error is reported. -/
def Obligations.ZeroFillCannotFail : Prop :=
  ∀ s : State, Inv s → s.eng.ph = .zero →
    engineStep s = .next (completeErr s.eng.perr 0
      { s with mem := s.mem.setBytes s.desc.dstAddr (List.replicate s.eng.dstPos.toNat 0) }) ∧
    (s.eng.perr = .invalidPadding ∨ s.eng.perr = .authenticationFailure)

/-- R236, R237, R238: the registers a completion leaves, with an error and without, every internal register
zero. -/
def Obligations.CompletionRegisters : Prop :=
  ∀ (s : State) (n : Word) (code : ErrorCode) (addr : Addr) (zero : Engine),
    zero = { ph := .none, op := 0, aadz := false, key := 0, iv := 0, cv := 0, cb := 0, h := 0, ej0 := 0, y := 0
             tag := 0, inq := [], outq := [], tLen := 0, srcPos := 0, tDone := 0, dstPos := 0, aadPos := 0
             aadBytes := 0, zeroPos := 0, tailDone := false, perr := .none } →
    completeOk n s = { s with
      resultLen := n, status := { state := .doneOk, err := .none, ign := s.status.ign }, doneP := true
      eng := zero } ∧
    completeErr code addr s = { s with
      resultLen := 0, status := { state := .doneErr, err := code, ign := s.status.ign }
      faultAddr := if code = .memoryFault then addr else 0, doneP := true, eng := zero }

/-! ## Memory (spec/20_memory.md) -/

/-- R60, R62, R66: storing a byte string at an address changes exactly its bytes, across the wrap, reading
gives them back, and the canonical form is kept (the form is the model's own, log entry 1). -/
def Obligations.MemoryStoresAndLoads : Prop :=
  ∀ (m : Memory) (a : Addr) (bs : List Byte), Memory.wf m → bs.length ≤ 2 ^ 32 →
    Memory.wf (m.setBytes a bs) ∧
    (m.setBytes a bs).bytesAt a bs.length = bs ∧
    (∀ (i : Nat) (h : i < bs.length), (m.setBytes a bs).byteAt (a + BitVec.ofNat 32 i) = bs[i]) ∧
    (∀ a' : Addr, inRange a bs.length a' = false → (m.setBytes a bs).byteAt a' = m.byteAt a') ∧
    (∀ m' : Memory, Memory.wf m' → (∀ a', m'.byteAt a' = m.byteAt a') → m' = m)

/-! ## The whole machine -/

/-- The invariant holds right after reset; the parameters State.reset carries are the model's choice (log
entry 2). -/
def Obligations.ResetIsLegal : Prop := Inv State.reset

/-- Every step keeps the invariant: the status registers tell one story (R24, R27, R28), STATE = BUSY exactly
while a phase is active (R56), nothing survives an operation (R57, R238), the data phase's equations
(R227), every byte already written may be written again (R64), memory stays canonical. -/
def Obligations.StepKeepsTheInvariant : Prop :=
  ∀ s t : State, Inv s → step s = .next t → Inv t

/-- From a legal state no step faults, and an engine step always has a next state (R240). -/
def Obligations.LegalStatesNeverFault : Prop :=
  ∀ s : State, Inv s →
    (∀ f : Fault, step s ≠ .fault f) ∧ ∃ t : State, engineStep s = .next t

/-- The frame of an engine step: no parameter, descriptor register, DONE_IE, IGN or field of the host's, its caches
included, changes, and no byte of memory outside the running operation's destination (R25, R39, R40, R61); with no
operation running nothing at all changes (R15, R241, R269). -/
def Obligations.EngineStepFrame : Prop :=
  (∀ s : State, s.eng.ph = .none → engineStep s = .next s) ∧
  (∀ s t : State, engineStep s = .next t →
    t.cfg = s.cfg ∧ t.desc = s.desc ∧ t.doneIe = s.doneIe ∧ t.status.ign = s.status.ign ∧
    t.inputs = s.inputs ∧ t.rdata = s.rdata ∧ t.hostCache = s.hostCache ∧
    (Inv s → ∀ (op : CipherOp) (a : Addr), CipherOp.ofCode s.eng.op = some op →
      inDestRange op s.desc a = false → t.mem.byteAt a = s.mem.byteAt a))

/-- R255: the codes an operation can end with, by command; NOP ends with none, an illegal word with 6. -/
def Obligations.ErrorCodesByCommand : Prop :=
  (∀ (s t : State) (op : CipherOp), Inv s → s.eng.ph ≠ .none → CipherOp.ofCode s.eng.op = some op →
    engineStep s = .next t → t.status.state = .doneErr →
    (op = .encCbc128 ∨ op = .encCtr128 ∨ op = .decCtr128 ∨ op = .encGcm128 →
      t.status.err.code ∈ [1, 4, 5, 7]) ∧
    (op = .decCbc128 → t.status.err.code ∈ [1, 2, 4, 5, 7]) ∧
    (op = .decGcm128 → t.status.err.code ∈ [1, 3, 4, 5, 7])) ∧
  (∀ (w : Word) (s t : State), (∀ i, decode w ≠ .ok i) → s.status.state ≠ .busy →
    writeCmd w s = .next t → t.status.state = .doneErr ∧ t.status.err.code = 6) ∧
  (∀ s t : State, exec .nop s = .next t → t.status = s.status)

/-- R41, R210, R238, R260, R293: BUSY is left only by a completion, which sets DONE_P, reports DONE_OK or
DONE_ERR and clears every internal register, or by a reset, which goes to IDLE. -/
def Obligations.BusyEndsByCompletionOrReset : Prop :=
  ∀ s t : State, s.status.state = .busy → step s = .next t → t.status.state ≠ .busy →
    ((t.status.state = .doneOk ∨ t.status.state = .doneErr) ∧ t.doneP = true ∧ t.eng = Engine.cleared) ∨
    (t.status.state = .idle ∧ t.doneP = false ∧ t.eng = Engine.cleared ∧
      ∃ inp rest, s.inputs = inp :: rest ∧ inp.after = 0 ∧ inp.op = .reset)

/-- R28, R64: a MemoryFault names an address inside one of the operation's ranges whose access the platform
fails, and every engine step that meets one ends the operation. -/
def Obligations.MemoryFaultNamesAFailedAccess : Prop :=
  ∀ (s t : State) (op : CipherOp), Inv s → s.eng.ph ≠ .none → CipherOp.ofCode s.eng.op = some op →
    engineStep s = .next t → t.status.err = .memoryFault →
    t.status.state = .doneErr ∧ t.resultLen = 0 ∧
    ((inInputRange op s.eng.aadz s.desc t.faultAddr = true ∧ memOk s.cfg t.faultAddr .read = false) ∨
     (inDestRange op s.desc t.faultAddr = true ∧ memOk s.cfg t.faultAddr .write = false))

/-- R239: from its acceptance an operation completes, with a result or with an error code, within the bound,
whatever the platform's predicate and the staging size. -/
def Obligations.OperationEndsWithinItsBound : Prop :=
  ∀ (s : State) (i : Instr) (op : CipherOp), Inv s → s.status.state ≠ .busy → s.inputs = [] → i ≠ .nop →
    (encode i).extractLsb' 0 4 = op.code →
    ∃ t : State, exec i s = .next t ∧
      ∃ n ≤ 8 + (s.desc.aadLen.toNat + 15) / 16 + 2 * s.desc.srcLen.toNat + 1 +
          required op s.desc.srcLen.toNat + 16,
        ∃ u : State, run n t = .next u ∧ (u.status.state = .doneOk ∨ u.status.state = .doneErr)

/-- R150 (with R143, R146, R231): a CBC operation that is ready ends with exactly the reference function's
bytes at the destination and nothing else in memory changed, whatever `STAGE_BYTES` is; with bad padding,
with InvalidPadding and zero in the destination bytes it wrote, which are the whole buffers drained before
the last unit. -/
def Obligations.CbcOperationsGiveTheReference : Prop :=
  (∀ s : State, Ready .encCbc128 false s →
    ∃ t : State, exec .encCbc128 s = .next t ∧ ∃ n ≤ stepBound .encCbc128 s.desc,
      run n t = .next (finishedOk (cbcEnc (keyOf s) (ivOf s) (srcOf s)) s)) ∧
  (∀ s : State, Ready .decCbc128 false s →
    ∃ t : State, exec .decCbc128 s = .next t ∧ ∃ n ≤ stepBound .decCbc128 s.desc,
      run n t = .next (match cbcDec (keyOf s) (ivOf s) (srcOf s) with
        | some p => finishedOk p s
        | none => finishedLate .invalidPadding
            (s.cfg.stageBytes * ((s.desc.srcLen.toNat - 16) / s.cfg.stageBytes)) s))

/-- R166 (with R162, R163, R231): a CTR operation that is ready ends with exactly `CTR(K, IV, input)` at the
destination and nothing else in memory changed, whatever `STAGE_BYTES` is. -/
def Obligations.CtrOperationsGiveTheReference : Prop :=
  (∀ s : State, Ready .encCtr128 false s →
    ∃ t : State, exec .encCtr128 s = .next t ∧ ∃ n ≤ stepBound .encCtr128 s.desc,
      run n t = .next (finishedOk (ctr s.cfg.ctrWidth (keyOf s) (ivOf s) (srcOf s)) s)) ∧
  (∀ s : State, Ready .decCtr128 false s →
    ∃ t : State, exec .decCtr128 s = .next t ∧ ∃ n ≤ stepBound .decCtr128 s.desc,
      run n t = .next (finishedOk (ctr s.cfg.ctrWidth (keyOf s) (ivOf s) (srcOf s)) s))

/-- R192 and R191 (with R183, R184, R231): a GCM operation that is ready ends with exactly the bytes of
`GCM_ENC` or `GCM_DEC` at the destination and nothing else in memory changed, whatever `STAGE_BYTES` is; a
decryption whose tag does not verify ends with AuthenticationFailure and zero in every destination byte. -/
def Obligations.GcmOperationsGiveTheReference : Prop :=
  (∀ (aadz : Bool) (s : State), Ready .encGcm128 aadz s →
    ∃ t : State, exec (.encGcm128 aadz) s = .next t ∧ ∃ n ≤ stepBound .encGcm128 s.desc,
      run n t = .next (finishedOk (gcmEnc (keyOf s) (gcmNonceOf s) (aadOf aadz s) (srcOf s)) s) ∧
      (gcmEnc (keyOf s) (gcmNonceOf s) (aadOf aadz s) (srcOf s)).length = s.desc.srcLen.toNat + 16) ∧
  (∀ (aadz : Bool) (s : State), Ready .decGcm128 aadz s →
    ∃ t : State, exec (.decGcm128 aadz) s = .next t ∧ ∃ n ≤ stepBound .decGcm128 s.desc,
      run n t = .next (match gcmDec (keyOf s) (gcmNonceOf s) (aadOf aadz s) (srcOf s) with
        | some p => finishedOk p s
        | none => finishedLate .authenticationFailure (s.desc.srcLen.toNat - 16) s) ∧
      ∀ p, gcmDec (keyOf s) (gcmNonceOf s) (aadOf aadz s) (srcOf s) = some p →
        p.length = s.desc.srcLen.toNat - 16)

/-- R68: a destination disjoint from the source, or starting at or below it without wrap, is an overlap the
reference results hold under. -/
def Obligations.AllowedOverlaps : Prop :=
  ∀ (op : CipherOp) (d : Desc),
    ((∀ a : Addr, inRange d.srcAddr d.srcLen.toNat a = true → inDestRange op d a = false) →
      overlapAllowed op d) ∧
    (d.dstAddr.toNat ≤ d.srcAddr.toNat → d.srcAddr.toNat + d.srcLen.toNat ≤ 2 ^ 32 →
      d.dstAddr.toNat + required op d.srcLen.toNat ≤ 2 ^ 32 → overlapAllowed op d)

/-- Accesses of other agents that keep off the operation's ranges leave the operation alone: the same engine
step before such a write as after it, to the byte (R73, R77); and what the host's caches hold never matters to an
engine step, in any state, whether they are coherent or not (R75: the block has no cache). -/
def Obligations.ForeignWritesDoNotMatter : Prop :=
  (∀ (s t : State) (op : CipherOp) (a : Addr) (b : Byte), Inv s → s.eng.ph ≠ .none →
    CipherOp.ofCode s.eng.op = some op → inInputRange op s.eng.aadz s.desc a = false →
    inDestRange op s.desc a = false → engineStep s = .next t →
    engineStep { s with mem := s.mem.setByte a b } = .next { t with mem := t.mem.setByte a b }) ∧
  (∀ (s t : State) (c : HostCache) (coherent : Bool), engineStep s = .next t →
    engineStep { s with hostCache := c, cfg := { s.cfg with dmaCoherent := coherent } } =
      .next { t with hostCache := c, cfg := { t.cfg with dmaCoherent := coherent } })

/-- R88 under R240: `wait` ends, and its result is a STATUS value that is not BUSY (how often it polls is log entry
18's). -/
def Obligations.WaitEnds : Prop :=
  ∀ s : State, Inv s → s.inputs = [atOnce .wait] →
    ∃ (n : Nat) (t : State), run n s = .next t ∧ t.inputs = [] ∧ t.status.state ≠ .busy ∧
      t.rdata = t.status.word

/-- The list of denied ranges can be any platform predicate on addresses and kinds (R64, log entry 2). -/
def Obligations.EveryPlatformIsADeniedList : Prop :=
  ∀ (ok : Addr → AccessKind → Bool) (c : Config), ∃ l : List DeniedRange,
    ∀ (a : Addr) (k : AccessKind), memOk { c with denied := l } a k = ok a k

/-! ## The modes (spec/41_cbc128.md, 42_ctr128.md, 43_gcm128.md) -/

/-- R142. -/
def Obligations.CbcRoundTrip : Prop :=
  ∀ (k iv : Block) (p : List Byte), cbcDec k iv (cbcEnc k iv p) = some p

/-- R161. -/
def Obligations.CtrRoundTrip : Prop :=
  ∀ (w : Nat) (k iv : Block) (x : List Byte), ctr w k iv (ctr w k iv x) = x

/-- R182; and a ciphertext followed by any 16 bytes fails exactly when they are not its tag (R124, R181). -/
def Obligations.GcmRoundTrip : Prop :=
  (∀ (k : Block) (n : BitVec 96) (a p : List Byte), gcmDec k n a (gcmEnc k n a p) = some p) ∧
  (∀ (k t : Block) (n : BitVec 96) (a c : List Byte),
    gcmDec k n a (c ++ blockBytes t) = none ↔ t ≠ gcmTagOf k n a c)

/-! ## The primitives (spec/40_primitives.md) -/

/-- R100: `E` and `D` undo each other. -/
def Obligations.BlockCipherInverse : Prop :=
  ∀ k x : Block, blockD k (blockE k x) = x ∧ blockE k (blockD k x) = x

/-- R102: SBOX is the affine map of the inverse in GF(2^8), INV_SBOX its inverse permutation, and SubBytes and
InvSubBytes replace every byte by its table's. -/
def Obligations.SboxIsTheAffineInverse : Prop :=
  (∀ x : Byte, ∃ b : Byte, (x = 0 → b = 0) ∧ (x ≠ 0 → gfMul8 x b = 1) ∧
    sbox x = b ^^^ b.rotateLeft 1 ^^^ b.rotateLeft 2 ^^^ b.rotateLeft 3 ^^^ b.rotateLeft 4 ^^^ 0x63) ∧
  (∀ x : Byte, invSbox (sbox x) = x ∧ sbox (invSbox x) = x) ∧
  sbox 0x53 = 0xed ∧
  (∀ s : List Byte, subBytes s = s.map sbox ∧ invSubBytes s = s.map invSbox)

/-- R109: the known answers. -/
def Obligations.AesKnownAnswers : Prop :=
  blockE 0x000102030405060708090a0b0c0d0e0f 0x00112233445566778899aabbccddeeff =
    0x69c4e0d86a7b0430d8cdb78070b4c55a ∧
  blockE 0x2b7e151628aed2a6abf7158809cf4f3c 0x3243f6a8885a308d313198a2e0370734 =
    0x3925841d02dc09fbdc118597196a0b32 ∧
  bytesBlock (roundKey (keyWords 0x2b7e151628aed2a6abf7158809cf4f3c) 10) =
    0xd014f9a8c9ee2589e13f0cc8b6630ca6 ∧
  blockE 0 0 = 0x66e94bd4ef8a2c3b884cfa59ca342b2e

/-- R114 (with R111, R112, R113): the padding of every string is consistent and removing it gives the string
back. -/
def Obligations.PaddingIsRemovable : Prop :=
  ∀ p : List Byte,
    (padPkcs p).length % 16 = 0 ∧ 16 ≤ (padPkcs p).length ∧
    ∀ b : Block, b = bytesBlock ((padPkcs p).drop ((padPkcs p).length - 16)) →
      unpadOk b = true ∧ (padPkcs p).take ((padPkcs p).length - (blockByte b 15).toNat) = p

/-- R115, R165: a counter block advances in its low `w` bits alone, modulo `2^w`. -/
def Obligations.CounterBlockIncrement : Prop :=
  ∀ (w : Nat) (x : Block), 1 ≤ w → w ≤ 128 →
    (incBlock w x).toNat % 2 ^ w = (x.toNat % 2 ^ w + 1) % 2 ^ w ∧
    (incBlock w x).toNat / 2 ^ w = x.toNat / 2 ^ w ∧
    (x.toNat % 2 ^ w = 2 ^ w - 1 → (incBlock w x).toNat % 2 ^ w = 0) ∧
    incBlock 128 (BitVec.allOnes 128) = 0

/-- R119: GHASH of a string of whole blocks, block by block; of the empty string it is zero. -/
def Obligations.GhashIsIncremental : Prop :=
  ∀ (h : Block) (x : List Byte) (b : Block), x.length % 16 = 0 →
    ghash h [] = 0 ∧ ghash h (x ++ blockBytes b) = gcmMul (ghash h x ^^^ b) h

/-- R117, R118: zero and one of the multiplier, and its distribution over `xor` on both sides. -/
def Obligations.GaloisZeroUnitAndSums : Prop :=
  ∀ x y z : Block,
    gcmMul x 0 = 0 ∧ gcmMul 0 x = 0 ∧
    gcmMul 0x80000000000000000000000000000000 x = x ∧ gcmMul x 0x80000000000000000000000000000000 = x ∧
    gcmMul (x ^^^ y) z = gcmMul x z ^^^ gcmMul y z ∧ gcmMul x (y ^^^ z) = gcmMul x y ^^^ gcmMul x z

end
end

