-- ==== Sys2Proof/Laws/Memory.lean ====
section
/-! SUPPORT. The laws of memory: every operation keeps the canonical form, a read after a write gives the
value written, a write leaves every other byte alone, and canonical memories with equal bytes are equal. -/

namespace Sys2Proof.Machine

/-! ## One byte -/

theorem Memory.wf_nil : Memory.wf [] := by simp [Memory.wf]

theorem Memory.wf_tail {c : Host.Cell} {m : Memory} (h : Memory.wf (c :: m)) : Memory.wf m :=
  ⟨(List.pairwise_cons.mp h.1).2, fun d hd => h.2 d (List.mem_cons_of_mem _ hd)⟩

/-- Below every listed address nothing is listed. -/
theorem Memory.read_of_lt : ∀ (m : Memory) (a : Nat), (∀ c ∈ m, a < c.1) → Memory.read m a = Memory.unlisted
  | [], _, _ => rfl
  | c :: m, a, h => by
    have hc : c.1 ≠ a := (h c (List.mem_cons_self)).ne'
    simp only [Memory.read, if_neg hc]
    exact Memory.read_of_lt m a fun d hd => h d (List.mem_cons_of_mem _ hd)

/-- The entries after a write are old ones or the one written. -/
theorem Memory.mem_write : ∀ (m : Memory) (a : Nat) (b : Byte) (c : Host.Cell),
    c ∈ Memory.write m a b → c ∈ m ∨ (c = (a, b) ∧ b ≠ Memory.unlisted)
  | [], a, b, c, h => by
    by_cases hb : b = Memory.unlisted <;> simp_all [Memory.write]
  | d :: m, a, b, c, h => by
    simp only [Memory.write] at h
    split at h
    · split at h <;> simp_all; tauto
    · split at h
      · split at h <;> simp_all; tauto
      · rcases List.mem_cons.mp h with h | h
        · simp [h]
        · rcases Memory.mem_write m a b c h with h | h <;> simp_all

/-- A write keeps the canonical form. -/
theorem Memory.write_wf : ∀ (m : Memory) (a : Nat) (b : Byte), a < 2 ^ 32 → Memory.wf m →
    Memory.wf (Memory.write m a b)
  | [], a, b, ha, _ => by
    by_cases hb : b = Memory.unlisted <;> simp_all [Memory.write, Memory.wf]
  | d :: m, a, b, ha, h => by
    have hd := h.2 d (List.mem_cons_self)
    have hp := List.pairwise_cons.mp h.1
    have ht := Memory.wf_tail h
    simp only [Memory.write]
    split
    case isTrue hlt =>
      split
      · exact h
      case isFalse hb =>
        refine ⟨List.pairwise_cons.mpr ⟨?_, h.1⟩, ?_⟩
        · intro c hc
          rcases List.mem_cons.mp hc with rfl | hc
          · exact hlt
          · exact hlt.trans (hp.1 c hc)
        · intro c hc
          rcases List.mem_cons.mp hc with rfl | hc
          · exact ⟨ha, hb⟩
          · exact h.2 c hc
    case isFalse hlt =>
      split
      case isTrue heq =>
        split
        · exact ht
        case isFalse hb =>
          refine ⟨List.pairwise_cons.mpr ⟨fun c hc => ?_, ht.1⟩, ?_⟩
          · simpa [heq] using hp.1 c hc
          · intro c hc
            rcases List.mem_cons.mp hc with rfl | hc
            · exact ⟨ha, hb⟩
            · exact ht.2 c hc
      case isFalse hne =>
        have hw := Memory.write_wf m a b ha ht
        refine ⟨List.pairwise_cons.mpr ⟨fun c hc => ?_, hw.1⟩, ?_⟩
        · rcases Memory.mem_write m a b c hc with hc | ⟨rfl, _⟩
          · exact hp.1 c hc
          · simp only; omega
        · intro c hc
          rcases List.mem_cons.mp hc with rfl | hc
          · exact hd
          · exact hw.2 c hc

/-- A read after a write to the same address gives the value written. -/
theorem Memory.read_write_same : ∀ (m : Memory) (a : Nat) (b : Byte), Memory.wf m →
    Memory.read (Memory.write m a b) a = b
  | [], a, b, _ => by
    by_cases hb : b = Memory.unlisted <;> simp_all [Memory.write, Memory.read]
  | d :: m, a, b, h => by
    have hp := List.pairwise_cons.mp h.1
    have ht := Memory.wf_tail h
    simp only [Memory.write]
    split
    case isTrue hlt =>
      split
      case isTrue hb =>
        rw [hb]
        refine Memory.read_of_lt _ _ fun c hc => ?_
        rcases List.mem_cons.mp hc with rfl | hc
        · exact hlt
        · exact hlt.trans (hp.1 c hc)
      · simp [Memory.read]
    case isFalse hlt =>
      split
      case isTrue heq =>
        split
        case isTrue hb =>
          rw [hb]
          exact Memory.read_of_lt _ _ fun c hc => by simpa [heq] using hp.1 c hc
        · simp [Memory.read]
      case isFalse hne =>
        simp only [Memory.read, if_neg (Ne.symm hne)]
        exact Memory.read_write_same m a b ht

/-- A write leaves every other address alone. -/
theorem Memory.read_write_other : ∀ (m : Memory) (a a' : Nat) (b : Byte), a' ≠ a →
    Memory.read (Memory.write m a b) a' = Memory.read m a'
  | [], a, a', b, h => by
    by_cases hb : b = Memory.unlisted <;> simp_all [Memory.write, Memory.read, Ne.symm h]
  | d :: m, a, a', b, h => by
    simp only [Memory.write]
    split
    · split <;> simp [Memory.read, Ne.symm h]
    · split
      case isTrue heq =>
        split <;> simp [Memory.read, Ne.symm h, ← heq]
      · simp only [Memory.read]
        split
        · rfl
        · exact Memory.read_write_other m a a' b h

/-- Canonical memories that read the same at every address are the same list. -/
theorem Memory.ext_read : ∀ (m m' : Memory), Memory.wf m → Memory.wf m' →
    (∀ a, Memory.read m a = Memory.read m' a) → m = m'
  | [], [], _, _, _ => rfl
  | [], d :: m', _, h', hr => by
    have := hr d.1
    have hd := (h'.2 d (List.mem_cons_self)).2
    simp [Memory.read] at this
    exact absurd this.symm hd
  | d :: m, [], h, _, hr => by
    have := hr d.1
    have hd := (h.2 d (List.mem_cons_self)).2
    simp [Memory.read] at this
    exact absurd this hd
  | d :: m, d' :: m', h, h', hr => by
    have hp := List.pairwise_cons.mp h.1
    have hp' := List.pairwise_cons.mp h'.1
    have hd := (h.2 d (List.mem_cons_self)).2
    have hd' := (h'.2 d' (List.mem_cons_self)).2
    have hkey : d.1 = d'.1 := by
      rcases Nat.lt_trichotomy d.1 d'.1 with hlt | heq | hgt
      · have := hr d.1
        rw [Memory.read_of_lt (d' :: m') d.1 (fun c hc => by
          rcases List.mem_cons.mp hc with rfl | hc
          · exact hlt
          · exact hlt.trans (hp'.1 c hc))] at this
        simp [Memory.read] at this
        exact absurd this hd
      · exact heq
      · have := hr d'.1
        rw [Memory.read_of_lt (d :: m) d'.1 (fun c hc => by
          rcases List.mem_cons.mp hc with rfl | hc
          · exact hgt
          · exact hgt.trans (hp.1 c hc))] at this
        simp [Memory.read] at this
        exact absurd this.symm hd'
    have hval : d.2 = d'.2 := by
      have := hr d.1
      simpa [Memory.read, hkey] using this
    have hhead : d = d' := Prod.ext hkey hval
    subst hhead
    congr 1
    refine Memory.ext_read m m' (Memory.wf_tail h) (Memory.wf_tail h') fun a => ?_
    by_cases ha : d.1 = a
    · subst ha
      rw [Memory.read_of_lt m d.1 fun c hc => hp.1 c hc, Memory.read_of_lt m' d.1 fun c hc => hp'.1 c hc]
    · have := hr a
      simpa [Memory.read, ha] using this

/-! ## 32-bit addresses -/

theorem Memory.setByte_wf (m : Memory) (a : Addr) (b : Byte) (h : Memory.wf m) : Memory.wf (m.setByte a b) :=
  Memory.write_wf m _ b a.isLt h

theorem Memory.byteAt_setByte_same (m : Memory) (a : Addr) (b : Byte) (h : Memory.wf m) :
    (m.setByte a b).byteAt a = b := Memory.read_write_same m _ b h

theorem Memory.byteAt_setByte_other (m : Memory) (a a' : Addr) (b : Byte) (h : a' ≠ a) :
    (m.setByte a b).byteAt a' = m.byteAt a' :=
  Memory.read_write_other m _ _ b fun hc => h (BitVec.eq_of_toNat_eq hc)

/-- Past the top of the address space nothing is listed. -/
theorem Memory.read_of_ge : ∀ (m : Memory) (a : Nat), Memory.wf m → 2 ^ 32 ≤ a →
    Memory.read m a = Memory.unlisted
  | [], _, _, _ => rfl
  | c :: m, a, h, ha => by
    have hc : c.1 ≠ a := by have := (h.2 c (List.mem_cons_self)).1; omega
    simp only [Memory.read, if_neg hc]
    exact Memory.read_of_ge m a (Memory.wf_tail h) ha

/-- Canonical memories with the same byte at every address are equal. -/
theorem Memory.ext_byteAt (m m' : Memory) (h : Memory.wf m) (h' : Memory.wf m')
    (hb : ∀ a : Addr, m.byteAt a = m'.byteAt a) : m = m' := by
  refine Memory.ext_read m m' h h' fun a => ?_
  by_cases ha : a < 2 ^ 32
  · have := hb (BitVec.ofNat 32 a)
    simp only [Memory.byteAt, BitVec.toNat_ofNat, Nat.mod_eq_of_lt ha] at this
    exact this
  · rw [Memory.read_of_ge m a h (by omega), Memory.read_of_ge m' a h' (by omega)]

/-! ## Byte strings -/

@[simp] theorem Memory.setBytes_nil (m : Memory) (a : Addr) : m.setBytes a [] = m := rfl

@[simp] theorem Memory.bytesAt_length (m : Memory) (a : Addr) (n : Nat) : (m.bytesAt a n).length = n := by
  induction n generalizing a with
  | zero => rfl
  | succ n ih => simp [Memory.bytesAt, ih]

theorem ofNat_add_add (a : Addr) (n k : Nat) :
    a + BitVec.ofNat 32 n + BitVec.ofNat 32 k = a + BitVec.ofNat 32 (n + k) := by
  apply BitVec.eq_of_toNat_eq
  simp only [BitVec.toNat_add, BitVec.toNat_ofNat]
  omega

theorem ofNat_succ_add (a : Addr) (n : Nat) : a + 1 + BitVec.ofNat 32 n = a + BitVec.ofNat 32 (n + 1) := by
  rw [Nat.add_comm n 1]
  exact ofNat_add_add a 1 n

theorem Memory.setBytes_wf (m : Memory) (a : Addr) (bs : List Byte) (h : Memory.wf m) :
    Memory.wf (m.setBytes a bs) := by
  induction bs generalizing m a with
  | nil => exact h
  | cons b bs ih => exact ih _ _ (Memory.setByte_wf m a b h)

/-- Storing a string is storing its two parts one after the other. -/
theorem Memory.setBytes_append (m : Memory) (a : Addr) (bs cs : List Byte) :
    m.setBytes a (bs ++ cs) = (m.setBytes a bs).setBytes (a + BitVec.ofNat 32 bs.length) cs := by
  induction bs generalizing m a with
  | nil => simp
  | cons b bs ih => rw [List.cons_append, Memory.setBytes, ih, Memory.setBytes, ofNat_succ_add, List.length_cons]

/-- A byte outside the stored range is unchanged. -/
theorem Memory.byteAt_setBytes_outside (m : Memory) (a a' : Addr) (bs : List Byte)
    (h : ∀ i < bs.length, a' ≠ a + BitVec.ofNat 32 i) : (m.setBytes a bs).byteAt a' = m.byteAt a' := by
  induction bs generalizing m a with
  | nil => rfl
  | cons b bs ih =>
    rw [Memory.setBytes, ih]
    · exact Memory.byteAt_setByte_other m a a' b (by simpa using h 0 (by simp))
    · intro i hi
      rw [ofNat_succ_add]
      exact h (i + 1) (by simpa using hi)

/-- Different offsets below 2^32 are different addresses. -/
theorem ofNat_offset_inj (a : Addr) (i j : Nat) (hi : i < 2 ^ 32) (hj : j < 2 ^ 32)
    (h : a + BitVec.ofNat 32 i = a + BitVec.ofNat 32 j) : i = j := by
  have h' := congrArg BitVec.toNat h
  have ha := a.isLt
  simp only [BitVec.toNat_add, BitVec.toNat_ofNat] at h'
  omega

/-- A byte inside the stored range is the byte stored there. -/
theorem Memory.byteAt_setBytes_inside (m : Memory) (a : Addr) (bs : List Byte) (i : Nat) (h : Memory.wf m)
    (hi : i < bs.length) (hlen : bs.length ≤ 2 ^ 32) :
    (m.setBytes a bs).byteAt (a + BitVec.ofNat 32 i) = bs[i] := by
  induction bs generalizing m a i with
  | nil => simp at hi
  | cons b bs ih =>
    simp only [List.length_cons] at hi hlen
    rw [Memory.setBytes]
    cases i with
    | zero =>
      rw [Memory.byteAt_setBytes_outside]
      · simpa using Memory.byteAt_setByte_same m a b h
      · intro j hj hc
        rw [ofNat_succ_add] at hc
        have := ofNat_offset_inj a 0 (j + 1) (by omega) (by omega) hc
        omega
    | succ i =>
      rw [← ofNat_succ_add]
      simpa using ih (m.setByte a b) (a + 1) i (Memory.setByte_wf m a b h) (by omega) (by omega)

theorem Memory.bytesAt_getElem (m : Memory) (a : Addr) (n i : Nat) (h : i < (m.bytesAt a n).length) :
    (m.bytesAt a n)[i] = m.byteAt (a + BitVec.ofNat 32 i) := by
  induction n generalizing a i with
  | zero => simp [Memory.bytesAt] at h
  | succ n ih =>
    cases i with
    | zero => simp [Memory.bytesAt]
    | succ i =>
      simp only [Memory.bytesAt, List.getElem_cons_succ]
      rw [ih (a + 1) i, ofNat_succ_add]

/-- Two memories that agree on a range give the same string. -/
theorem Memory.bytesAt_congr (m m' : Memory) (a : Addr) (n : Nat)
    (h : ∀ i < n, m.byteAt (a + BitVec.ofNat 32 i) = m'.byteAt (a + BitVec.ofNat 32 i)) :
    m.bytesAt a n = m'.bytesAt a n := by
  apply List.ext_getElem (by simp)
  intro i h1 h2
  rw [Memory.bytesAt_getElem, Memory.bytesAt_getElem]
  exact h i (by simpa using h1)

/-- A string is the string of its first bytes and the string after it. -/
theorem Memory.bytesAt_add (m : Memory) (a : Addr) (n k : Nat) :
    m.bytesAt a (n + k) = m.bytesAt a n ++ m.bytesAt (a + BitVec.ofNat 32 n) k := by
  induction n generalizing a with
  | zero => simp [Memory.bytesAt]
  | succ n ih =>
    rw [Nat.succ_add, Memory.bytesAt, ih, Memory.bytesAt, ofNat_succ_add]
    rfl

/-- Storing the same range twice leaves the second string. -/
theorem Memory.setBytes_overwrite (m : Memory) (a : Addr) (bs cs : List Byte) (h : Memory.wf m)
    (hlen : bs.length = cs.length) (hle : cs.length ≤ 2 ^ 32) :
    (m.setBytes a bs).setBytes a cs = m.setBytes a cs := by
  have hw := Memory.setBytes_wf m a bs h
  refine Memory.ext_byteAt _ _ (Memory.setBytes_wf _ a cs hw) (Memory.setBytes_wf m a cs h) fun x => ?_
  by_cases hx : ∃ i < cs.length, x = a + BitVec.ofNat 32 i
  · obtain ⟨i, hi, rfl⟩ := hx
    rw [Memory.byteAt_setBytes_inside _ a cs i hw hi hle, Memory.byteAt_setBytes_inside m a cs i h hi hle]
  · have hno : ∀ i < cs.length, x ≠ a + BitVec.ofNat 32 i := fun i hi hc => hx ⟨i, hi, hc⟩
    rw [Memory.byteAt_setBytes_outside _ a x cs hno, Memory.byteAt_setBytes_outside m a x cs hno,
      Memory.byteAt_setBytes_outside m a x bs (hlen ▸ hno)]

/-! ## Ranges of addresses -/

theorem inRange_iff (first a : Addr) (n : Nat) :
    inRange first n a = true ↔ ∃ i < n, a = first + BitVec.ofNat 32 i := by
  simp only [inRange, decide_eq_true_eq]
  constructor
  · intro h
    refine ⟨(a - first).toNat, h, ?_⟩
    apply BitVec.eq_of_toNat_eq
    have := a.isLt; have := first.isLt
    simp only [BitVec.toNat_add, BitVec.toNat_sub, BitVec.toNat_ofNat]
    omega
  · rintro ⟨i, hi, rfl⟩
    have := first.isLt
    have hle : (first + BitVec.ofNat 32 i - first).toNat ≤ i := by
      simp only [BitVec.toNat_add, BitVec.toNat_sub, BitVec.toNat_ofNat]
      omega
    omega

end Sys2Proof.Machine
end

