-- ==== Sys2Proof/Laws/Access.lean ====
section
/-! SUPPORT. What the engine's checked accesses can do: the two outcomes of a read run and of a write run
(spec/20_memory.md R64). -/

namespace Sys2Proof.Machine

/-- A read run either gives the bytes, every access having completed, or stops at the first address whose
read fails. -/
theorem readRun_cases (c : Config) (m : Memory) (a : Addr) (n : Nat) :
    (readRun c m a n = .ok (m.bytesAt a n) ∧ readsOk c a n) ∨
    ∃ i < n, readRun c m a n = .error (a + BitVec.ofNat 32 i) ∧ readsOk c a i ∧
      memOk c (a + BitVec.ofNat 32 i) .read = false := by
  induction n generalizing a with
  | zero => exact .inl ⟨rfl, fun i hi => absurd hi (Nat.not_lt_zero i)⟩
  | succ n ih =>
    by_cases h0 : memOk c a .read = true
    · have extend : ∀ k, readsOk c (a + 1) k → readsOk c a (k + 1) := by
        intro k hk i hi
        cases i with
        | zero => simpa using h0
        | succ i => rw [← ofNat_succ_add]; exact hk i (by omega)
      rcases ih (a + 1) with ⟨hr, hok⟩ | ⟨i, hi, hr, hok, hbad⟩
      · exact .inl ⟨by simp only [readRun, h0, hr, Memory.bytesAt, if_true], extend n hok⟩
      · refine .inr ⟨i + 1, by omega, ?_, extend i hok, ?_⟩
        · simp only [readRun, h0, hr, if_true]; rw [ofNat_succ_add]
        · rw [← ofNat_succ_add]; exact hbad
    · refine .inr ⟨0, by omega, ?_, fun i hi => absurd hi (Nat.not_lt_zero i), ?_⟩
      · simp [readRun, h0]
      · simpa using h0

/-- When every read completes, the run gives the bytes. -/
theorem readRun_ok (c : Config) (m : Memory) (a : Addr) (n : Nat) (h : readsOk c a n) :
    readRun c m a n = .ok (m.bytesAt a n) := by
  rcases readRun_cases c m a n with ⟨hr, _⟩ | ⟨i, hi, _, _, hbad⟩
  · exact hr
  · exact absurd (h i hi) (by simp [hbad])

/-- A write run either stores the whole string, every access having completed, or stops at the first
address whose write fails with the bytes before it stored. -/
theorem writeRun_cases (c : Config) (m : Memory) (a : Addr) (bs : List Byte) :
    (writeRun c m a bs = (m.setBytes a bs, none) ∧ writesOk c a bs.length) ∨
    ∃ i < bs.length, writeRun c m a bs = (m.setBytes a (bs.take i), some (a + BitVec.ofNat 32 i)) ∧
      writesOk c a i ∧ memOk c (a + BitVec.ofNat 32 i) .write = false := by
  induction bs generalizing m a with
  | nil => exact .inl ⟨rfl, fun i hi => absurd hi (Nat.not_lt_zero i)⟩
  | cons b bs ih =>
    by_cases h0 : memOk c a .write = true
    · have extend : ∀ k, writesOk c (a + 1) k → writesOk c a (k + 1) := by
        intro k hk i hi
        cases i with
        | zero => simpa using h0
        | succ i => rw [← ofNat_succ_add]; exact hk i (by omega)
      rcases ih (m.setByte a b) (a + 1) with ⟨hr, hok⟩ | ⟨i, hi, hr, hok, hbad⟩
      · exact .inl ⟨by simp only [writeRun, h0, hr, Memory.setBytes, if_true], extend _ hok⟩
      · refine .inr ⟨i + 1, by simpa using hi, ?_, extend i hok, ?_⟩
        · simp only [writeRun, h0, hr, if_true]
          rw [ofNat_succ_add, List.take_succ_cons, Memory.setBytes]
        · rw [← ofNat_succ_add]; exact hbad
    · refine .inr ⟨0, by simp, ?_, fun i hi => absurd hi (Nat.not_lt_zero i), ?_⟩
      · simp [writeRun, h0]
      · simpa using h0

/-- When every write completes, the run stores the whole string. -/
theorem writeRun_ok (c : Config) (m : Memory) (a : Addr) (bs : List Byte) (h : writesOk c a bs.length) :
    writeRun c m a bs = (m.setBytes a bs, none) := by
  rcases writeRun_cases c m a bs with ⟨hr, _⟩ | ⟨i, hi, _, _, hbad⟩
  · exact hr
  · exact absurd (h i hi) (by simp [hbad])

/-- A read run stops at the first address whose read fails. -/
theorem readRun_stops (c : Config) (m : Memory) (a : Addr) (n i : Nat) (hi : i < n) (hok : readsOk c a i)
    (hbad : memOk c (a + BitVec.ofNat 32 i) .read = false) :
    readRun c m a n = .error (a + BitVec.ofNat 32 i) := by
  rcases readRun_cases c m a n with ⟨_, h⟩ | ⟨j, _, hr, hj, hjbad⟩
  · exact absurd (h i hi) (by simp [hbad])
  · rcases Nat.lt_trichotomy i j with h | rfl | h
    · exact absurd (hj i h) (by simp [hbad])
    · exact hr
    · exact absurd (hok j h) (by simp [hjbad])

/-- A write run stops at the first address whose write fails, the bytes before it stored. -/
theorem writeRun_stops (c : Config) (m : Memory) (a : Addr) (bs : List Byte) (i : Nat) (hi : i < bs.length)
    (hok : writesOk c a i) (hbad : memOk c (a + BitVec.ofNat 32 i) .write = false) :
    writeRun c m a bs = (m.setBytes a (bs.take i), some (a + BitVec.ofNat 32 i)) := by
  rcases writeRun_cases c m a bs with ⟨_, h⟩ | ⟨j, _, hr, hj, hjbad⟩
  · exact absurd (h i hi) (by simp [hbad])
  · rcases Nat.lt_trichotomy i j with h | rfl | h
    · exact absurd (hj i h) (by simp [hbad])
    · exact hr
    · exact absurd (hok j h) (by simp [hjbad])

theorem writeRun_wf (c : Config) (m : Memory) (a : Addr) (bs : List Byte) (h : Memory.wf m) :
    Memory.wf (writeRun c m a bs).1 := by
  rcases writeRun_cases c m a bs with ⟨hr, _⟩ | ⟨i, _, hr, _, _⟩ <;> rw [hr] <;>
    exact Memory.setBytes_wf m a _ h

theorem readsOk_mono (c : Config) (a : Addr) (n k : Nat) (h : readsOk c a n) (hk : k ≤ n) :
    readsOk c a k := fun i hi => h i (by omega)

theorem writesOk_mono (c : Config) (a : Addr) (n k : Nat) (h : writesOk c a n) (hk : k ≤ n) :
    writesOk c a k := fun i hi => h i (by omega)

/-- The accesses of a later part of a range. -/
theorem readsOk_shift (c : Config) (a : Addr) (n p k : Nat) (h : readsOk c a n) (hk : p + k ≤ n) :
    readsOk c (a + BitVec.ofNat 32 p) k := fun i hi => by
  rw [ofNat_add_add]; exact h (p + i) (by omega)

theorem writesOk_shift (c : Config) (a : Addr) (n p k : Nat) (h : writesOk c a n) (hk : p + k ≤ n) :
    writesOk c (a + BitVec.ofNat 32 p) k := fun i hi => by
  rw [ofNat_add_add]; exact h (p + i) (by omega)

/-- Whether the host's caches are coherent never matters to the engine's accesses (R75). -/
@[simp] theorem readRun_coherent (c : Config) (k : Bool) (m : Memory) (a : Addr) (n : Nat) :
    readRun { c with dmaCoherent := k } m a n = readRun c m a n := by
  induction n generalizing a with
  | zero => rfl
  | succ n ih => simp only [readRun, ih]; rfl

@[simp] theorem writeRun_coherent (c : Config) (k : Bool) (m : Memory) (a : Addr) (bs : List Byte) :
    writeRun { c with dmaCoherent := k } m a bs = writeRun c m a bs := by
  induction bs generalizing m a with
  | nil => rfl
  | cons b bs ih => simp only [writeRun, ih]; rfl

/-- With nothing denied every access completes. -/
theorem memOk_all (c : Config) (h : c.denied = []) (a : Addr) (k : AccessKind) : memOk c a k = true := by
  simp [memOk, h]

end Sys2Proof.Machine
end

