-- ==== Sys2Proof/Laws/Bytes.lean ====
section
/-! SUPPORT. Blocks and byte strings: the two readings of a block agree, and a byte string is cut into
16-byte pieces from the front. -/

namespace Sys2Proof.Machine

/-! ## The integer a byte string stands for -/

theorem bytesNat_concat (bs : List Byte) (b : Byte) : bytesNat (bs ++ [b]) = 256 * bytesNat bs + b.toNat := by
  simp [bytesNat]

theorem bytesNat_lt (bs : List Byte) : bytesNat bs < 256 ^ bs.length := by
  induction bs using List.reverseRecOn with
  | nil => simp [bytesNat]
  | append_singleton bs b ih =>
    rw [bytesNat_concat, List.length_append, List.length_singleton, Nat.pow_succ]
    have := b.isLt
    omega

/-- Byte `i` of the integer is byte `i` of the string (R8). -/
theorem bytesNat_byte (bs : List Byte) (i : Nat) (h : i < bs.length) :
    bytesNat bs / 256 ^ (bs.length - 1 - i) % 256 = bs[i].toNat := by
  induction bs using List.reverseRecOn generalizing i with
  | nil => simp at h
  | append_singleton bs b ih =>
    simp only [List.length_append, List.length_singleton] at h ⊢
    rw [bytesNat_concat]
    have hb := b.isLt
    by_cases hi : i = bs.length
    · subst hi
      simp
      omega
    · have hlt : i < bs.length := by omega
      rw [List.getElem_append_left hlt, ← ih i hlt,
        show bs.length + 1 - 1 - i = (bs.length - 1 - i) + 1 by omega, Nat.pow_succ, Nat.mul_comm (256 ^ _),
        ← Nat.div_div_eq_div_mul]
      congr 2
      omega

/-! ## Blocks -/

@[simp] theorem blockBytes_length (x : Block) : (blockBytes x).length = 16 := by simp [blockBytes]

theorem blockBytes_getElem (x : Block) (i : Nat) (h : i < (blockBytes x).length) :
    (blockBytes x)[i] = blockByte x i := by
  simp [blockBytes]

/-- The bytes of the block a 16-byte string stands for are the string (R8). -/
theorem blockBytes_bytesBlock (bs : List Byte) (h : bs.length = 16) : blockBytes (bytesBlock bs) = bs := by
  apply List.ext_getElem (by simp [h])
  intro i h1 h2
  rw [blockBytes_getElem]
  apply BitVec.eq_of_toNat_eq
  have hlt := bytesNat_lt bs
  have hbyte := bytesNat_byte bs i h2
  rw [h] at hlt hbyte
  simp only [blockByte, bytesBlock, BitVec.extractLsb'_toNat, BitVec.toNat_ofNat, Nat.shiftRight_eq_div_pow]
  rw [Nat.mod_eq_of_lt (a := bytesNat bs) (b := 2 ^ 128) (by simpa using hlt), show 2 ^ (8 * (15 - i)) = 256 ^ (15 - i) by
    rw [Nat.pow_mul]]
  exact hbyte

/-- A block is determined by its bytes. -/
theorem blockByte_ext (x y : Block) (h : ∀ i < 16, blockByte x i = blockByte y i) : x = y := by
  apply BitVec.eq_of_getLsbD_eq
  intro i hi
  have := congrArg (fun b : Byte => b.getLsbD (i % 8)) (h (15 - i / 8) (by omega))
  simp only [blockByte, BitVec.getLsbD_extractLsb'] at this
  have hm : i % 8 < 8 := Nat.mod_lt _ (by decide)
  rw [show 8 * (15 - (15 - i / 8)) + i % 8 = i by omega] at this
  simpa [hm] using this

/-- The block of a block's bytes is the block (R8). -/
@[simp] theorem bytesBlock_blockBytes (x : Block) : bytesBlock (blockBytes x) = x := by
  apply blockByte_ext
  intro i hi
  have h := blockBytes_bytesBlock (blockBytes x) (by simp)
  have := congrArg (fun l : List Byte => l[i]?) h
  simpa [blockBytes, hi] using this

theorem blockBytes_injective (x y : Block) (h : blockBytes x = blockBytes y) : x = y := by
  rw [← bytesBlock_blockBytes x, h, bytesBlock_blockBytes]

/-- Exclusive-or works byte by byte (R110). -/
theorem blockBytes_xor (x y : Block) : blockBytes (x ^^^ y) = xorBytes (blockBytes x) (blockBytes y) := by
  apply List.ext_getElem (by simp [xorBytes])
  intro i h1 h2
  simp [xorBytes, blockBytes, blockByte, BitVec.extractLsb'_xor]

@[simp] theorem xorBytes_length (a b : List Byte) : (xorBytes a b).length = min a.length b.length := by
  simp [xorBytes]

@[simp] theorem xorBytes_nil (b : List Byte) : xorBytes [] b = [] := rfl

/-- Applying the same keystream twice gives the string back (R110). -/
theorem xorBytes_xorBytes (a k : List Byte) (h : a.length ≤ k.length) : xorBytes (xorBytes a k) k = a := by
  apply List.ext_getElem
  · simp; omega
  · intro i h1 h2
    simp [xorBytes]

/-! ## Pieces -/

theorem chunksOf_eq (n : Nat) : ∀ (bs : List Byte), bs.length ≤ n → chunksOf n bs = chunksOf bs.length bs := by
  induction n using Nat.strongRecOn with
  | ind n ih =>
    intro bs h
    match n, bs, h with
    | 0, [], _ => rfl
    | n + 1, [], _ => rfl
    | n + 1, b :: bs, h =>
      simp only [List.length_cons] at h
      simp only [chunksOf, List.length_cons]
      have hd : ((b :: bs).drop 16).length ≤ bs.length := by simp
      rw [ih n (by omega) _ (by omega)]
      by_cases hn : bs.length < n + 1
      · by_cases he : bs.length = n
        · subst he; rw [ih _ (by omega) _ hd]
        · rw [ih bs.length (by omega) _ hd]
      · rw [show bs.length = n by omega] at hd ⊢
        rw [ih n (by omega) _ hd]

@[simp] theorem chunks_nil : chunks [] = [] := rfl

/-- The first piece is the first 16 bytes. -/
theorem chunks_of_ne_nil (bs : List Byte) (h : bs ≠ []) : chunks bs = bs.take 16 :: chunks (bs.drop 16) := by
  match bs, h with
  | b :: bs, _ =>
    simp only [chunks, List.length_cons, chunksOf]
    rw [chunksOf_eq bs.length _ (by simp)]

/-- A string of at most 16 bytes that is not empty is one piece. -/
theorem chunks_short (bs : List Byte) (h : bs ≠ []) (hl : bs.length ≤ 16) : chunks bs = [bs] := by
  rw [chunks_of_ne_nil bs h, List.take_of_length_le hl, List.drop_of_length_le hl, chunks_nil]

/-- Whole pieces first: a string of whole blocks is cut on its own. -/
theorem chunks_append (xs ys : List Byte) (h : xs.length % 16 = 0) :
    chunks (xs ++ ys) = chunks xs ++ chunks ys := by
  induction hn : xs.length using Nat.strongRecOn generalizing xs with
  | ind n ih =>
    by_cases hx : xs = []
    · simp [hx]
    · have hlen : 16 ≤ xs.length := by
        have := List.length_pos_iff.mpr hx
        omega
      rw [chunks_of_ne_nil xs hx, chunks_of_ne_nil (xs ++ ys) (by simp [hx]),
        List.take_append_of_le_length hlen, List.drop_append_of_le_length hlen, List.cons_append]
      congr 1
      exact ih (xs.drop 16).length (by simp; omega) (xs.drop 16) (by simp; omega) rfl

/-- Every piece but the last has 16 bytes; in a string of whole blocks every piece has. -/
theorem chunks_length_of_whole (bs : List Byte) (h : bs.length % 16 = 0) :
    ∀ c ∈ chunks bs, c.length = 16 := by
  induction hn : bs.length using Nat.strongRecOn generalizing bs with
  | ind n ih =>
    by_cases hx : bs = []
    · simp [hx]
    · have hlen : 16 ≤ bs.length := by
        have := List.length_pos_iff.mpr hx
        omega
      rw [chunks_of_ne_nil bs hx]
      intro c hc
      rcases List.mem_cons.mp hc with rfl | hc
      · simp; omega
      · exact ih (bs.drop 16).length (by simp; omega) (bs.drop 16) (by simp; omega) rfl c hc

/-- The pieces joined are the string. -/
theorem chunks_flatten (bs : List Byte) : (chunks bs).flatten = bs := by
  induction hn : bs.length using Nat.strongRecOn generalizing bs with
  | ind n ih =>
    by_cases hx : bs = []
    · simp [hx]
    · have := List.length_pos_iff.mpr hx
      rw [chunks_of_ne_nil bs hx, List.flatten_cons, ih (bs.drop 16).length (by simp; omega) _ rfl,
        List.take_append_drop]

/-! ## zpad -/

theorem padBlock_length (bs : List Byte) (h : bs.length ≤ 16) : (padBlock bs).length = 16 := by
  simp [padBlock]; omega

theorem zpadBlock_whole (bs : List Byte) (h : bs.length = 16) : zpadBlock bs = bytesBlock bs := by
  simp [zpadBlock, padBlock, h]

theorem zpadBytes_length (b : List Byte) : (zpadBytes b).length % 16 = 0 := by
  simp [zpadBytes]; omega

/-- The pieces of `zpad(B)` are the pieces of `B` with the last one filled up (R120). -/
theorem chunks_zpadBytes (b : List Byte) : (chunks (zpadBytes b)).map bytesBlock = (chunks b).map zpadBlock := by
  induction hn : b.length using Nat.strongRecOn generalizing b with
  | ind n ih =>
    by_cases hx : b = []
    · simp [hx, zpadBytes]
    · have hpos := List.length_pos_iff.mpr hx
      by_cases hlen : 16 ≤ b.length
      · have hz : (zpadBytes b).drop 16 = zpadBytes (b.drop 16) := by
          simp only [zpadBytes, List.drop_append_of_le_length hlen, List.length_drop]
          congr 2
          omega
        have ht : (zpadBytes b).take 16 = b.take 16 := by
          simp [zpadBytes, List.take_append_of_le_length hlen]
        rw [chunks_of_ne_nil (zpadBytes b) (by simp [zpadBytes, hx]), chunks_of_ne_nil b hx, ht, hz,
          List.map_cons, List.map_cons, ih (b.drop 16).length (by simp; omega) (b.drop 16) rfl,
          zpadBlock_whole _ (by simp; omega)]
      · have hzl : (zpadBytes b).length = 16 := by simp [zpadBytes]; omega
        rw [chunks_short (zpadBytes b) (by simp [zpadBytes, hx]) (by omega), chunks_short b hx (by omega)]
        simp only [List.map_cons, List.map_nil, zpadBlock, padBlock, zpadBytes]
        rw [show (16 - b.length % 16) % 16 = 16 - b.length by omega]

end Sys2Proof.Machine
end

