-- ==== Sys2Proof/Laws/Cipher.lean ====
section
/-! SUPPORT. The parts of the block cipher undo each other: the byte tables, the row shifts, the column
maps and the round keys (spec/40_primitives.md R102 to R106). -/

namespace Sys2Proof.Machine

/-! ## The byte tables (R102) -/

/-- A fact about every byte is 256 facts. -/
theorem byte_forall (P : Byte → Prop) (h : ∀ n : Fin 256, P (BitVec.ofFin n)) (x : Byte) : P x := h x.toFin

theorem invSbox_sbox (x : Byte) : invSbox (sbox x) = x :=
  byte_forall (fun x => invSbox (sbox x) = x) (by decide +kernel) x

theorem sbox_invSbox (x : Byte) : sbox (invSbox x) = x :=
  byte_forall (fun x => sbox (invSbox x) = x) (by decide +kernel) x

theorem invSubBytes_subBytes (s : List Byte) : invSubBytes (subBytes s) = s := by
  simp [invSubBytes, subBytes, invSbox_sbox, Function.comp_def]

theorem subBytes_invSubBytes (s : List Byte) : subBytes (invSubBytes s) = s := by
  simp [invSubBytes, subBytes, sbox_invSbox, Function.comp_def]

@[simp] theorem subBytes_length (s : List Byte) : (subBytes s).length = s.length := by simp [subBytes]

@[simp] theorem invSubBytes_length (s : List Byte) : (invSubBytes s).length = s.length := by simp [invSubBytes]

/-! ## The row shifts (R103) -/

@[simp] theorem shiftRows_length (s : List Byte) : (shiftRows s).length = 16 := by simp [shiftRows]

@[simp] theorem invShiftRows_length (s : List Byte) : (invShiftRows s).length = 16 := by simp [invShiftRows]

/-- A state of 16 bytes, byte by byte. -/
theorem sixteen_bytes (s : List Byte) (h : s.length = 16) :
    s = (List.range 16).map fun k => s.getD k 0 := by
  apply List.ext_getElem (by simp [h])
  intro i h1 h2
  simp [List.getD_eq_getElem?_getD, h1]

theorem invShiftRows_shiftRows (s : List Byte) (h : s.length = 16) : invShiftRows (shiftRows s) = s := by
  rw [sixteen_bytes s h]
  generalize (fun k => s.getD k 0) = f
  rfl

theorem shiftRows_invShiftRows (s : List Byte) (h : s.length = 16) : shiftRows (invShiftRows s) = s := by
  rw [sixteen_bytes s h]
  generalize (fun k => s.getD k 0) = f
  rfl

/-! ## The column maps (R104) -/

theorem xtime_xor (a b : Byte) : xtime (a ^^^ b) = xtime a ^^^ xtime b := by
  have key : ∀ a : Byte, xtime a = (a <<< 1) ^^^ (if a.getLsbD 7 then 0x1B else 0) :=
    fun a => byte_forall (fun a => xtime a = (a <<< 1) ^^^ (if a.getLsbD 7 then 0x1B else 0)) (by decide +kernel) a
  have cancel : ∀ x y c : Byte, x ^^^ y = x ^^^ c ^^^ (y ^^^ c) := by
    intro x y c
    rw [BitVec.xor_assoc, BitVec.xor_comm y c, ← BitVec.xor_assoc c c y, BitVec.xor_self, BitVec.zero_xor]
  rw [key, key, key, BitVec.shiftLeft_xor_distrib, BitVec.getLsbD_xor]
  cases a.getLsbD 7 <;> cases b.getLsbD 7 <;> simp
  · ac_rfl
  · ac_rfl
  · exact cancel _ _ _

/-- A multiplier is linear. -/
theorem gfMulSmall_xor (k : Nat) (a b : Byte) : gfMulSmall k (a ^^^ b) = gfMulSmall k a ^^^ gfMulSmall k b := by
  simp only [gfMulSmall, xtime_xor]
  cases k.testBit 0 <;> cases k.testBit 1 <;> cases k.testBit 2 <;> cases k.testBit 3 <;> simp <;> ac_rfl

/-- Two circulant column maps undo each other when their coefficients do. -/
theorem mixColumn_inverse (p q : Fin 4 → Nat)
    (h0 : ∀ a, gfMulSmall (p 0) (gfMulSmall (q 0) a) ^^^ gfMulSmall (p 1) (gfMulSmall (q 3) a)
      ^^^ gfMulSmall (p 2) (gfMulSmall (q 2) a) ^^^ gfMulSmall (p 3) (gfMulSmall (q 1) a) = a)
    (h1 : ∀ a, gfMulSmall (p 0) (gfMulSmall (q 1) a) ^^^ gfMulSmall (p 1) (gfMulSmall (q 0) a)
      ^^^ gfMulSmall (p 2) (gfMulSmall (q 3) a) ^^^ gfMulSmall (p 3) (gfMulSmall (q 2) a) = 0)
    (h2 : ∀ a, gfMulSmall (p 0) (gfMulSmall (q 2) a) ^^^ gfMulSmall (p 1) (gfMulSmall (q 1) a)
      ^^^ gfMulSmall (p 2) (gfMulSmall (q 0) a) ^^^ gfMulSmall (p 3) (gfMulSmall (q 3) a) = 0)
    (h3 : ∀ a, gfMulSmall (p 0) (gfMulSmall (q 3) a) ^^^ gfMulSmall (p 1) (gfMulSmall (q 2) a)
      ^^^ gfMulSmall (p 2) (gfMulSmall (q 1) a) ^^^ gfMulSmall (p 3) (gfMulSmall (q 0) a) = 0)
    (a0 a1 a2 a3 b0 b1 b2 b3 : Byte) (hb : mixColumn (q 0) (q 1) (q 2) (q 3) a0 a1 a2 a3 = [b0, b1, b2, b3]) :
    mixColumn (p 0) (p 1) (p 2) (p 3) b0 b1 b2 b3 = [a0, a1, a2, a3] := by
  simp only [mixColumn, List.cons.injEq, and_true] at hb
  obtain ⟨rfl, rfl, rfl, rfl⟩ := hb
  have four : ∀ x0 x1 x2 x3 : Byte, ∀ e0 e1 e2 e3 : Byte, ∀ w : Byte,
      w = (x0 ^^^ x1 ^^^ x2 ^^^ x3) → x0 = e0 → x1 = e1 → x2 = e2 → x3 = e3 → w = e0 ^^^ e1 ^^^ e2 ^^^ e3 := by
    rintro _ _ _ _ _ _ _ _ _ rfl rfl rfl rfl rfl; rfl
  simp only [mixColumn, gfMulSmall_xor, List.cons.injEq, and_true]
  refine ⟨?_, ?_, ?_, ?_⟩
  · refine (four _ _ _ _ _ _ _ _ _ ?_ (h0 a0) (h1 a1) (h2 a2) (h3 a3)).trans (by simp)
    ac_rfl
  · refine (four _ _ _ _ _ _ _ _ _ ?_ (h3 a0) (h0 a1) (h1 a2) (h2 a3)).trans (by simp)
    ac_rfl
  · refine (four _ _ _ _ _ _ _ _ _ ?_ (h2 a0) (h3 a1) (h0 a2) (h1 a3)).trans (by simp)
    ac_rfl
  · refine (four _ _ _ _ _ _ _ _ _ ?_ (h1 a0) (h2 a1) (h3 a2) (h0 a3)).trans (by simp)
    ac_rfl

/-- The first rows of R104. -/
def mixRow : Fin 4 → Nat := ![2, 3, 1, 1]

def invMixRow : Fin 4 → Nat := ![14, 11, 13, 9]

theorem invMix_mix (a0 a1 a2 a3 b0 b1 b2 b3 : Byte) (hb : mixColumn 2 3 1 1 a0 a1 a2 a3 = [b0, b1, b2, b3]) :
    mixColumn 14 11 13 9 b0 b1 b2 b3 = [a0, a1, a2, a3] := by
  refine mixColumn_inverse invMixRow mixRow ?_ ?_ ?_ ?_ a0 a1 a2 a3 b0 b1 b2 b3 hb <;>
    exact byte_forall _ (by decide +kernel)

theorem mix_invMix (a0 a1 a2 a3 b0 b1 b2 b3 : Byte) (hb : mixColumn 14 11 13 9 a0 a1 a2 a3 = [b0, b1, b2, b3]) :
    mixColumn 2 3 1 1 b0 b1 b2 b3 = [a0, a1, a2, a3] := by
  refine mixColumn_inverse mixRow invMixRow ?_ ?_ ?_ ?_ a0 a1 a2 a3 b0 b1 b2 b3 hb <;>
    exact byte_forall _ (by decide +kernel)

/-- Four more bytes make one more column. -/
theorem columns_step (k0 k1 k2 k3 : Nat) (a0 a1 a2 a3 : Byte) :
    ∃ b0 b1 b2 b3, mixColumn k0 k1 k2 k3 a0 a1 a2 a3 = [b0, b1, b2, b3] := ⟨_, _, _, _, rfl⟩

theorem mixColumns_length (s : List Byte) (n : Nat) (h : s.length = 4 * n) : (mixColumns s).length = 4 * n := by
  induction n generalizing s with
  | zero => rw [List.length_eq_zero_iff.mp h]; rfl
  | succ n ih =>
    match s, h with
    | a0 :: a1 :: a2 :: a3 :: rest, h =>
      simp only [mixColumns, List.length_append, mixColumn, List.length_cons, List.length_nil]
      rw [ih rest (by simp at h; omega)]; omega

theorem invMixColumns_length (s : List Byte) (n : Nat) (h : s.length = 4 * n) :
    (invMixColumns s).length = 4 * n := by
  induction n generalizing s with
  | zero => rw [List.length_eq_zero_iff.mp h]; rfl
  | succ n ih =>
    match s, h with
    | a0 :: a1 :: a2 :: a3 :: rest, h =>
      simp only [invMixColumns, List.length_append, mixColumn, List.length_cons, List.length_nil]
      rw [ih rest (by simp at h; omega)]; omega

theorem invMixColumns_mixColumns (s : List Byte) (n : Nat) (h : s.length = 4 * n) :
    invMixColumns (mixColumns s) = s := by
  induction n generalizing s with
  | zero => rw [List.length_eq_zero_iff.mp h]; rfl
  | succ n ih =>
    match s, h with
    | a0 :: a1 :: a2 :: a3 :: rest, h =>
      obtain ⟨b0, b1, b2, b3, hb⟩ := columns_step 2 3 1 1 a0 a1 a2 a3
      rw [mixColumns, hb]
      simp only [List.cons_append, List.nil_append, invMixColumns]
      rw [invMix_mix _ _ _ _ _ _ _ _ hb, ih rest (by simp at h; omega)]
      rfl

theorem mixColumns_invMixColumns (s : List Byte) (n : Nat) (h : s.length = 4 * n) :
    mixColumns (invMixColumns s) = s := by
  induction n generalizing s with
  | zero => rw [List.length_eq_zero_iff.mp h]; rfl
  | succ n ih =>
    match s, h with
    | a0 :: a1 :: a2 :: a3 :: rest, h =>
      obtain ⟨b0, b1, b2, b3, hb⟩ := columns_step 14 11 13 9 a0 a1 a2 a3
      rw [invMixColumns, hb]
      simp only [List.cons_append, List.nil_append, mixColumns]
      rw [mix_invMix _ _ _ _ _ _ _ _ hb, ih rest (by simp at h; omega)]
      rfl

/-! ## The round keys (R105, R106) -/

theorem expandWord_length (w : List (List Byte)) : (expandWord w).length = w.length + 1 := by simp [expandWord]

theorem expandWords_length (n : Nat) (w : List (List Byte)) : (expandWords n w).length = w.length + n := by
  induction n generalizing w with
  | zero => rfl
  | succ n ih => rw [expandWords, ih, expandWord_length]; omega

theorem expandWord_words (w : List (List Byte)) (hl : 4 ≤ w.length) (h : ∀ x ∈ w, x.length = 4) :
    ∀ x ∈ expandWord w, x.length = 4 := by
  have hget : ∀ i < w.length, (w.getD i []).length = 4 := by
    intro i hi
    rw [List.getD_eq_getElem?_getD, List.getElem?_eq_getElem hi]
    exact h _ (List.getElem_mem hi)
  have h1 := hget (w.length - 1) (by omega)
  have h4 := hget (w.length - 4) (by omega)
  intro x hx
  rcases List.mem_append.mp hx with hx | hx
  · exact h x hx
  · rw [List.mem_singleton] at hx
    subst hx
    rw [xorBytes_length, h4]
    have hr : (rotWord (w.getD (w.length - 1) [])).length = 4 := by
      cases hw : w.getD (w.length - 1) [] with
      | nil => rw [hw] at h1; simp at h1
      | cons a l => rw [hw] at h1; simp only [List.length_cons] at h1; simp [rotWord]; omega
    split
    · rw [xorBytes_length, subBytes_length, hr]; rfl
    · rw [h1]; rfl

theorem expandWords_words (n : Nat) (w : List (List Byte)) (hl : 4 ≤ w.length) (h : ∀ x ∈ w, x.length = 4) :
    ∀ x ∈ expandWords n w, x.length = 4 := by
  induction n generalizing w with
  | zero => exact h
  | succ n ih => exact ih _ (by rw [expandWord_length]; omega) (expandWord_words w hl h)

/-- Every round key has 16 bytes. -/
theorem roundKey_length (k : Block) (r : Nat) (h : r ≤ 10) : (roundKey (keyWords k) r).length = 16 := by
  have hw : (keyWords k).length = 44 := by
    show (expandWords 40 _).length = _
    rw [expandWords_length]; rfl
  have h4 : ∀ x ∈ keyWords k, x.length = 4 := by
    apply expandWords_words
    · simp
    · intro x hx; simp at hx; rcases hx with rfl | rfl | rfl | rfl <;> simp
  have hget : ∀ i < 44, ((keyWords k).getD i []).length = 4 := by
    intro i hi
    rw [List.getD_eq_getElem?_getD, List.getElem?_eq_getElem (by omega)]
    exact h4 _ (List.getElem_mem _)
  simp only [roundKey, List.length_append, hget (4 * r) (by omega), hget (4 * r + 1) (by omega),
    hget (4 * r + 2) (by omega), hget (4 * r + 3) (by omega)]

@[simp] theorem addRoundKey_length (k : Block) (r : Nat) (s : List Byte) (h : r ≤ 10) (hs : s.length = 16) :
    (addRoundKey (roundKey (keyWords k) r) s).length = 16 := by
  rw [addRoundKey, xorBytes_length, roundKey_length k r h, hs]; rfl

theorem addRoundKey_twice (k : Block) (r : Nat) (s : List Byte) (h : r ≤ 10) (hs : s.length = 16) :
    addRoundKey (roundKey (keyWords k) r) (addRoundKey (roundKey (keyWords k) r) s) = s :=
  xorBytes_xorBytes s _ (by rw [roundKey_length k r h, hs])

/-! ## The rounds (R107, R108) -/

theorem encRound_length (k : Block) (r : Nat) (s : List Byte) (h : r ≤ 10) :
    (encRound (keyWords k) s r).length = 16 :=
  addRoundKey_length k r _ h (mixColumns_length _ 4 (shiftRows_length _))

theorem decRound_length (k : Block) (r : Nat) (s : List Byte) (h : r ≤ 10) :
    (decRound (keyWords k) s r).length = 16 := by
  refine invMixColumns_length _ 4 (addRoundKey_length k r _ h ?_)
  simp

/-- A round of `D` on the last half of a round of `E` gives the last half of the round before. -/
theorem decRound_undoes (k : Block) (r : Nat) (s : List Byte) (h : r ≤ 10) :
    decRound (keyWords k) (shiftRows (subBytes (encRound (keyWords k) s r))) r = shiftRows (subBytes s) := by
  have hl := encRound_length k r s h
  unfold decRound
  rw [invShiftRows_shiftRows _ (by rw [subBytes_length, hl]), invSubBytes_subBytes]
  unfold encRound
  rw [addRoundKey_twice k r _ h (mixColumns_length _ 4 (shiftRows_length _)),
    invMixColumns_mixColumns _ 4 (shiftRows_length _)]

/-- The other way round. -/
theorem encRound_undoes (k : Block) (r : Nat) (s : List Byte) (h : r ≤ 10) :
    encRound (keyWords k) (invSubBytes (invShiftRows (decRound (keyWords k) s r))) r =
      invSubBytes (invShiftRows s) := by
  have hl := decRound_length k r s h
  have hs : (invSubBytes (invShiftRows s)).length = 16 := by simp
  unfold encRound
  rw [subBytes_invSubBytes, shiftRows_invShiftRows _ hl]
  unfold decRound
  rw [mixColumns_invMixColumns _ 4 (addRoundKey_length k r _ h hs), addRoundKey_twice k r _ h hs]

end Sys2Proof.Machine
end

