-- ==== Sys2Proof/Laws/Encoding.lean ====
section
/-! SUPPORT. What the decoder and the encoder do with a word's fields (spec/30_encoding.md R80, R83). -/

namespace Sys2Proof

/-- The fields of a word say all of it: R80's table leaves no bit out. -/
theorem fieldsWord_wordFields (w : Word) : fieldsWord (wordFields w) = w := by
  apply BitVec.eq_of_getLsbD_eq
  intro i hi
  simp only [fieldsWord, wordFields, BitVec.getLsbD_append, BitVec.getLsbD_extractLsb', BitVec.getLsbD_ofBool]
  by_cases h4 : i < 4
  · simp [h4]
  by_cases h8 : i - 4 < 4
  · simp [h4, h8]; congr 1; omega
  by_cases h9 : i - 4 - 4 = 0
  · simp [h4, h8, h9]; congr 1; omega
  · simp [h4, h8, show ¬ i - 4 - 4 < 1 by omega, show i - 4 - 4 - 1 < 23 by omega]; congr 1; omega

/-- A word the decoder takes has zero in its reserved bits (R83). -/
theorem reserved_of_decode (w : Word) (i : Instr) (h : decode w = .ok i) :
    (wordFields w).res0 = 0 ∧ (wordFields w).res1 = 0 := by
  by_cases h0 : (wordFields w).res0 = 0#4
  · by_cases h1 : (wordFields w).res1 = 0#23
    · exact ⟨h0, h1⟩
    · simp [decode, decodeFields, CommandFields.res0Zero, CommandFields.res1Zero, h0, h1] at h
  · simp [decode, decodeFields, CommandFields.res0Zero, h0] at h

/-- With the reserved bits zero, the decoder's instruction stands for exactly the fields it was read from. -/
theorem fields_of_decodeFields (op : BitVec 4) (aadz : Bool) (i : Instr) :
    decodeFields { op := op, res0 := 0, aadz := aadz, res1 := 0 } = .ok i →
      ({ op := op, res0 := 0, aadz := aadz, res1 := 0 } : CommandFields) = i.fields := by
  cases i with
  | encGcm128 z => revert op aadz z; decide
  | decGcm128 z => revert op aadz z; decide
  | _ => revert op aadz; decide

end Sys2Proof
end

