-- ==== Sys2Proof/Laws/State.lean ====
section
/-! SUPPORT. One lemma per field of State and shared update: what the update leaves in the field. They are
true by unfolding once, so that no later proof unfolds a record update. -/

namespace Sys2Proof.Machine

/-! ## `setIgn` -/

@[simp] theorem setIgn_cfg (s : State) :
    s.setIgn.cfg = s.cfg := rfl

@[simp] theorem setIgn_status (s : State) :
    s.setIgn.status = { s.status with ign := true } := rfl

@[simp] theorem setIgn_resultLen (s : State) :
    s.setIgn.resultLen = s.resultLen := rfl

@[simp] theorem setIgn_faultAddr (s : State) :
    s.setIgn.faultAddr = s.faultAddr := rfl

@[simp] theorem setIgn_desc (s : State) :
    s.setIgn.desc = s.desc := rfl

@[simp] theorem setIgn_doneIe (s : State) :
    s.setIgn.doneIe = s.doneIe := rfl

@[simp] theorem setIgn_doneP (s : State) :
    s.setIgn.doneP = s.doneP := rfl

@[simp] theorem setIgn_eng (s : State) :
    s.setIgn.eng = s.eng := rfl

@[simp] theorem setIgn_mem (s : State) :
    s.setIgn.mem = s.mem := rfl

@[simp] theorem setIgn_hostCache (s : State) :
    s.setIgn.hostCache = s.hostCache := rfl

@[simp] theorem setIgn_inputs (s : State) :
    s.setIgn.inputs = s.inputs := rfl

@[simp] theorem setIgn_rdata (s : State) :
    s.setIgn.rdata = s.rdata := rfl

/-! ## `acceptCommand` -/

@[simp] theorem acceptCommand_cfg (op : CipherOp) (z : Bool) (s : State) :
    (acceptCommand op z s).cfg = s.cfg := rfl

@[simp] theorem acceptCommand_status (op : CipherOp) (z : Bool) (s : State) :
    (acceptCommand op z s).status = { state := .busy, err := .none, ign := false } := rfl

@[simp] theorem acceptCommand_resultLen (op : CipherOp) (z : Bool) (s : State) :
    (acceptCommand op z s).resultLen = 0 := rfl

@[simp] theorem acceptCommand_faultAddr (op : CipherOp) (z : Bool) (s : State) :
    (acceptCommand op z s).faultAddr = 0 := rfl

@[simp] theorem acceptCommand_desc (op : CipherOp) (z : Bool) (s : State) :
    (acceptCommand op z s).desc = s.desc := rfl

@[simp] theorem acceptCommand_doneIe (op : CipherOp) (z : Bool) (s : State) :
    (acceptCommand op z s).doneIe = s.doneIe := rfl

@[simp] theorem acceptCommand_doneP (op : CipherOp) (z : Bool) (s : State) :
    (acceptCommand op z s).doneP = false := rfl

@[simp] theorem acceptCommand_eng (op : CipherOp) (z : Bool) (s : State) :
    (acceptCommand op z s).eng = { s.eng with op := op.code, aadz := z, ph := .check } := rfl

@[simp] theorem acceptCommand_mem (op : CipherOp) (z : Bool) (s : State) :
    (acceptCommand op z s).mem = s.mem := rfl

@[simp] theorem acceptCommand_hostCache (op : CipherOp) (z : Bool) (s : State) :
    (acceptCommand op z s).hostCache = s.hostCache := rfl

@[simp] theorem acceptCommand_inputs (op : CipherOp) (z : Bool) (s : State) :
    (acceptCommand op z s).inputs = s.inputs := rfl

@[simp] theorem acceptCommand_rdata (op : CipherOp) (z : Bool) (s : State) :
    (acceptCommand op z s).rdata = s.rdata := rfl

/-! ## `illegalCommand` -/

@[simp] theorem illegalCommand_cfg (s : State) :
    (illegalCommand s).cfg = s.cfg := rfl

@[simp] theorem illegalCommand_status (s : State) :
    (illegalCommand s).status = { state := .doneErr, err := .illegalCommand, ign := s.status.ign } := rfl

@[simp] theorem illegalCommand_resultLen (s : State) :
    (illegalCommand s).resultLen = 0 := rfl

@[simp] theorem illegalCommand_faultAddr (s : State) :
    (illegalCommand s).faultAddr = 0 := rfl

@[simp] theorem illegalCommand_desc (s : State) :
    (illegalCommand s).desc = s.desc := rfl

@[simp] theorem illegalCommand_doneIe (s : State) :
    (illegalCommand s).doneIe = s.doneIe := rfl

@[simp] theorem illegalCommand_doneP (s : State) :
    (illegalCommand s).doneP = true := rfl

@[simp] theorem illegalCommand_eng (s : State) :
    (illegalCommand s).eng = s.eng := rfl

@[simp] theorem illegalCommand_mem (s : State) :
    (illegalCommand s).mem = s.mem := rfl

@[simp] theorem illegalCommand_hostCache (s : State) :
    (illegalCommand s).hostCache = s.hostCache := rfl

@[simp] theorem illegalCommand_inputs (s : State) :
    (illegalCommand s).inputs = s.inputs := rfl

@[simp] theorem illegalCommand_rdata (s : State) :
    (illegalCommand s).rdata = s.rdata := rfl

/-! ## `completeOk` -/

@[simp] theorem completeOk_cfg (n : Word) (s : State) :
    (completeOk n s).cfg = s.cfg := rfl

@[simp] theorem completeOk_status (n : Word) (s : State) :
    (completeOk n s).status = { s.status with state := .doneOk, err := .none } := rfl

@[simp] theorem completeOk_resultLen (n : Word) (s : State) :
    (completeOk n s).resultLen = n := rfl

@[simp] theorem completeOk_faultAddr (n : Word) (s : State) :
    (completeOk n s).faultAddr = s.faultAddr := rfl

@[simp] theorem completeOk_desc (n : Word) (s : State) :
    (completeOk n s).desc = s.desc := rfl

@[simp] theorem completeOk_doneIe (n : Word) (s : State) :
    (completeOk n s).doneIe = s.doneIe := rfl

@[simp] theorem completeOk_doneP (n : Word) (s : State) :
    (completeOk n s).doneP = true := rfl

@[simp] theorem completeOk_eng (n : Word) (s : State) :
    (completeOk n s).eng = Engine.cleared := rfl

@[simp] theorem completeOk_mem (n : Word) (s : State) :
    (completeOk n s).mem = s.mem := rfl

@[simp] theorem completeOk_hostCache (n : Word) (s : State) :
    (completeOk n s).hostCache = s.hostCache := rfl

@[simp] theorem completeOk_inputs (n : Word) (s : State) :
    (completeOk n s).inputs = s.inputs := rfl

@[simp] theorem completeOk_rdata (n : Word) (s : State) :
    (completeOk n s).rdata = s.rdata := rfl

/-! ## `completeErr` -/

@[simp] theorem completeErr_cfg (c : ErrorCode) (a : Addr) (s : State) :
    (completeErr c a s).cfg = s.cfg := rfl

@[simp] theorem completeErr_status (c : ErrorCode) (a : Addr) (s : State) :
    (completeErr c a s).status = { s.status with state := .doneErr, err := c } := rfl

@[simp] theorem completeErr_resultLen (c : ErrorCode) (a : Addr) (s : State) :
    (completeErr c a s).resultLen = 0 := rfl

@[simp] theorem completeErr_faultAddr (c : ErrorCode) (a : Addr) (s : State) :
    (completeErr c a s).faultAddr = (if c = .memoryFault then a else 0) := rfl

@[simp] theorem completeErr_desc (c : ErrorCode) (a : Addr) (s : State) :
    (completeErr c a s).desc = s.desc := rfl

@[simp] theorem completeErr_doneIe (c : ErrorCode) (a : Addr) (s : State) :
    (completeErr c a s).doneIe = s.doneIe := rfl

@[simp] theorem completeErr_doneP (c : ErrorCode) (a : Addr) (s : State) :
    (completeErr c a s).doneP = true := rfl

@[simp] theorem completeErr_eng (c : ErrorCode) (a : Addr) (s : State) :
    (completeErr c a s).eng = Engine.cleared := rfl

@[simp] theorem completeErr_mem (c : ErrorCode) (a : Addr) (s : State) :
    (completeErr c a s).mem = s.mem := rfl

@[simp] theorem completeErr_hostCache (c : ErrorCode) (a : Addr) (s : State) :
    (completeErr c a s).hostCache = s.hostCache := rfl

@[simp] theorem completeErr_inputs (c : ErrorCode) (a : Addr) (s : State) :
    (completeErr c a s).inputs = s.inputs := rfl

@[simp] theorem completeErr_rdata (c : ErrorCode) (a : Addr) (s : State) :
    (completeErr c a s).rdata = s.rdata := rfl

/-! ## `memoryFault` -/

@[simp] theorem memoryFault_cfg (a : Addr) (m : Memory) (s : State) :
    (memoryFault a m s).cfg = s.cfg := rfl

@[simp] theorem memoryFault_status (a : Addr) (m : Memory) (s : State) :
    (memoryFault a m s).status = { s.status with state := .doneErr, err := .memoryFault } := rfl

@[simp] theorem memoryFault_resultLen (a : Addr) (m : Memory) (s : State) :
    (memoryFault a m s).resultLen = 0 := rfl

@[simp] theorem memoryFault_faultAddr (a : Addr) (m : Memory) (s : State) :
    (memoryFault a m s).faultAddr = a := rfl

@[simp] theorem memoryFault_desc (a : Addr) (m : Memory) (s : State) :
    (memoryFault a m s).desc = s.desc := rfl

@[simp] theorem memoryFault_doneIe (a : Addr) (m : Memory) (s : State) :
    (memoryFault a m s).doneIe = s.doneIe := rfl

@[simp] theorem memoryFault_doneP (a : Addr) (m : Memory) (s : State) :
    (memoryFault a m s).doneP = true := rfl

@[simp] theorem memoryFault_eng (a : Addr) (m : Memory) (s : State) :
    (memoryFault a m s).eng = Engine.cleared := rfl

@[simp] theorem memoryFault_mem (a : Addr) (m : Memory) (s : State) :
    (memoryFault a m s).mem = m := rfl

@[simp] theorem memoryFault_hostCache (a : Addr) (m : Memory) (s : State) :
    (memoryFault a m s).hostCache = s.hostCache := rfl

@[simp] theorem memoryFault_inputs (a : Addr) (m : Memory) (s : State) :
    (memoryFault a m s).inputs = s.inputs := rfl

@[simp] theorem memoryFault_rdata (a : Addr) (m : Memory) (s : State) :
    (memoryFault a m s).rdata = s.rdata := rfl

/-! ## `acknowledge` -/

@[simp] theorem acknowledge_cfg (s : State) :
    (acknowledge s).cfg = s.cfg := rfl

@[simp] theorem acknowledge_status (s : State) :
    (acknowledge s).status = s.status := rfl

@[simp] theorem acknowledge_resultLen (s : State) :
    (acknowledge s).resultLen = s.resultLen := rfl

@[simp] theorem acknowledge_faultAddr (s : State) :
    (acknowledge s).faultAddr = s.faultAddr := rfl

@[simp] theorem acknowledge_desc (s : State) :
    (acknowledge s).desc = s.desc := rfl

@[simp] theorem acknowledge_doneIe (s : State) :
    (acknowledge s).doneIe = s.doneIe := rfl

@[simp] theorem acknowledge_doneP (s : State) :
    (acknowledge s).doneP = false := rfl

@[simp] theorem acknowledge_eng (s : State) :
    (acknowledge s).eng = s.eng := rfl

@[simp] theorem acknowledge_mem (s : State) :
    (acknowledge s).mem = s.mem := rfl

@[simp] theorem acknowledge_hostCache (s : State) :
    (acknowledge s).hostCache = s.hostCache := rfl

@[simp] theorem acknowledge_inputs (s : State) :
    (acknowledge s).inputs = s.inputs := rfl

@[simp] theorem acknowledge_rdata (s : State) :
    (acknowledge s).rdata = s.rdata := rfl

/-! ## `writeIrqEn` -/

@[simp] theorem writeIrqEn_cfg (v : Word) (s : State) :
    (writeIrqEn v s).cfg = s.cfg := rfl

@[simp] theorem writeIrqEn_status (v : Word) (s : State) :
    (writeIrqEn v s).status = s.status := rfl

@[simp] theorem writeIrqEn_resultLen (v : Word) (s : State) :
    (writeIrqEn v s).resultLen = s.resultLen := rfl

@[simp] theorem writeIrqEn_faultAddr (v : Word) (s : State) :
    (writeIrqEn v s).faultAddr = s.faultAddr := rfl

@[simp] theorem writeIrqEn_desc (v : Word) (s : State) :
    (writeIrqEn v s).desc = s.desc := rfl

@[simp] theorem writeIrqEn_doneIe (v : Word) (s : State) :
    (writeIrqEn v s).doneIe = v.getLsbD 0 := rfl

@[simp] theorem writeIrqEn_doneP (v : Word) (s : State) :
    (writeIrqEn v s).doneP = s.doneP := rfl

@[simp] theorem writeIrqEn_eng (v : Word) (s : State) :
    (writeIrqEn v s).eng = s.eng := rfl

@[simp] theorem writeIrqEn_mem (v : Word) (s : State) :
    (writeIrqEn v s).mem = s.mem := rfl

@[simp] theorem writeIrqEn_hostCache (v : Word) (s : State) :
    (writeIrqEn v s).hostCache = s.hostCache := rfl

@[simp] theorem writeIrqEn_inputs (v : Word) (s : State) :
    (writeIrqEn v s).inputs = s.inputs := rfl

@[simp] theorem writeIrqEn_rdata (v : Word) (s : State) :
    (writeIrqEn v s).rdata = s.rdata := rfl

/-! ## `assertReset` -/

@[simp] theorem assertReset_cfg (s : State) :
    (assertReset s).cfg = s.cfg := rfl

@[simp] theorem assertReset_status (s : State) :
    (assertReset s).status = { state := .idle, err := .none, ign := false } := rfl

@[simp] theorem assertReset_resultLen (s : State) :
    (assertReset s).resultLen = 0 := rfl

@[simp] theorem assertReset_faultAddr (s : State) :
    (assertReset s).faultAddr = 0 := rfl

@[simp] theorem assertReset_desc (s : State) :
    (assertReset s).desc = State.reset.desc := rfl

@[simp] theorem assertReset_doneIe (s : State) :
    (assertReset s).doneIe = false := rfl

@[simp] theorem assertReset_doneP (s : State) :
    (assertReset s).doneP = false := rfl

@[simp] theorem assertReset_eng (s : State) :
    (assertReset s).eng = Engine.cleared := rfl

@[simp] theorem assertReset_mem (s : State) :
    (assertReset s).mem = s.mem := rfl

@[simp] theorem assertReset_hostCache (s : State) :
    (assertReset s).hostCache = s.hostCache := rfl

@[simp] theorem assertReset_inputs (s : State) :
    (assertReset s).inputs = s.inputs := rfl

@[simp] theorem assertReset_rdata (s : State) :
    (assertReset s).rdata = s.rdata := rfl

/-! ## The busy test -/

@[simp] theorem busy_eq_true (s : State) : s.busy = true ↔ s.status.state = .busy := by
  simp [State.busy]

@[simp] theorem busy_eq_false (s : State) : s.busy = false ↔ s.status.state ≠ .busy := by
  simp [State.busy]

/-! ## The late error inside the engine (R228) -/

@[simp] theorem lateError_ph (c : ErrorCode) (e : Engine) : (lateError c e).ph = .zero := rfl
@[simp] theorem lateError_perr (c : ErrorCode) (e : Engine) : (lateError c e).perr = c := rfl
@[simp] theorem lateError_inq (c : ErrorCode) (e : Engine) : (lateError c e).inq = [] := rfl
@[simp] theorem lateError_outq (c : ErrorCode) (e : Engine) : (lateError c e).outq = [] := rfl
@[simp] theorem lateError_zeroPos (c : ErrorCode) (e : Engine) : (lateError c e).zeroPos = 0 := rfl
@[simp] theorem lateError_dstPos (c : ErrorCode) (e : Engine) : (lateError c e).dstPos = e.dstPos := rfl
@[simp] theorem lateError_op (c : ErrorCode) (e : Engine) : (lateError c e).op = e.op := rfl
@[simp] theorem lateError_aadz (c : ErrorCode) (e : Engine) : (lateError c e).aadz = e.aadz := rfl

/-! ## Descriptor registers: a write is read back, and no other register changes -/

@[simp] theorem Desc.get_set_same (d : Desc) (r : DescReg) (v : Word) : (d.set r v).get r = v := by
  cases r <;> rfl

theorem Desc.get_set_other (d : Desc) (r r' : DescReg) (v : Word) (h : r' ≠ r) :
    (d.set r v).get r' = d.get r' := by
  cases r <;> cases r' <;> first | rfl | exact absurd rfl h

/-- Two descriptors that agree on every register are equal. -/
theorem Desc.ext_get (d d' : Desc) (h : ∀ r, d.get r = d'.get r) : d = d' := by
  cases d; cases d'
  have := h .keyAddr; have := h .keyLen; have := h .ivAddr; have := h .ivLen; have := h .aadAddr
  have := h .aadLen; have := h .srcAddr; have := h .srcLen; have := h .dstAddr; have := h .dstCap
  simp_all [Desc.get]

/-! ## Operation codes -/

@[simp] theorem CipherOp.ofCode_code (op : CipherOp) : CipherOp.ofCode op.code = some op := by
  cases op <;> rfl

theorem CipherOp.code_of_ofCode (c : BitVec 4) (op : CipherOp) (h : CipherOp.ofCode c = some op) :
    op.code = c := by
  revert h; revert c; cases op <;> decide

theorem CipherOp.code_injective (a b : CipherOp) (h : a.code = b.code) : a = b := by
  cases a <;> cases b <;> first | rfl | exact absurd h (by decide)

end Sys2Proof.Machine
end

