-- ==== Sys2Proof/Laws/Engine.lean ====
section
/-! SUPPORT. What one engine step can do: the frame every step keeps, the internal registers each unit
leaves, and the outcomes of the steps that access memory (spec/44_stream_manager.md R214 to R229). -/

namespace Sys2Proof.Machine

/-! ## The frame of an engine step -/

/-- What no engine step changes: the parameters, the descriptor registers, DONE_IE, IGN, the host's
caches, its pending accesses and the data of its last read (R25, R39, R40, R75). -/
structure Frame (s t : State) : Prop where
  cfg : t.cfg = s.cfg
  desc : t.desc = s.desc
  doneIe : t.doneIe = s.doneIe
  ign : t.status.ign = s.status.ign
  cache : t.hostCache = s.hostCache
  inputs : t.inputs = s.inputs
  rdata : t.rdata = s.rdata

theorem Frame.refl (s : State) : Frame s s := ⟨rfl, rfl, rfl, rfl, rfl, rfl, rfl⟩

theorem Frame.eng (s : State) (e : Engine) : Frame s { s with eng := e } := ⟨rfl, rfl, rfl, rfl, rfl, rfl, rfl⟩

theorem Frame.memEng (s : State) (m : Memory) (e : Engine) : Frame s { s with mem := m, eng := e } :=
  ⟨rfl, rfl, rfl, rfl, rfl, rfl, rfl⟩

theorem Frame.completeOk (s : State) (n : Word) (m : Memory) (e : Engine) :
    Frame s (completeOk n { s with mem := m, eng := e }) := ⟨rfl, rfl, rfl, rfl, rfl, rfl, rfl⟩

theorem Frame.completeErr (s : State) (c : ErrorCode) (a : Addr) (m : Memory) :
    Frame s (completeErr c a { s with mem := m }) := ⟨rfl, rfl, rfl, rfl, rfl, rfl, rfl⟩

theorem Frame.memoryFault (s : State) (a : Addr) (m : Memory) : Frame s (memoryFault a m s) :=
  ⟨rfl, rfl, rfl, rfl, rfl, rfl, rfl⟩

theorem dataStep_not_refused (op : CipherOp) (s : State) (r : Refusal) : dataStep op s ≠ .refused r := by
  unfold dataStep xformStep
  split
  · split <;> simp
  · split
    · simp
    · split
      · simp
      · split <;> simp

/-- No phase step is refused. -/
theorem phaseStep_not_refused (op : CipherOp) (s : State) (r : Refusal) : phaseStep op s ≠ .refused r := by
  unfold phaseStep
  split
  case h_6 => unfold aadStep; split <;> simp
  case h_7 => exact dataStep_not_refused op s r
  case h_8 => unfold tagStep; split <;> simp
  all_goals simp

theorem gcmAad_frame (s : State) : Frame s (gcmAad s) := by
  unfold gcmAad
  dsimp only
  split
  · exact .eng s _
  · split
    · split
      · exact .eng s _
      · exact .memoryFault s _ _
    · exact .eng s _

theorem drainStep_frame (s : State) : Frame s (drainStep s) := by
  unfold drainStep
  split
  · exact .memEng s _ _
  · exact .memoryFault s _ _

theorem feedStep_frame (s : State) : Frame s (feedStep s) := by
  unfold feedStep
  split
  · exact .eng s _
  · exact .memoryFault s _ _

theorem encGcm128Tag_frame (s : State) : Frame s (encGcm128Tag s) := by
  unfold encGcm128Tag
  split
  · exact .completeOk s _ _ s.eng
  · exact .memoryFault s _ _

theorem decGcm128Tag_frame (s : State) : Frame s (decGcm128Tag s) := by
  unfold decGcm128Tag
  split
  · dsimp only
    split
    · exact .completeOk s _ s.mem _
    · exact .eng s _
  · exact .memoryFault s _ _

theorem zeroStep_frame (s : State) : Frame s (zeroStep s) := by
  unfold zeroStep
  dsimp only
  split
  · exact .completeErr s _ _ _
  · exact .memoryFault s _ _

theorem checkStep_frame (op : CipherOp) (s : State) : Frame s (checkStep op s) := by
  unfold checkStep
  split
  · exact .completeErr s _ _ s.mem
  · exact .eng s _

theorem loadKeyStep_frame (s : State) : Frame s (loadKeyStep s) := by
  unfold loadKeyStep
  split
  · exact .eng s _
  · exact .memoryFault s _ _

theorem loadIvStep_frame (op : CipherOp) (s : State) : Frame s (loadIvStep op s) := by
  unfold loadIvStep
  split
  · exact .eng s _
  · exact .memoryFault s _ _

theorem endOfData_frame (op : CipherOp) (s : State) : Frame s (endOfData op s) := by
  unfold endOfData
  split
  · exact .eng s _
  · exact .completeOk s _ s.mem s.eng

theorem dataStep_frame (op : CipherOp) (s t : State) (h : dataStep op s = .next t) : Frame s t := by
  unfold dataStep at h
  split at h
  · unfold xformStep at h
    split at h
    · cases h; exact .eng s _
    · cases h
  · split at h
    · cases h; exact drainStep_frame s
    · split at h
      · cases h; exact feedStep_frame s
      · split at h
        · cases h; exact drainStep_frame s
        · cases h; exact endOfData_frame op s

theorem phaseStep_frame (op : CipherOp) (s t : State) (h : phaseStep op s = .next t) : Frame s t := by
  unfold phaseStep at h
  split at h
  case h_1 => cases h; exact .refl s
  case h_2 => cases h; exact checkStep_frame op s
  case h_3 => cases h; exact loadKeyStep_frame s
  case h_4 => cases h; exact loadIvStep_frame op s
  case h_5 => cases h; exact .eng s _
  case h_6 =>
    unfold aadStep at h
    split at h
    · cases h; exact gcmAad_frame s
    · cases h
  case h_7 => exact dataStep_frame op s t h
  case h_8 =>
    unfold tagStep at h
    split at h <;> cases h
    · exact encGcm128Tag_frame s
    · exact decGcm128Tag_frame s
  case h_9 => cases h; exact zeroStep_frame s

/-- Every engine step keeps the frame. -/
theorem engineStep_frame (s t : State) (h : engineStep s = .next t) : Frame s t := by
  unfold engineStep at h
  split at h
  · cases h; exact .refl s
  · split at h
    · exact phaseStep_frame _ s t h
    · cases h

/-- No engine step is refused. -/
theorem engineStep_not_refused (s : State) (r : Refusal) : engineStep s ≠ .refused r := by
  unfold engineStep
  split
  · simp
  · split
    · exact phaseStep_not_refused _ s r
    · simp

/-- With no operation running the engine leaves the machine as it is (R15, R241, R269). -/
theorem engineStep_idle (s : State) (h : s.eng.ph = .none) : engineStep s = .next s := by
  simp [engineStep, h]

/-- The engine's step while an operation runs is its phase's. -/
theorem engineStep_active (s : State) (op : CipherOp) (h : s.eng.ph ≠ .none)
    (ho : CipherOp.ofCode s.eng.op = some op) : engineStep s = phaseStep op s := by
  simp [engineStep, h, ho]

/-! ## What a unit leaves in each register (R144, R145, R147, R164, R187, R188) -/

/-- As many keystream bytes are used as there are text bytes (R110). -/
theorem xorBytes_keystream_length (x : List Byte) (k : Block) :
    (xorBytes (x.take 16) (blockBytes k)).length = (x.take 16).length := by
  simp

@[simp] theorem encCbc128Full_op (e : Engine) : (encCbc128Full e).op = e.op := rfl
@[simp] theorem encCbc128Full_aadz (e : Engine) : (encCbc128Full e).aadz = e.aadz := rfl
@[simp] theorem encCbc128Full_ph (e : Engine) : (encCbc128Full e).ph = e.ph := rfl
@[simp] theorem encCbc128Full_key (e : Engine) : (encCbc128Full e).key = e.key := rfl
@[simp] theorem encCbc128Full_iv (e : Engine) : (encCbc128Full e).iv = e.iv := rfl
@[simp] theorem encCbc128Full_h (e : Engine) : (encCbc128Full e).h = e.h := rfl
@[simp] theorem encCbc128Full_ej0 (e : Engine) : (encCbc128Full e).ej0 = e.ej0 := rfl
@[simp] theorem encCbc128Full_tag (e : Engine) : (encCbc128Full e).tag = e.tag := rfl
@[simp] theorem encCbc128Full_tLen (e : Engine) : (encCbc128Full e).tLen = e.tLen := rfl
@[simp] theorem encCbc128Full_srcPos (e : Engine) : (encCbc128Full e).srcPos = e.srcPos := rfl
@[simp] theorem encCbc128Full_dstPos (e : Engine) : (encCbc128Full e).dstPos = e.dstPos := rfl
@[simp] theorem encCbc128Full_aadBytes (e : Engine) : (encCbc128Full e).aadBytes = e.aadBytes := rfl
@[simp] theorem encCbc128Full_perr (e : Engine) : (encCbc128Full e).perr = e.perr := rfl
@[simp] theorem encCbc128Full_tailDone (e : Engine) : (encCbc128Full e).tailDone = e.tailDone := rfl
@[simp] theorem encCbc128Full_tDone (e : Engine) :
    (encCbc128Full e).tDone = e.tDone + 16 := rfl
@[simp] theorem encCbc128Full_inq (e : Engine) : (encCbc128Full e).inq = e.inq.drop 16 := rfl
theorem encCbc128Full_outq_length (e : Engine) :
    (encCbc128Full e).outq.length = e.outq.length + 16 := by
  simp only [encCbc128Full]
  rw [List.length_append, blockBytes_length]

@[simp] theorem encCbc128Pad_op (e : Engine) : (encCbc128Pad e).op = e.op := rfl
@[simp] theorem encCbc128Pad_aadz (e : Engine) : (encCbc128Pad e).aadz = e.aadz := rfl
@[simp] theorem encCbc128Pad_ph (e : Engine) : (encCbc128Pad e).ph = e.ph := rfl
@[simp] theorem encCbc128Pad_key (e : Engine) : (encCbc128Pad e).key = e.key := rfl
@[simp] theorem encCbc128Pad_iv (e : Engine) : (encCbc128Pad e).iv = e.iv := rfl
@[simp] theorem encCbc128Pad_h (e : Engine) : (encCbc128Pad e).h = e.h := rfl
@[simp] theorem encCbc128Pad_ej0 (e : Engine) : (encCbc128Pad e).ej0 = e.ej0 := rfl
@[simp] theorem encCbc128Pad_tag (e : Engine) : (encCbc128Pad e).tag = e.tag := rfl
@[simp] theorem encCbc128Pad_tLen (e : Engine) : (encCbc128Pad e).tLen = e.tLen := rfl
@[simp] theorem encCbc128Pad_srcPos (e : Engine) : (encCbc128Pad e).srcPos = e.srcPos := rfl
@[simp] theorem encCbc128Pad_dstPos (e : Engine) : (encCbc128Pad e).dstPos = e.dstPos := rfl
@[simp] theorem encCbc128Pad_aadBytes (e : Engine) : (encCbc128Pad e).aadBytes = e.aadBytes := rfl
@[simp] theorem encCbc128Pad_perr (e : Engine) : (encCbc128Pad e).perr = e.perr := rfl
@[simp] theorem encCbc128Pad_tailDone (e : Engine) : (encCbc128Pad e).tailDone = true := rfl
@[simp] theorem encCbc128Pad_tDone (e : Engine) :
    (encCbc128Pad e).tDone = e.tDone + BitVec.ofNat 32 e.inq.length := rfl
@[simp] theorem encCbc128Pad_inq (e : Engine) : (encCbc128Pad e).inq = [] := rfl
theorem encCbc128Pad_outq_length (e : Engine) :
    (encCbc128Pad e).outq.length = e.outq.length + 16 := by
  simp only [encCbc128Pad]
  rw [List.length_append, blockBytes_length]

@[simp] theorem decCbc128Mid_op (e : Engine) : (decCbc128Mid e).op = e.op := rfl
@[simp] theorem decCbc128Mid_aadz (e : Engine) : (decCbc128Mid e).aadz = e.aadz := rfl
@[simp] theorem decCbc128Mid_ph (e : Engine) : (decCbc128Mid e).ph = e.ph := rfl
@[simp] theorem decCbc128Mid_key (e : Engine) : (decCbc128Mid e).key = e.key := rfl
@[simp] theorem decCbc128Mid_iv (e : Engine) : (decCbc128Mid e).iv = e.iv := rfl
@[simp] theorem decCbc128Mid_h (e : Engine) : (decCbc128Mid e).h = e.h := rfl
@[simp] theorem decCbc128Mid_ej0 (e : Engine) : (decCbc128Mid e).ej0 = e.ej0 := rfl
@[simp] theorem decCbc128Mid_tag (e : Engine) : (decCbc128Mid e).tag = e.tag := rfl
@[simp] theorem decCbc128Mid_tLen (e : Engine) : (decCbc128Mid e).tLen = e.tLen := rfl
@[simp] theorem decCbc128Mid_srcPos (e : Engine) : (decCbc128Mid e).srcPos = e.srcPos := rfl
@[simp] theorem decCbc128Mid_dstPos (e : Engine) : (decCbc128Mid e).dstPos = e.dstPos := rfl
@[simp] theorem decCbc128Mid_aadBytes (e : Engine) : (decCbc128Mid e).aadBytes = e.aadBytes := rfl
@[simp] theorem decCbc128Mid_perr (e : Engine) : (decCbc128Mid e).perr = e.perr := rfl
@[simp] theorem decCbc128Mid_tailDone (e : Engine) : (decCbc128Mid e).tailDone = e.tailDone := rfl
@[simp] theorem decCbc128Mid_tDone (e : Engine) :
    (decCbc128Mid e).tDone = e.tDone + 16 := rfl
@[simp] theorem decCbc128Mid_inq (e : Engine) : (decCbc128Mid e).inq = e.inq.drop 16 := rfl
theorem decCbc128Mid_outq_length (e : Engine) :
    (decCbc128Mid e).outq.length = e.outq.length + 16 := by
  simp only [decCbc128Mid]
  rw [List.length_append, blockBytes_length]

@[simp] theorem ctrUnit_op (w : Nat) (e : Engine) : (ctrUnit w e).op = e.op := rfl
@[simp] theorem ctrUnit_aadz (w : Nat) (e : Engine) : (ctrUnit w e).aadz = e.aadz := rfl
@[simp] theorem ctrUnit_ph (w : Nat) (e : Engine) : (ctrUnit w e).ph = e.ph := rfl
@[simp] theorem ctrUnit_key (w : Nat) (e : Engine) : (ctrUnit w e).key = e.key := rfl
@[simp] theorem ctrUnit_iv (w : Nat) (e : Engine) : (ctrUnit w e).iv = e.iv := rfl
@[simp] theorem ctrUnit_h (w : Nat) (e : Engine) : (ctrUnit w e).h = e.h := rfl
@[simp] theorem ctrUnit_ej0 (w : Nat) (e : Engine) : (ctrUnit w e).ej0 = e.ej0 := rfl
@[simp] theorem ctrUnit_tag (w : Nat) (e : Engine) : (ctrUnit w e).tag = e.tag := rfl
@[simp] theorem ctrUnit_tLen (w : Nat) (e : Engine) : (ctrUnit w e).tLen = e.tLen := rfl
@[simp] theorem ctrUnit_srcPos (w : Nat) (e : Engine) : (ctrUnit w e).srcPos = e.srcPos := rfl
@[simp] theorem ctrUnit_dstPos (w : Nat) (e : Engine) : (ctrUnit w e).dstPos = e.dstPos := rfl
@[simp] theorem ctrUnit_aadBytes (w : Nat) (e : Engine) : (ctrUnit w e).aadBytes = e.aadBytes := rfl
@[simp] theorem ctrUnit_perr (w : Nat) (e : Engine) : (ctrUnit w e).perr = e.perr := rfl
@[simp] theorem ctrUnit_tailDone (w : Nat) (e : Engine) : (ctrUnit w e).tailDone = e.tailDone := rfl
@[simp] theorem ctrUnit_tDone (w : Nat) (e : Engine) :
    (ctrUnit w e).tDone = e.tDone + BitVec.ofNat 32 (e.inq.take 16).length := rfl
@[simp] theorem ctrUnit_inq (w : Nat) (e : Engine) : (ctrUnit w e).inq = e.inq.drop 16 := rfl
theorem ctrUnit_outq_length (w : Nat) (e : Engine) :
    (ctrUnit w e).outq.length = e.outq.length + (e.inq.take 16).length := by
  simp only [ctrUnit]
  rw [List.length_append, xorBytes_keystream_length]

@[simp] theorem encGcm128Unit_op (e : Engine) : (encGcm128Unit e).op = e.op := rfl
@[simp] theorem encGcm128Unit_aadz (e : Engine) : (encGcm128Unit e).aadz = e.aadz := rfl
@[simp] theorem encGcm128Unit_ph (e : Engine) : (encGcm128Unit e).ph = e.ph := rfl
@[simp] theorem encGcm128Unit_key (e : Engine) : (encGcm128Unit e).key = e.key := rfl
@[simp] theorem encGcm128Unit_iv (e : Engine) : (encGcm128Unit e).iv = e.iv := rfl
@[simp] theorem encGcm128Unit_h (e : Engine) : (encGcm128Unit e).h = e.h := rfl
@[simp] theorem encGcm128Unit_ej0 (e : Engine) : (encGcm128Unit e).ej0 = e.ej0 := rfl
@[simp] theorem encGcm128Unit_tag (e : Engine) : (encGcm128Unit e).tag = e.tag := rfl
@[simp] theorem encGcm128Unit_tLen (e : Engine) : (encGcm128Unit e).tLen = e.tLen := rfl
@[simp] theorem encGcm128Unit_srcPos (e : Engine) : (encGcm128Unit e).srcPos = e.srcPos := rfl
@[simp] theorem encGcm128Unit_dstPos (e : Engine) : (encGcm128Unit e).dstPos = e.dstPos := rfl
@[simp] theorem encGcm128Unit_aadBytes (e : Engine) : (encGcm128Unit e).aadBytes = e.aadBytes := rfl
@[simp] theorem encGcm128Unit_perr (e : Engine) : (encGcm128Unit e).perr = e.perr := rfl
@[simp] theorem encGcm128Unit_tailDone (e : Engine) : (encGcm128Unit e).tailDone = e.tailDone := rfl
@[simp] theorem encGcm128Unit_tDone (e : Engine) :
    (encGcm128Unit e).tDone = e.tDone + BitVec.ofNat 32 (e.inq.take 16).length := rfl
@[simp] theorem encGcm128Unit_inq (e : Engine) : (encGcm128Unit e).inq = e.inq.drop 16 := rfl
theorem encGcm128Unit_outq_length (e : Engine) :
    (encGcm128Unit e).outq.length = e.outq.length + (e.inq.take 16).length := by
  simp only [encGcm128Unit]
  rw [List.length_append, xorBytes_keystream_length]

@[simp] theorem decGcm128Unit_op (e : Engine) : (decGcm128Unit e).op = e.op := rfl
@[simp] theorem decGcm128Unit_aadz (e : Engine) : (decGcm128Unit e).aadz = e.aadz := rfl
@[simp] theorem decGcm128Unit_ph (e : Engine) : (decGcm128Unit e).ph = e.ph := rfl
@[simp] theorem decGcm128Unit_key (e : Engine) : (decGcm128Unit e).key = e.key := rfl
@[simp] theorem decGcm128Unit_iv (e : Engine) : (decGcm128Unit e).iv = e.iv := rfl
@[simp] theorem decGcm128Unit_h (e : Engine) : (decGcm128Unit e).h = e.h := rfl
@[simp] theorem decGcm128Unit_ej0 (e : Engine) : (decGcm128Unit e).ej0 = e.ej0 := rfl
@[simp] theorem decGcm128Unit_tag (e : Engine) : (decGcm128Unit e).tag = e.tag := rfl
@[simp] theorem decGcm128Unit_tLen (e : Engine) : (decGcm128Unit e).tLen = e.tLen := rfl
@[simp] theorem decGcm128Unit_srcPos (e : Engine) : (decGcm128Unit e).srcPos = e.srcPos := rfl
@[simp] theorem decGcm128Unit_dstPos (e : Engine) : (decGcm128Unit e).dstPos = e.dstPos := rfl
@[simp] theorem decGcm128Unit_aadBytes (e : Engine) : (decGcm128Unit e).aadBytes = e.aadBytes := rfl
@[simp] theorem decGcm128Unit_perr (e : Engine) : (decGcm128Unit e).perr = e.perr := rfl
@[simp] theorem decGcm128Unit_tailDone (e : Engine) : (decGcm128Unit e).tailDone = e.tailDone := rfl
@[simp] theorem decGcm128Unit_tDone (e : Engine) :
    (decGcm128Unit e).tDone = e.tDone + BitVec.ofNat 32 (e.inq.take 16).length := rfl
@[simp] theorem decGcm128Unit_inq (e : Engine) : (decGcm128Unit e).inq = e.inq.drop 16 := rfl
theorem decGcm128Unit_outq_length (e : Engine) :
    (decGcm128Unit e).outq.length = e.outq.length + (e.inq.take 16).length := by
  simp only [decGcm128Unit]
  rw [List.length_append, xorBytes_keystream_length]

end Sys2Proof.Machine
end

