-- ==== Sys2Proof/Laws/HostCache.lean ====
section
/-! SUPPORT. What the host's caches hold after each operation on them, and what the host's and the other bus masters'
accesses to system memory can do (spec/20_memory.md R73, R75, R77). -/

namespace Sys2Proof.Machine

/-! ## The caches -/

theorem HostCache.wf_nil : HostCache.wf [] := List.Pairwise.nil

/-- What stands in the caches after a byte is put there: that byte, or one that stood there before. -/
theorem HostCache.mem_put (c : HostCache) (x z : CacheByte) (h : z ∈ c.put x) : z = x ∨ z ∈ c := by
  induction c with
  | nil => simpa [HostCache.put] using h
  | cons y c ih =>
    unfold HostCache.put at h
    split at h
    · simpa using h
    · split at h
      · rcases List.mem_cons.mp h with h | h
        · exact .inl h
        · exact .inr (List.mem_cons_of_mem _ h)
      · rcases List.mem_cons.mp h with h | h
        · exact .inr (h ▸ List.mem_cons_self)
        · exact (ih h).imp_right (List.mem_cons_of_mem _)

theorem HostCache.put_wf (c : HostCache) (x : CacheByte) (h : HostCache.wf c) : HostCache.wf (c.put x) := by
  induction c with
  | nil => simp [HostCache.put, HostCache.wf]
  | cons y c ih =>
    obtain ⟨hy, hc⟩ := List.pairwise_cons.mp h
    unfold HostCache.put
    split
    case isTrue hlt =>
      refine List.pairwise_cons.mpr ⟨fun z hz => ?_, h⟩
      rcases List.mem_cons.mp hz with rfl | hz
      · exact hlt
      · exact Nat.lt_trans hlt (hy z hz)
    case isFalse hlt =>
      split
      case isTrue heq => exact List.pairwise_cons.mpr ⟨fun z hz => heq ▸ hy z hz, hc⟩
      case isFalse hne =>
        have hne' : x.addr.toNat ≠ y.addr.toNat := fun e => hne (BitVec.eq_of_toNat_eq e)
        refine List.pairwise_cons.mpr ⟨fun z hz => ?_, ih hc⟩
        rcases HostCache.mem_put c x z hz with rfl | hz
        · omega
        · exact hy z hz

theorem HostCache.without_wf (c : HostCache) (a : Addr) (h : HostCache.wf c) : HostCache.wf (c.without a) :=
  List.Pairwise.filter _ h

@[simp] theorem HostCache.held_put_same (c : HostCache) (x : CacheByte) : (c.put x).held x.addr = some x := by
  induction c with
  | nil => simp [HostCache.put, HostCache.held]
  | cons y c ih =>
    unfold HostCache.put
    split
    · simp [HostCache.held]
    · split
      · simp [HostCache.held]
      case isFalse hne => simp [HostCache.held, Ne.symm hne, ih]

theorem HostCache.held_put_other (c : HostCache) (x : CacheByte) (a : Addr) (h : a ≠ x.addr) :
    (c.put x).held a = c.held a := by
  induction c with
  | nil => simp [HostCache.put, HostCache.held, Ne.symm h]
  | cons y c ih =>
    unfold HostCache.put
    split
    · simp [HostCache.held, Ne.symm h]
    · split
      case isTrue heq => simp [HostCache.held, ← heq, Ne.symm h]
      case isFalse => simp [HostCache.held, ih]

@[simp] theorem HostCache.held_without_same (c : HostCache) (a : Addr) : (c.without a).held a = none := by
  induction c with
  | nil => rfl
  | cons y c ih =>
    simp only [HostCache.without, ne_eq, decide_not] at ih
    by_cases h : y.addr = a <;> simp [HostCache.without, h, HostCache.held, ih]

theorem HostCache.held_without_other (c : HostCache) (a b : Addr) (h : b ≠ a) :
    (c.without a).held b = c.held b := by
  induction c with
  | nil => rfl
  | cons y c ih =>
    simp only [HostCache.without, ne_eq, decide_not] at ih
    by_cases hy : y.addr = a
    · simp [HostCache.without, hy, HostCache.held, ih, Ne.symm h]
    · simp [HostCache.without, hy, HostCache.held, ih]

/-- A byte the caches hold is the one that stands under its address. -/
theorem HostCache.held_addr (c : HostCache) (a : Addr) (x : CacheByte) (h : c.held a = some x) : x.addr = a := by
  induction c with
  | nil => cases h
  | cons y c ih =>
    unfold HostCache.held at h
    split at h
    case isTrue hy => cases h; exact hy
    case isFalse => exact ih h

/-! ## The accesses -/

/-- What an access to system memory can change: memory, the host's caches and the data of the host's last read, the
first two keeping their form. -/
def DataChange (s t : State) : Prop :=
  ∃ (m : Memory) (c : HostCache) (d : Word), t = { s with mem := m, hostCache := c, rdata := d } ∧
    (m = s.mem ∨ ∃ a b, m = s.mem.setByte a b ∧ writeForbidden s a = false) ∧
    (c = s.hostCache ∨ (∃ x, c = s.hostCache.put x) ∨ ∃ a, c = s.hostCache.without a)

theorem DataChange.refl (s : State) : DataChange s s := ⟨s.mem, s.hostCache, s.rdata, rfl, .inl rfl, .inl rfl⟩

theorem storeByte_next {a : Addr} {b : Byte} {s t : State} (h : storeByte a b s = .next t) :
    writeForbidden s a = false ∧ t = { s with mem := s.mem.setByte a b } := by
  unfold storeByte at h
  split at h
  · cases h
  case isFalse hf => cases h; exact ⟨by simpa using hf, rfl⟩

theorem storeByte_change {a : Addr} {b : Byte} {s t : State} (h : storeByte a b s = .next t) : DataChange s t := by
  obtain ⟨hf, rfl⟩ := storeByte_next h
  exact ⟨_, s.hostCache, s.rdata, rfl, .inr ⟨a, b, rfl, hf⟩, .inl rfl⟩

theorem hostMemWrite_change {a : Addr} {b : Byte} {s t : State} (h : hostMemWrite a b s = .next t) :
    DataChange s t := by
  unfold hostMemWrite at h
  split at h
  · exact storeByte_change h
  · split at h
    · cases h
    · cases h; exact ⟨s.mem, _, s.rdata, rfl, .inl rfl, .inr (.inl ⟨_, rfl⟩)⟩

theorem cacheFetch_next {a : Addr} {s t : State} (h : cacheFetch a s = .next t) :
    t = s ∨ t = { s with hostCache := s.hostCache.put { addr := a, value := s.mem.byteAt a, dirty := false } } := by
  unfold cacheFetch at h
  split at h
  · cases h; exact .inl rfl
  · split at h
    · cases h; exact .inl rfl
    · split at h
      · cases h
      · cases h; exact .inr rfl

theorem cacheFetch_change {a : Addr} {s t : State} (h : cacheFetch a s = .next t) : DataChange s t := by
  rcases cacheFetch_next h with rfl | rfl
  · exact .refl _
  · exact ⟨s.mem, _, s.rdata, rfl, .inl rfl, .inr (.inl ⟨_, rfl⟩)⟩

theorem hostMemRead_change {a : Addr} {s t : State} (h : hostMemRead a s = .next t) : DataChange s t := by
  unfold hostMemRead at h
  split at h
  · cases h
  · split at h
    case h_1 u hu =>
      cases h
      obtain ⟨m, c, d, rfl, hm, hc⟩ := cacheFetch_change hu
      exact ⟨m, c, _, rfl, hm, hc⟩
    · cases h
    · cases h

theorem cacheClean_change {a : Addr} {s t : State} (h : cacheClean a s = .next t) : DataChange s t := by
  unfold cacheClean at h
  split at h
  · cases h; exact .refl _
  · split at h
    · cases h; exact .refl _
    · split at h
      · obtain ⟨hf, rfl⟩ := storeByte_next h
        exact ⟨_, _, s.rdata, rfl, .inr ⟨a, _, rfl, hf⟩, .inr (.inl ⟨_, rfl⟩)⟩
      · cases h; exact .refl _

theorem cacheInvalidate_change (a : Addr) (s : State) : DataChange s (cacheInvalidate a s) := by
  unfold cacheInvalidate
  split
  · exact .refl _
  · exact ⟨s.mem, _, s.rdata, rfl, .inl rfl, .inr (.inr ⟨a, rfl⟩)⟩

theorem masterWrite_change {m : Master} {a : Addr} {b : Byte} {s t : State} (h : masterWrite m a b s = .next t) :
    DataChange s t := by
  unfold masterWrite at h
  split at h
  · exact storeByte_change h
  · cases h; exact .refl _

theorem masterRead_next {m : Master} {a : Addr} {s t : State} (h : masterRead m a s = .next t) : t = s := by
  unfold masterRead at h
  split at h <;> cases h
  rfl

/-- No command faults when it is written. -/
theorem exec_ne_fault (i : Instr) (s : State) (f : Fault) : exec i s ≠ .fault f := by
  intro h
  cases i <;> cases h

theorem storeByte_ne_fault (a : Addr) (b : Byte) (s : State) (f : Fault) : storeByte a b s ≠ .fault f := by
  unfold storeByte; split <;> simp

theorem cacheFetch_ne_fault (a : Addr) (s : State) (f : Fault) : cacheFetch a s ≠ .fault f := by
  unfold cacheFetch; repeat' split
  all_goals simp

/-- No access of the host or of another bus master faults: a fault is the engine's alone. -/
theorem hostAct_ne_fault (op : HostOp) (s : State) (f : Fault) : hostAct op s ≠ .fault f := by
  cases op <;> simp only [hostAct]
  case write => unfold busWrite writeReg writeCmd; repeat' split
                all_goals first | exact exec_ne_fault _ _ _ | simp
  case read => unfold busRead; split <;> simp
  case memWrite => unfold hostMemWrite; repeat' split
                   all_goals first | exact storeByte_ne_fault _ _ _ _ | simp
  case memRead a =>
    unfold hostMemRead; repeat' split
    case h_2 hu => exact absurd hu (cacheFetch_ne_fault a s _)
    all_goals simp
  case cacheFetch => exact cacheFetch_ne_fault _ _ _
  case cacheClean => unfold cacheClean; repeat' split
                     all_goals first | exact storeByte_ne_fault _ _ _ _ | simp
  case masterWrite => unfold masterWrite; split <;> first | exact storeByte_ne_fault _ _ _ _ | simp
  case masterRead => unfold masterRead; split <;> simp
  all_goals simp

end Sys2Proof.Machine
end

