-- ==== Sys2Proof/Laws/Modes.lean ====
section
/-! SUPPORT. The reference functions work block by block from the front, and their lengths (spec
R140, R141, R160, R119). -/

namespace Sys2Proof.Machine

/-! ## CBC -/

/-- The chaining value after encrypting blocks (R140). -/
def cbcEncChain (k : Block) (c : Block) (qs : List Block) : Block := qs.foldl (fun c q => blockE k (q ^^^ c)) c

theorem cbcEncBlocks_append (k c : Block) (xs ys : List Block) :
    cbcEncBlocks k c (xs ++ ys) = cbcEncBlocks k c xs ++ cbcEncBlocks k (cbcEncChain k c xs) ys := by
  induction xs generalizing c with
  | nil => rfl
  | cons x xs ih => simp [cbcEncBlocks, cbcEncChain, ih]

/-- The chaining value after decrypting blocks: the last ciphertext block (R141). -/
def cbcDecChain (c : Block) (xs : List Block) : Block := xs.foldl (fun _ x => x) c

theorem cbcDecBlocks_append (k c : Block) (xs ys : List Block) :
    cbcDecBlocks k c (xs ++ ys) = cbcDecBlocks k c xs ++ cbcDecBlocks k (cbcDecChain c xs) ys := by
  induction xs generalizing c with
  | nil => rfl
  | cons x xs ih => simp [cbcDecBlocks, cbcDecChain, ih]

@[simp] theorem cbcEncBlocks_length (k c : Block) (qs : List Block) :
    (cbcEncBlocks k c qs).length = qs.length := by
  induction qs generalizing c with
  | nil => rfl
  | cons q qs ih => simp [cbcEncBlocks, ih]

@[simp] theorem cbcDecBlocks_length (k c : Block) (xs : List Block) :
    (cbcDecBlocks k c xs).length = xs.length := by
  induction xs generalizing c with
  | nil => rfl
  | cons x xs ih => simp [cbcDecBlocks, ih]

@[simp] theorem flatMap_blockBytes_length (bs : List Block) : (bs.flatMap blockBytes).length = 16 * bs.length := by
  induction bs with
  | nil => rfl
  | cons b bs ih => simp [ih]; omega

/-- How many pieces there are. -/
theorem chunks_count (bs : List Byte) : (chunks bs).length = (bs.length + 15) / 16 := by
  induction hn : bs.length using Nat.strongRecOn generalizing bs with
  | ind n ih =>
    by_cases hx : bs = []
    · subst hx; simp at hn; subst hn; simp
    · have := List.length_pos_iff.mpr hx
      rw [chunks_of_ne_nil bs hx, List.length_cons, ih (bs.drop 16).length (by simp; omega) _ rfl]
      simp only [List.length_drop]
      omega

theorem padPkcs_length (p : List Byte) : (padPkcs p).length = 16 * (p.length / 16 + 1) := by
  simp only [padPkcs, padLen, List.length_append, List.length_replicate]
  omega

/-- `CBC_ENC` gives `|P| + padlen(|P|)` bytes (R140). -/
theorem cbcEnc_length (k iv : Block) (p : List Byte) : (cbcEnc k iv p).length = 16 * (p.length / 16 + 1) := by
  simp only [cbcEnc, flatMap_blockBytes_length, cbcEncBlocks_length, List.length_map, chunks_count,
    padPkcs_length]
  omega

/-! ## The counter modes -/

/-- The counter block after a number of pieces (R160). -/
def ctrAfter (w : Nat) (cb : Block) (xs : List (List Byte)) : Block := xs.foldl (fun cb _ => incBlock w cb) cb

theorem ctrPieces_append (w : Nat) (k cb : Block) (xs ys : List (List Byte)) :
    ctrPieces w k cb (xs ++ ys) = ctrPieces w k cb xs ++ ctrPieces w k (ctrAfter w cb xs) ys := by
  induction xs generalizing cb with
  | nil => rfl
  | cons x xs ih => simp [ctrPieces, ctrAfter, ih]

theorem ctrPieces_length (w : Nat) (k cb : Block) (xs : List (List Byte)) (h : ∀ x ∈ xs, x.length ≤ 16) :
    (ctrPieces w k cb xs).length = xs.flatten.length := by
  induction xs generalizing cb with
  | nil => rfl
  | cons x xs ih =>
    have hx := h x (List.mem_cons_self)
    simp only [ctrPieces, List.length_append, xorBytes_length, blockBytes_length, List.flatten_cons,
      ih (incBlock w cb) fun y hy => h y (List.mem_cons_of_mem _ hy)]
    omega

theorem chunks_length_le (bs : List Byte) : ∀ c ∈ chunks bs, c.length ≤ 16 := by
  induction hn : bs.length using Nat.strongRecOn generalizing bs with
  | ind n ih =>
    by_cases hx : bs = []
    · simp [hx]
    · have := List.length_pos_iff.mpr hx
      rw [chunks_of_ne_nil bs hx]
      intro c hc
      rcases List.mem_cons.mp hc with rfl | hc
      · simp
      · exact ih (bs.drop 16).length (by simp; omega) _ rfl c hc

/-- The counter modes keep the length (R160). -/
@[simp] theorem ctr_length (w : Nat) (k iv : Block) (x : List Byte) : (ctr w k iv x).length = x.length := by
  rw [ctr, ctrPieces_length w k iv _ (chunks_length_le x), chunks_flatten]

@[simp] theorem gctr_length (k cb : Block) (x : List Byte) : (gctr k cb x).length = x.length := by
  rw [gctr, ctrPieces_length 32 k cb _ (chunks_length_le x), chunks_flatten]

/-! ## GHASH -/

/-- Absorbing the blocks of a string from an accumulator (R119). -/
def ghashFrom (h y : Block) (x : List Byte) : Block := (chunks x).foldl (fun y c => ghashStep h y (zpadBlock c)) y

theorem foldl_zpadBlock (h y : Block) (cs : List (List Byte)) :
    cs.foldl (fun y c => ghashStep h y (zpadBlock c)) y = (cs.map zpadBlock).foldl (ghashStep h) y := by
  rw [List.foldl_map]

theorem foldl_bytesBlock (h y : Block) (cs : List (List Byte)) :
    cs.foldl (fun y c => ghashStep h y (bytesBlock c)) y = (cs.map bytesBlock).foldl (ghashStep h) y := by
  rw [List.foldl_map]

/-- The hash of R123 absorbed piece by piece: AAD, ciphertext, length block (R119, R120). -/
theorem ghash_incremental (h : Block) (a c : List Byte) (l : Block) :
    ghash h (zpadBytes a ++ zpadBytes c ++ blockBytes l) =
      ghashStep h (ghashFrom h (ghashFrom h 0 a) c) l := by
  have hl : chunks (blockBytes l) = [blockBytes l] :=
    chunks_short _ (by intro hc; have := congrArg List.length hc; simp at this) (by simp)
  rw [ghash, foldl_bytesBlock, List.append_assoc, chunks_append _ _ (zpadBytes_length a),
    chunks_append _ _ (zpadBytes_length c), List.map_append, List.map_append, chunks_zpadBytes,
    chunks_zpadBytes, hl, List.foldl_append, List.foldl_append]
  simp [ghashFrom, foldl_zpadBlock]

/-- Absorbing a string of whole blocks and then another is absorbing both (R119). -/
theorem ghashFrom_append (h y : Block) (a c : List Byte) (ha : a.length % 16 = 0) :
    ghashFrom h y (a ++ c) = ghashFrom h (ghashFrom h y a) c := by
  simp [ghashFrom, chunks_append a c ha]

/-- The tag of R123 from the accumulator the engine builds. -/
theorem gcmTagOf_eq (k : Block) (n : BitVec 96) (a c : List Byte) :
    gcmTagOf k n a c = blockE k (j0Block n) ^^^
      ghashStep (blockE k 0) (ghashFrom (blockE k 0) (ghashFrom (blockE k 0) 0 a) c)
        (lengthBlock a.length c.length) := by
  rw [gcmTagOf, ghash_incremental]

/-! ## One block at a time -/

/-- Padding that is consistent is 1 to 16 bytes long (R113). -/
theorem padLen_take {b : Block} (h : unpadOk b = true) : 1 ≤ (blockByte b 15).toNat ∧
    (blockByte b 15).toNat ≤ 16 := by
  simp only [unpadOk, Bool.and_eq_true, decide_eq_true_eq] at h
  exact h.1

/-- CBC_ENC from its first block (R140). -/
theorem cbcEnc_cons (k c : Block) (x : List Byte) (h : 16 ≤ x.length) :
    cbcEnc k c x = blockBytes (blockE k (bytesBlock (x.take 16) ^^^ c)) ++ cbcEnc k (blockE k (bytesBlock (x.take 16) ^^^ c)) (x.drop 16) := by
  have hx : x = x.take 16 ++ x.drop 16 := (List.take_append_drop 16 x).symm
  have hp : padPkcs x = x.take 16 ++ padPkcs (x.drop 16) := by
    simp only [padPkcs, ← List.append_assoc, List.take_append_drop]
    have : padLen (x.drop 16).length = padLen x.length := by simp [padLen]; omega
    rw [this]
  have hl : (x.take 16).length = 16 := by simp; omega
  unfold cbcEnc
  rw [hp, chunks_append _ _ (by simp; omega), chunks_short (x.take 16) (by intro hc; rw [hc] at hl; simp at hl) (by simp)]
  simp [cbcEncBlocks]

/-- CBC_ENC of less than a block: the padding block (R140). -/
theorem cbcEnc_last (k c : Block) (x : List Byte) (h : x.length < 16) :
    cbcEnc k c x = blockBytes (blockE k (bytesBlock (x ++ List.replicate (16 - x.length) (BitVec.ofNat 8 (16 - x.length))) ^^^ c)) := by
  have hp : padPkcs x = x ++ List.replicate (16 - x.length) (BitVec.ofNat 8 (16 - x.length)) := by
    have : padLen x.length = 16 - x.length := by simp [padLen]; omega
    simp only [padPkcs, this]
  unfold cbcEnc
  rw [hp, chunks_short _ (by intro hc; have := congrArg List.length hc; simp at this; omega) (by simp; omega)]
  simp [cbcEncBlocks]

/-- Some block in, some block out. -/
theorem cbcDecBlocks_ne_nil (k c : Block) (xs : List Block) (h : xs ≠ []) : cbcDecBlocks k c xs ≠ [] := by
  cases xs with
  | nil => exact absurd rfl h
  | cons x xs => simp [cbcDecBlocks]

/-- CBC_DEC from its first block (R141). -/
theorem cbcDec_cons (k c : Block) (x : List Byte) (h : 16 < x.length) (hm : x.length % 16 = 0) :
    cbcDec k c x = (cbcDec k (bytesBlock (x.take 16)) (x.drop 16)).map (blockBytes (blockD k (bytesBlock (x.take 16)) ^^^ c) ++ ·) := by
  have hne : x.drop 16 ≠ [] := by intro hc; have := congrArg List.length hc; simp at this; omega
  have h1 : ¬ (x.length = 0 ∨ x.length % 16 ≠ 0) := by omega
  have h2 : ¬ ((x.drop 16).length = 0 ∨ (x.drop 16).length % 16 ≠ 0) := by simp; omega
  unfold cbcDec
  rw [if_neg h1, if_neg h2]
  rw [chunks_of_ne_nil x (by intro hc; simp [hc] at h)]
  simp only [List.map_cons, cbcDecBlocks]
  have hl : ∀ (a : Block) (l : List Block), l ≠ [] → (a :: l).getLastD 0 = l.getLastD 0 := by
    intro a l hl
    cases l with
    | nil => exact absurd rfl hl
    | cons b l => simp [List.getLastD]
  have hnn : cbcDecBlocks k (bytesBlock (x.take 16)) ((chunks (x.drop 16)).map bytesBlock) ≠ [] := by
    apply cbcDecBlocks_ne_nil
    rw [chunks_of_ne_nil _ hne]; simp
  rw [hl _ _ hnn]
  split
  case isTrue hu =>
    have hv := padLen_take hu
    simp only [Option.map_some, List.flatMap_cons, Option.some.injEq]
    generalize (blockByte _ 15).toNat = v at hv ⊢
    rw [List.take_append, List.take_of_length_le (by rw [blockBytes_length]; omega), blockBytes_length, List.length_drop]
    congr 2
    omega
  case isFalse => rfl

/-- CBC_DEC of one block (R141). -/
theorem cbcDec_last (k c : Block) (x : List Byte) (h : x.length = 16) :
    cbcDec k c x = (let p := blockD k (bytesBlock x) ^^^ c
      if unpadOk p then some ((blockBytes p).take (16 - (blockByte p 15).toNat)) else none) := by
  unfold cbcDec
  rw [if_neg (by omega), chunks_short x (by intro hc; simp [hc] at h) (by omega)]
  simp [cbcDecBlocks, h, List.getLastD]

/-- CTR from its first piece (R160). -/
theorem ctr_cons (w : Nat) (k cb : Block) (x : List Byte) (h : x ≠ []) :
    ctr w k cb x = xorBytes (x.take 16) (blockBytes (blockE k cb)) ++ ctr w k (incBlock w cb) (x.drop 16) := by
  unfold ctr
  rw [chunks_of_ne_nil x h]; rfl

/-- GCTR from its first piece (R122). -/
theorem gctr_cons (k cb : Block) (x : List Byte) (h : x ≠ []) :
    gctr k cb x = xorBytes (x.take 16) (blockBytes (blockE k cb)) ++ gctr k (incBlock 32 cb)
        (x.drop 16) := ctr_cons 32 k cb x h

/-- Absorbing a string from its first piece (R119). -/
theorem ghashFrom_cons (h y : Block) (x : List Byte) (hx : x ≠ []) :
    ghashFrom h y x = ghashFrom h (ghashStep h y (zpadBlock (x.take 16))) (x.drop 16) := by
  unfold ghashFrom
  rw [chunks_of_ne_nil x hx]; rfl

end Sys2Proof.Machine
end

