-- ==== Sys2Proof/Laws/Units.lean ====
section
/-! SUPPORT. What each mode's unit does to the invariants of the data phase (spec/44_stream_manager.md R221, R227, R234). -/

namespace Sys2Proof.Machine

/-- What the checks of R214 leave once they pass. -/
theorem checkError_textLen {op : CipherOp} {d : Desc} (h : checkError op d = none) :
    (textLen op d.srcLen).toNat = (if op = .decGcm128 then d.srcLen.toNat - 16 else d.srcLen.toNat) ∧
    required op d.srcLen.toNat ≤ d.dstCap.toNat ∧ (op = .decGcm128 → 16 ≤ d.srcLen.toNat) ∧
    (op = .decCbc128 → 16 ≤ d.srcLen.toNat ∧ d.srcLen.toNat % 16 = 0) := by
  unfold checkError at h
  split at h
  · simp at h
  split at h
  · simp at h
  split at h
  · simp at h
  split at h
  · simp at h
  split at h
  · simp at h
  rename_i h3 h4 h5
  have hs := d.srcLen.isLt
  refine ⟨?_, by omega, ?_, ?_⟩
  · cases op <;> simp [textLen]
    simp at h4
    omega
  · intro he; simp [he] at h4; exact h4
  · intro he; simp [he] at h3; omega

/-- The constraint on `STAGE_BYTES` (R219). -/
theorem wf_stage {c : Config} (h : c.wf = true) : c.stageBytes % 16 = 0 ∧ 32 ≤ c.stageBytes := by
  simp only [Config.wf, Config.stageWf, Bool.and_eq_true, decide_eq_true_eq] at h
  exact h.1.1.1

/-- A position counter that does not wrap. -/
theorem toNat_add_ofNat (w : Word) (n : Nat) (h : w.toNat + n < 2 ^ 32) :
    (w + BitVec.ofNat 32 n).toNat = w.toNat + n := by
  simp only [BitVec.toNat_add, BitVec.toNat_ofNat]; omega

/-- What a unit of the counter modes does to the data phase's invariants (R164, R187, R188). -/
theorem streamUnit_data (op : CipherOp) (hop : op ≠ .encCbc128 ∧ op ≠ .decCbc128) (c : Config) (d : Desc)
    (e e' : Engine)
    (_hchk : checkError op d = none) (hd : DataInv op c d e) (hu : streamUnitReady e = true) (hf
        : 16 ≤ c.stageBytes - e.outq.length)
    (hin : e'.inq = e.inq.drop 16) (hout : e'.outq.length = e.outq.length + (e.inq.take 16).length)
    (ht : e'.tDone = e.tDone + BitVec.ofNat 32 (e.inq.take 16).length)
    (h1 : e'.tLen = e.tLen) (h2 : e'.srcPos = e.srcPos) (h3 : e'.dstPos = e.dstPos) (h4 : e'.perr = e.perr) :
    DataInv op c d e' ∧ e.tDone.toNat < e'.tDone.toNat := by
  obtain ⟨hT, hic, hoc, hsp, hsl, hpr, hpe⟩ := hd
  have hlt := e.tLen.isLt
  have hlen : (e.inq.take 16).length = min 16 e.inq.length := by simp
  have htd : e'.tDone.toNat = e.tDone.toNat + min 16 e.inq.length := by
    rw [ht, hlen, toNat_add_ofNat]; omega
  simp only [streamUnitReady, exhausted, Bool.or_eq_true, Bool.and_eq_true, decide_eq_true_eq] at hu
  have hpr' : (e.tDone.toNat % 16 = 0 ∨ e.tDone = e.tLen) ∧ e.dstPos.toNat + e.outq.length = e.tDone.toNat := by
    cases op <;> first | exact hpr | (exact absurd rfl hop.1) | (exact absurd rfl hop.2)
  have hmod : e.tDone.toNat % 16 = 0 := by
    rcases hpr'.1 with h | h
    · exact h
    · rw [h] at hsp; omega
  have hnew : (e'.tDone.toNat % 16 = 0 ∨ e'.tDone = e'.tLen) ∧ e'.dstPos.toNat + e'.outq.length = e'.tDone.toNat := by
    refine ⟨?_, by rw [h3, hout, hlen, htd]; omega⟩
    rcases hu with h | ⟨⟨h, _⟩, _⟩
    · left; omega
    · right
      apply BitVec.eq_of_toNat_eq
      have := congrArg BitVec.toNat h
      rw [h1]; omega
  refine ⟨⟨h1 ▸ hT, by rw [hin]; simp; omega, by omega, ?_, by rw [h2, h1]; exact hsl, ?_, h4 ▸ hpe⟩, by omega⟩
  · rw [h2, hsp, htd, hin]; simp; omega
  · cases op <;> first | exact hnew | (exact absurd rfl hop.1) | (exact absurd rfl hop.2)

/-- The sum R234 calls `σ`. -/
def progressSum (e : Engine) : Nat := e.srcPos.toNat + e.tDone.toNat + e.tailDone.toNat + e.dstPos.toNat

/-- What a unit leaves: it goes on in the data phase with more progress made, or moves to ZERO. -/
def UnitOutcome (op : CipherOp) (c : Config) (d : Desc) (e e' : Engine) : Prop :=
  e'.op = e.op ∧ e'.aadz = e.aadz ∧ e'.dstPos = e.dstPos ∧
    ((e'.ph = e.ph ∧ DataInv op c d e' ∧ progressSum e < progressSum e') ∨
     (e'.ph = .zero ∧ PhaseInv op c d e'))

/-- ENC_CBC128's units (R144, R145). -/
theorem encCbcUnit_result (c : Config) (d : Desc) (e : Engine)
    (_hchk : checkError .encCbc128 d = none) (hd : DataInv .encCbc128 c d e) (hu
        : unitReady .encCbc128 e = true)
    (hf : 16 ≤ c.stageBytes - e.outq.length) : UnitOutcome .encCbc128 c d e (encCbc128Unit e) := by
  obtain ⟨hT, hic, hoc, hsp, hsl, hpr, hpe⟩ := hd
  have hlt := e.tLen.isLt
  simp only [unitReady, exhausted, Bool.or_eq_true, Bool.and_eq_true, decide_eq_true_eq, Bool.not_eq_true'] at hu
  simp only [producedOk] at hpr
  unfold encCbc128Unit
  split
  case isTrue hr =>
    have htl : e.tailDone = false ∧ e.tDone.toNat % 16 = 0 ∧ e.dstPos.toNat + e.outq.length = e.tDone.toNat := by
      rcases hpr with h | ⟨_, h, _⟩
      · exact h
      · rw [h] at hsp; omega
    have htd : (e.tDone + 16).toNat = e.tDone.toNat + 16 := toNat_add_ofNat e.tDone 16 (by omega)
    refine ⟨rfl, rfl, rfl, .inl ⟨rfl, ⟨hT, ?_, ?_, ?_, hsl, .inl ⟨htl.1, ?_, ?_⟩, hpe⟩, ?_⟩⟩
    · simp [encCbc128Full]; omega
    · simp [encCbc128Full]; omega
    · simp only [encCbc128Full, List.length_drop, htd]; omega
    · simp only [encCbc128Full, htd]; omega
    · simp only [encCbc128Full, htd, List.length_append, blockBytes_length]; omega
    · simp only [progressSum, encCbc128Full, htd]; omega
  case isFalse hr =>
    have ⟨hex, htf⟩ : e.srcPos = e.tLen ∧ e.tailDone = false := by
      rcases hu with hu | hu
      · exact absurd hu hr
      · exact hu
    have htl : e.tDone.toNat % 16 = 0 ∧ e.dstPos.toNat + e.outq.length = e.tDone.toNat := by
      rcases hpr with h | ⟨h, _⟩
      · exact h.2
      · simp [htf] at h
    rw [hex] at hsp
    have htd : (e.tDone + BitVec.ofNat 32 e.inq.length).toNat = e.tDone.toNat + e.inq.length := toNat_add_ofNat e.tDone _ (by omega)
    refine ⟨rfl, rfl, rfl, .inl ⟨rfl, ⟨hT, ?_, ?_, ?_, hsl, .inr ⟨rfl, ?_, ?_⟩, hpe⟩, ?_⟩⟩
    · simp [encCbc128Pad]
    · simp [encCbc128Pad]; omega
    · simp only [encCbc128Pad, htd, hex, List.length_nil]; omega
    · apply BitVec.eq_of_toNat_eq; simp only [encCbc128Pad, htd]; omega
    · simp only [encCbc128Pad, List.length_append, blockBytes_length, required]; omega
    · simp only [progressSum, encCbc128Pad, htd, htf]; simp

/-- DEC_CBC128's units (R147, R148): one of them applies. -/
theorem decCbcUnit_result (c : Config) (d : Desc) (e : Engine)
    (hchk : checkError .decCbc128 d = none) (hd : DataInv .decCbc128 c d e) (hu : unitReady .decCbc128 e = true)
    (hf : 16 ≤ c.stageBytes - e.outq.length) : ∃ e', decCbc128Unit e = some e'
        ∧ UnitOutcome .decCbc128 c d e e' := by
  obtain ⟨hT, hic, hoc, hsp, hsl, hpr, hpe⟩ := hd
  have hlt := e.tLen.isLt
  simp only [unitReady, decide_eq_true_eq] at hu
  have hck := checkError_textLen hchk
  rw [← hT] at hck
  simp at hck
  have htl : e.tailDone = false ∧ e.tDone.toNat % 16 = 0 ∧ e.tDone.toNat < e.tLen.toNat ∧ e.dstPos.toNat + e.outq.length = e.tDone.toNat := by
    rcases hpr with h | ⟨_, h, _⟩
    · exact h
    · rw [h] at hsp; omega
  have htd : (e.tDone + 16).toNat = e.tDone.toNat + 16 := toNat_add_ofNat e.tDone 16 (by omega)
  unfold decCbc128Unit
  split
  case isTrue hm =>
    refine ⟨_, rfl, rfl, rfl, rfl, .inl ⟨rfl, ⟨hT, ?_, ?_, ?_, hsl, .inl ⟨htl.1, ?_, ?_, ?_⟩, hpe⟩, ?_⟩⟩
    · simp [decCbc128Mid]; omega
    · simp [decCbc128Mid]; omega
    · simp only [decCbc128Mid, List.length_drop, htd]; omega
    · simp only [decCbc128Mid, htd]; omega
    · simp only [decCbc128Mid, htd]; omega
    · simp only [decCbc128Mid, htd, List.length_append, blockBytes_length]; omega
    · simp only [progressSum, decCbc128Mid, htd]; omega
  case isFalse hm =>
    rw [if_pos (by omega)]
    refine ⟨_, rfl, ?_⟩
    unfold decCbc128Last
    dsimp only
    split
    case isTrue hup =>
      have hv := padLen_take hup
      refine ⟨rfl, rfl, rfl, .inl ⟨rfl, ⟨hT, ?_, ?_, ?_, hsl, .inr ⟨rfl, rfl, ?_, ?_⟩, hpe⟩, ?_⟩⟩
      · simp; omega
      · simp; omega
      · simp only [List.length_drop]; omega
      · simp; omega
      · simp; omega
      · simp only [progressSum, htl.1, Bool.toNat_true, Bool.toNat_false]; omega
    case isFalse hup =>
      refine ⟨rfl, rfl, rfl, .inr ⟨rfl, hchk, rfl, rfl, rfl, ?_, .inl ⟨rfl, rfl⟩⟩⟩
      simp only [lateError_dstPos, required]
      omega

/-- Every mode's unit (R221). -/
theorem applyUnit_result (op : CipherOp) (c : Config) (d : Desc) (w : Nat) (e : Engine)
    (hchk : checkError op d = none) (hd : DataInv op c d e) (hu : unitReady op e = true)
    (hf : 16 ≤ c.stageBytes - e.outq.length) : ∃ e', applyUnit op w e = some e' ∧ UnitOutcome op c d e e' := by
  have hxor : ∀ ks : Block, (xorBytes (e.inq.take 16) (blockBytes ks)).length = (e.inq.take 16).length := by
    intro ks; exact xorBytes_keystream_length _ _
  cases op
  case encCbc128 => exact ⟨_, rfl, encCbcUnit_result c d e hchk hd hu hf⟩
  case decCbc128 => exact decCbcUnit_result c d e hchk hd hu hf
  case encCtr128 =>
    have h := streamUnit_data .encCtr128 (by simp) c d e (ctrUnit w e) hchk hd hu hf rfl (by simp only [ctrUnit, List.length_append, hxor]) rfl rfl rfl rfl rfl
    exact ⟨_, rfl, rfl, rfl, rfl, .inl ⟨rfl, h.1, by have := h.2; simp only [progressSum] at *; simp only [ctrUnit] at *; omega⟩⟩
  case decCtr128 =>
    have h := streamUnit_data .decCtr128 (by simp) c d e (ctrUnit w e) hchk hd hu hf rfl (by simp only [ctrUnit, List.length_append, hxor]) rfl rfl rfl rfl rfl
    exact ⟨_, rfl, rfl, rfl, rfl, .inl ⟨rfl, h.1, by have := h.2; simp only [progressSum] at *; simp only [ctrUnit] at *; omega⟩⟩
  case encGcm128 =>
    have h := streamUnit_data .encGcm128 (by simp) c d e (encGcm128Unit e) hchk hd hu hf rfl (by simp only [encGcm128Unit, List.length_append, hxor]) rfl rfl rfl rfl rfl
    exact ⟨_, rfl, rfl, rfl, rfl, .inl ⟨rfl, h.1, by have := h.2; simp only [progressSum] at *; simp only [encGcm128Unit] at *; omega⟩⟩
  case decGcm128 =>
    have h := streamUnit_data .decGcm128 (by simp) c d e (decGcm128Unit e) hchk hd hu hf rfl (by simp only [decGcm128Unit, List.length_append, hxor]) rfl rfl rfl rfl rfl
    exact ⟨_, rfl, rfl, rfl, rfl, .inl ⟨rfl, h.1, by have := h.2; simp only [progressSum] at *; simp only [decGcm128Unit] at *; omega⟩⟩

end Sys2Proof.Machine
end

