-- ==== Sys2Proof/Laws/Progress.lean ====
section
/-! SUPPORT. Every engine step and every host access keeps the invariant of the machine, and every engine step of a
running operation brings it nearer its end (spec/44_stream_manager.md R234, R239, R240). -/

namespace Sys2Proof.Machine

/-- The invariant does not see the host's pending accesses nor the data of its last read. -/
theorem Inv.congr_io {s : State} (h : Inv s) (i : List HostInput) (d : Word) : Inv
    { s with inputs := i, rdata := d } :=
  ⟨h.cfg, h.mem, h.cache, ⟨h.status.err, h.status.len, h.status.fault⟩,
   ⟨h.running.busy, h.running.idle, h.running.active, h.running.written⟩⟩

/-- An access to system memory keeps the invariant. -/
theorem DataChange.inv {s t : State} (hx : DataChange s t) (h : Inv s) : Inv t := by
  obtain ⟨m, c, d, rfl, hm, hc⟩ := hx
  have hmem : Memory.wf m := by
    rcases hm with rfl | ⟨a, b, rfl, _⟩
    · exact h.mem
    · exact Memory.setByte_wf _ _ _ h.mem
  have hcache : HostCache.wf c := by
    rcases hc with rfl | ⟨x, rfl⟩ | ⟨a, rfl⟩
    · exact h.cache
    · exact HostCache.put_wf _ _ h.cache
    · exact HostCache.without_wf _ _ h.cache
  exact ⟨h.cfg, hmem, hcache, ⟨h.status.err, h.status.len, h.status.fault⟩,
    ⟨h.running.busy, h.running.idle, h.running.active, h.running.written⟩⟩

/-- A machine between operations has nothing to say about a running one. -/
theorem runningInv_cleared (s : State) (hb : s.status.state ≠ .busy) (he : s.eng = Engine.cleared)
    : RunningInv s := by
  refine ⟨?_, fun _ => he, ?_, ?_⟩
  · simp [he, hb, Engine.cleared]
  · intro h; simp [he, Engine.cleared] at h
  · intro i hi; simp [he, Engine.cleared] at hi

/-- An error completion keeps the invariant. -/
theorem inv_completeErr {s : State} (h : Inv s) (c : ErrorCode) (a : Addr) (m : Memory) (hm : Memory.wf m)
    (hc : c ≠ .none) : Inv (completeErr c a { s with mem := m }) := by
  refine ⟨h.cfg, hm, h.cache, ⟨?_, ?_, ?_⟩, runningInv_cleared _ (by simp) rfl⟩
  · simp [hc]
  · simp
  · intro hne; simp at hne; simp [hne]

/-- A memory fault keeps the invariant. -/
theorem inv_memoryFault {s : State} (h : Inv s) (a : Addr) (m : Memory) (hm : Memory.wf m) :
    Inv (memoryFault a m s) := inv_completeErr h _ a m hm (by simp)

/-- A successful completion keeps the invariant. -/
theorem inv_completeOk {s : State} (h : Inv s) (hb : s.eng.ph ≠ .none) (n : Word) (m : Memory) (e : Engine)
    (hm : Memory.wf m) :
    Inv (completeOk n { s with mem := m, eng := e }) := by
  have hbusy := h.running.busy.mpr hb
  have herr : s.status.err = .none := h.status.err.mpr (by simp [hbusy])
  refine ⟨h.cfg, hm, h.cache, ⟨?_, ?_, ?_⟩, runningInv_cleared _ (by simp) rfl⟩
  · simp
  · simp
  · intro _; simpa using h.status.fault (by simp [herr])

/-- A step that goes on keeps the invariant: the same status, another active phase. -/
theorem inv_goOn {s : State} (h : Inv s) (hb : s.eng.ph ≠ .none) (op : CipherOp) (m : Memory) (e : Engine)
    (hm : Memory.wf m)
    (hop : CipherOp.ofCode s.eng.op = some op) (haz : s.eng.aadz = true → op.isGcm = true)
    (he : e.op = s.eng.op) (hz : e.aadz = s.eng.aadz) (hp : e.ph ≠ .none)
    (hph : PhaseInv op s.cfg s.desc e)
    (hw : ∀ i < e.dstPos.toNat, memOk s.cfg (s.desc.dstAddr + BitVec.ofNat 32 i) .write = true) :
    Inv { s with mem := m, eng := e } := by
  refine ⟨h.cfg, hm, h.cache, ⟨h.status.err, h.status.len, h.status.fault⟩, ?_, ?_, ?_, hw⟩
  · have := h.running.busy; simp only; simp [hp, this.mpr hb]
  · intro hc; exact absurd hc hp
  · intro _; exact ⟨op, by rw [he]; exact hop, by rw [hz]; exact haz, hph⟩

/-- The bound R234 gives on the progress sum. -/
def budget (op : CipherOp) (d : Desc) : Nat := 2 * d.srcLen.toNat + 1 + required op d.srcLen.toNat

/-- A bound on the engine steps still to come, phase by phase (R239). -/
def stepsLeft (op : CipherOp) (d : Desc) (e : Engine) : Nat :=
  match e.ph with
  | .none => 0
  | .zero => 1
  | .tag => 2
  | .data => 3 + (budget op d - progressSum e)
  | .aad => 4 + budget op d + (d.aadLen.toNat - e.aadPos.toNat + 15) / 16
  | .init => 5 + budget op d + (d.aadLen.toNat + 15) / 16
  | .loadIv => 6 + budget op d + (d.aadLen.toNat + 15) / 16
  | .loadKey => 7 + budget op d + (d.aadLen.toNat + 15) / 16
  | .check => 8 + budget op d + (d.aadLen.toNat + 15) / 16

/-- What holds in phase DATA. -/
theorem phaseInv_data {op : CipherOp} {c : Config} {d : Desc} {e : Engine} (h : e.ph = .data) :
    PhaseInv op c d e ↔ (checkError op d = none ∧ DataInv op c d e) := by
  unfold PhaseInv; rw [h]

/-- The bound in phase DATA. -/
theorem stepsLeft_data (op : CipherOp) (d : Desc) (e : Engine) (h : e.ph = .data) :
    stepsLeft op d e = 3 + (budget op d - progressSum e) := by
  unfold stepsLeft; rw [h]

/-- The engine never produces more than the destination takes (R227). -/
theorem produced_le {op : CipherOp} {c : Config} {d : Desc} {e : Engine} (hchk : checkError op d = none)
    (hd : DataInv op c d e) :
    e.dstPos.toNat + e.outq.length ≤ required op d.srcLen.toNat ∧ e.tLen.toNat ≤ d.srcLen.toNat ∧
      e.tDone.toNat ≤ e.tLen.toNat ∧ e.dstPos.toNat + e.outq.length < 2 ^ 32 := by
  have hck := checkError_textLen hchk
  obtain ⟨hT, hic, hoc, hsp, hsl, hpr, hpe⟩ := hd
  rw [← hT] at hck
  have := d.dstCap.isLt
  have h1 : e.dstPos.toNat + e.outq.length ≤ required op d.srcLen.toNat := by
    cases op <;> simp [producedOk, required] at hpr hck ⊢ <;> omega
  refine ⟨h1, ?_, by omega, by omega⟩
  cases op <;> simp at hck <;> omega

/-- The progress sum stays within its bound (R234). -/
theorem progressSum_le {op : CipherOp} {c : Config} {d : Desc} {e : Engine} (hchk : checkError op d = none)
    (hd : DataInv op c d e) : progressSum e ≤ budget op d := by
  have := produced_le hchk hd
  have hsl := hd.srcLe
  have ht : e.tailDone.toNat ≤ 1 := by cases e.tailDone <;> simp
  simp only [progressSum, budget]; omega

/-- One engine step has a next state, a legal one and nearer the end. -/
def Advances (op : CipherOp) (s : State) (o : Host.Outcome State Fault Refusal) : Prop :=
  ∃ t, o = .next t ∧ Inv t ∧ stepsLeft op t.desc t.eng < stepsLeft op s.desc s.eng

/-- A running operation has a step to come. -/
theorem stepsLeft_pos {op : CipherOp} {d : Desc} {e : Engine} (h : e.ph ≠ .none) : 0 < stepsLeft op d e := by
  unfold stepsLeft
  split <;> first | omega | (rename_i hh; exact absurd hh h)

/-- An operation is running and the machine is in a legal state. -/
structure Running (op : CipherOp) (s : State) : Prop where
  inv : Inv s
  act : s.eng.ph ≠ .none
  hop : CipherOp.ofCode s.eng.op = some op
  haz : s.eng.aadz = true → op.isGcm = true
  ph : PhaseInv op s.cfg s.desc s.eng

/-- A memory fault ends the operation. -/
theorem Running.fault {op : CipherOp} {s : State} (h : Running op s) (a : Addr) (m : Memory) (hm
    : Memory.wf m) :
    Advances op s (.next (memoryFault a m s)) :=
  ⟨_, rfl, inv_memoryFault h.inv a m hm, stepsLeft_pos h.act⟩

/-- A successful completion ends the operation. -/
theorem Running.ok {op : CipherOp} {s : State} (h : Running op s) (n : Word) (m : Memory) (e : Engine) (hm
    : Memory.wf m) :
    Advances op s (.next (completeOk n { s with mem := m, eng := e })) :=
  ⟨_, rfl, inv_completeOk h.inv h.act n m e hm, stepsLeft_pos h.act⟩

/-- An error completion ends the operation. -/
theorem Running.err {op : CipherOp} {s : State} (h : Running op s) (c : ErrorCode) (a : Addr) (m : Memory)
    (hm : Memory.wf m) (hc : c ≠ .none) :
    Advances op s (.next (completeErr c a { s with mem := m })) :=
  ⟨_, rfl, inv_completeErr h.inv c a m hm hc, stepsLeft_pos h.act⟩

/-- A step that goes on. -/
theorem Running.go {op : CipherOp} {s : State} (h : Running op s) (m : Memory) (e : Engine) (hm : Memory.wf m)
    (he : e.op = s.eng.op) (hz : e.aadz = s.eng.aadz) (hp : e.ph ≠ .none)
    (hph : PhaseInv op s.cfg s.desc e)
    (hw : ∀ i < e.dstPos.toNat, memOk s.cfg (s.desc.dstAddr + BitVec.ofNat 32 i) .write = true)
    (hlt : stepsLeft op s.desc e < stepsLeft op s.desc s.eng) :
    Advances op s (.next { s with mem := m, eng := e }) :=
  ⟨_, rfl, inv_goOn h.inv h.act op m e hm h.hop h.haz he hz hp hph hw, hlt⟩

/-- DRAIN (R224). -/
theorem drain_advances {op : CipherOp} {s : State} (h : Running op s) (hd : s.eng.ph = .data) (hout
    : 0 < s.eng.outq.length) :
    Advances op s (.next (drainStep s)) := by
  have hph := h.ph
  rw [phaseInv_data hd] at hph
  obtain ⟨hchk, hdi⟩ := hph
  have hle := produced_le hchk hdi
  have hsum := progressSum_le hchk hdi
  unfold drainStep
  rcases writeRun_cases s.cfg s.mem
      (s.desc.dstAddr + s.eng.dstPos) s.eng.outq with ⟨hr, hok⟩ | ⟨i, hi, hr, hok, hbad⟩
  · rw [hr]
    have hdp : (s.eng.dstPos + BitVec.ofNat 32 s.eng.outq.length).toNat = s.eng.dstPos.toNat + s.eng.outq.length :=
      toNat_add_ofNat _ _ hle.2.2.2
    have hdi' : DataInv op s.cfg s.desc { s.eng with outq := [], dstPos := s.eng.dstPos + BitVec.ofNat 32 s.eng.outq.length } := by
      obtain ⟨hT, hic, hoc, hsp, hsl, hpr, hpe⟩ := hdi
      refine ⟨hT, hic, by simp, hsp, hsl, ?_, hpe⟩
      cases op <;> simp only [producedOk, hdp, List.length_nil] at hpr ⊢ <;> simpa using hpr
    refine h.go _ _ (Memory.setBytes_wf _ _ _ h.inv.mem) rfl rfl (by simp [hd]) (by refine (phaseInv_data ?_).mpr ⟨hchk, hdi'⟩; exact hd) ?_ ?_
    · intro i hi
      simp only [hdp] at hi
      by_cases hlt : i < s.eng.dstPos.toNat
      · exact h.inv.running.written i hlt
      · have := hok (i - s.eng.dstPos.toNat) (by omega)
        have e : s.desc.dstAddr + s.eng.dstPos + BitVec.ofNat 32 (i - s.eng.dstPos.toNat) = s.desc.dstAddr + BitVec.ofNat 32 i := by
          apply BitVec.eq_of_toNat_eq
          simp only [BitVec.toNat_add, BitVec.toNat_ofNat]
          omega
        rw [e] at this
        exact this
    · have hsum' := progressSum_le hchk hdi'
      refine lt_of_eq_of_lt (stepsLeft_data _ _ _ hd) ?_
      rw [stepsLeft_data _ _ _ hd]
      simp only [progressSum, hdp] at hsum' ⊢
      omega
  · rw [hr]
    exact h.fault _ _ (Memory.setBytes_wf _ _ _ h.inv.mem)

/-- FEED (R225). -/
theorem feed_advances {op : CipherOp} {s : State} (h : Running op s) (hd : s.eng.ph = .data) (hu
    : underflow op s.eng = true) :
    Advances op s (.next (feedStep s)) := by
  have hph := h.ph
  rw [phaseInv_data hd] at hph
  obtain ⟨hchk, hdi⟩ := hph
  have hst := wf_stage h.inv.cfg
  simp only [underflow, exhausted, Bool.and_eq_true, Bool.not_eq_true', decide_eq_false_iff_not] at hu
  have hne : s.eng.srcPos.toNat ≠ s.eng.tLen.toNat := fun hc => hu.2 (BitVec.eq_of_toNat_eq hc)
  have hr16 : s.eng.inq.length < 16 := by
    have := hu.1
    cases op <;> simp [unitReady, streamUnitReady] at this <;> omega
  have hsl := hdi.srcLe
  have hlt := s.eng.tLen.isLt
  have hk : 1 ≤ feedCount s ∧ s.eng.srcPos.toNat + feedCount s ≤ s.eng.tLen.toNat ∧ s.eng.inq.length + feedCount s ≤ s.cfg.stageBytes := by
    simp only [feedCount]; omega
  unfold feedStep
  rcases readRun_cases s.cfg s.mem (s.desc.srcAddr + s.eng.srcPos)
      (feedCount s) with ⟨hr, hok⟩ | ⟨i, hi, hr, hok, hbad⟩
  · rw [hr]
    have hsp' : (s.eng.srcPos + BitVec.ofNat 32 (feedCount s)).toNat = s.eng.srcPos.toNat + feedCount s := toNat_add_ofNat _ _ (by omega)
    have hdi' : DataInv op s.cfg s.desc { s.eng with inq := s.eng.inq ++ s.mem.bytesAt (s.desc.srcAddr + s.eng.srcPos) (feedCount s), srcPos := s.eng.srcPos + BitVec.ofNat 32 (feedCount s) } := by
      obtain ⟨hT, hic, hoc, hsp, hsl, hpr, hpe⟩ := hdi
      refine ⟨hT, by simp; omega, hoc, by simp only [hsp', List.length_append, Memory.bytesAt_length]; omega, by simp only [hsp']; omega, ?_, hpe⟩
      cases op <;> exact hpr
    refine h.go s.mem _ h.inv.mem rfl rfl (by simp [hd]) (by refine (phaseInv_data ?_).mpr ⟨hchk, hdi'⟩; exact hd) h.inv.running.written ?_
    have hsum' := progressSum_le hchk hdi'
    refine lt_of_eq_of_lt (stepsLeft_data _ _ _ hd) ?_
    rw [stepsLeft_data _ _ _ hd]
    simp only [progressSum, hsp'] at hsum' ⊢
    omega
  · rw [hr]
    exact h.fault _ _ h.inv.mem

/-- End of data (R226). -/
theorem end_advances {op : CipherOp} {s : State} (h : Running op s) (hd : s.eng.ph = .data)
    (hu : unitReady op s.eng = false) (hex : exhausted s.eng = true) (hout : s.eng.outq.length = 0) :
    Advances op s (.next (endOfData op s)) := by
  have hph := h.ph
  rw [phaseInv_data hd] at hph
  obtain ⟨hchk, hdi⟩ := hph
  unfold endOfData
  split
  case isFalse => exact h.ok _ s.mem s.eng h.inv.mem
  case isTrue hg =>
    obtain ⟨hT, hic, hoc, hsp, hsl, hpr, hpe⟩ := hdi
    simp only [exhausted, decide_eq_true_eq] at hex
    have hpr' : s.eng.dstPos.toNat + s.eng.outq.length = s.eng.tDone.toNat := by
      cases op <;> first | exact hpr.2 | simp [CipherOp.isGcm] at hg
    have hin : s.eng.inq.length = 0 := by
      cases op <;> simp [unitReady, streamUnitReady, exhausted, hex, CipherOp.isGcm] at hu hg <;> omega
    refine h.go s.mem _ h.inv.mem rfl rfl (by simp) ?_ h.inv.running.written ?_
    · refine ⟨hchk, hg, hT, List.length_eq_zero_iff.mp hin, List.length_eq_zero_iff.mp hout, ?_, hpe⟩
      apply BitVec.eq_of_toNat_eq
      simp only
      rw [hex] at hsp
      omega
    · rw [stepsLeft_data _ _ _ hd]; simp only [stepsLeft]; omega

/-- Every step of phase DATA (R222). -/
theorem data_advances {op : CipherOp} {s : State} (h : Running op s) (hd : s.eng.ph = .data) : Advances op s
    (dataStep op s) := by
  have hph := h.ph
  rw [phaseInv_data hd] at hph
  obtain ⟨hchk, hdi⟩ := hph
  have hst := wf_stage h.inv.cfg
  unfold dataStep
  split
  case isTrue hx =>
    simp only [Bool.and_eq_true, decide_eq_true_eq] at hx
    have hx2 : 16 ≤ s.cfg.stageBytes - s.eng.outq.length := hx.2
    obtain ⟨e', he', hres⟩ := applyUnit_result op s.cfg s.desc s.cfg.ctrWidth s.eng hchk hdi hx.1 hx2
    unfold xformStep
    rw [he']
    obtain ⟨h1, h2, h3, h4⟩ := hres
    rcases h4 with ⟨hp, hdi', hsum⟩ | ⟨hp, hz⟩
    · refine h.go s.mem e' h.inv.mem h1 h2 (by simp [hp, hd]) ((phaseInv_data (hp.trans hd)).mpr ⟨hchk, hdi'⟩) (h3 ▸ h.inv.running.written) ?_
      have := progressSum_le hchk hdi'
      rw [stepsLeft_data _ _ _ hd, stepsLeft_data _ _ _ (hp.trans hd)]; omega
    · refine h.go s.mem e' h.inv.mem h1 h2 (by simp [hp]) hz (h3 ▸ h.inv.running.written) ?_
      rw [stepsLeft_data _ _ _ hd]; simp only [stepsLeft, hp]; omega
  case isFalse hx =>
    split
    case isTrue ho =>
      refine drain_advances h hd ?_
      simp only [overflow, Bool.and_eq_true, decide_eq_true_eq] at ho
      have ho2 : s.cfg.stageBytes - s.eng.outq.length < 16 := ho.2
      omega
    case isFalse ho =>
      have hu : unitReady op s.eng = false := by
        by_contra hc
        simp only [Bool.not_eq_false] at hc
        simp only [overflow, hc, Bool.true_and, decide_eq_true_eq] at ho hx
        omega
      split
      case isTrue hun => exact feed_advances h hd hun
      case isFalse hun =>
        have hex : exhausted s.eng = true := by
          simpa [underflow, hu] using hun
        split
        case isTrue hl => exact drain_advances h hd hl
        case isFalse hl => exact end_advances h hd hu hex (by omega)

/-- CHECK (R214). -/
theorem check_advances {op : CipherOp} {s : State} (h : Running op s) (hd : s.eng.ph = .check) : Advances op s
    (.next (checkStep op s)) := by
  have hph := h.ph
  unfold PhaseInv at hph; rw [hd] at hph
  unfold checkStep
  split
  case h_1 c hc =>
    refine h.err c 0 s.mem h.inv.mem ?_
    rintro rfl
    unfold checkError at hc
    repeat' split at hc
    all_goals cases hc
  case h_2 hc =>
    refine h.go s.mem _ h.inv.mem rfl rfl (by simp) ⟨hc, hph⟩ h.inv.running.written ?_
    simp [stepsLeft, hd]

/-- LOAD_KEY (R216). -/
theorem loadKey_advances {op : CipherOp} {s : State} (h : Running op s) (hd : s.eng.ph = .loadKey)
    : Advances op s (.next (loadKeyStep s)) := by
  have hph := h.ph
  unfold PhaseInv at hph; rw [hd] at hph
  unfold loadKeyStep
  split
  · refine h.go s.mem _ h.inv.mem rfl rfl (by simp) hph h.inv.running.written ?_
    simp [stepsLeft, hd]
  · exact h.fault _ _ h.inv.mem

/-- LOAD_IV (R217). -/
theorem loadIv_advances {op : CipherOp} {s : State} (h : Running op s) (hd : s.eng.ph = .loadIv)
    : Advances op s (.next (loadIvStep op s)) := by
  have hph := h.ph
  unfold PhaseInv at hph; rw [hd] at hph
  unfold loadIvStep
  split
  · refine h.go s.mem _ h.inv.mem rfl rfl (by simp) hph h.inv.running.written ?_
    simp [stepsLeft, hd]
  · exact h.fault _ _ h.inv.mem

/-- INIT (R218). -/
theorem init_advances {op : CipherOp} {s : State} (h : Running op s) (hd : s.eng.ph = .init) : Advances op s
    (.next (initStep op s)) := by
  have hph := h.ph
  unfold PhaseInv at hph; rw [hd] at hph
  obtain ⟨hchk, h1, h2, h3, h4, h5, h6, h7⟩ := hph
  have hck := checkError_textLen hchk
  unfold initStep
  cases op
  case encGcm128 | decGcm128 =>
    refine h.go s.mem _ h.inv.mem rfl rfl (by simp [CipherOp.isGcm]) ?_ ?_ ?_
    · exact ⟨hchk, ⟨h1, h2, rfl, rfl, rfl, rfl, h7⟩, rfl, rfl, fun _ => by simp [modeInit, gcmInit]⟩
    · intro i hi; simp at hi
    · simp [stepsLeft, hd, CipherOp.isGcm, modeInit, gcmInit]
  all_goals
    refine h.go s.mem _ h.inv.mem rfl rfl (by simp [CipherOp.isGcm]) ?_ ?_ ?_
    · refine (phaseInv_data rfl).mpr ⟨hchk, ⟨rfl, by simp [modeInit, cbcInit, ctrInit, h1], by simp [modeInit, cbcInit, ctrInit, h2], by simp [modeInit, cbcInit, ctrInit, h1], by simp, ?_, h7⟩⟩
      simp [producedOk, modeInit, cbcInit, ctrInit, h2] <;> (simp [textLen] at hck ⊢; omega)
    · intro i hi; simp at hi
    · refine lt_of_eq_of_lt (stepsLeft_data _ _ _ rfl) ?_
      simp only [stepsLeft, hd]; omega

/-- The AAD phase (R186). -/
theorem aad_advances {op : CipherOp} {s : State} (h : Running op s) (hd : s.eng.ph = .aad) : Advances op s
    (aadStep op s) := by
  have hph := h.ph
  unfold PhaseInv at hph; rw [hd] at hph
  obtain ⟨hchk, hun, hg, hT, haad⟩ := hph
  have hck := checkError_textLen hchk
  have hun' := hun
  obtain ⟨h1, h2, h3, h4, h5, h6, h7⟩ := hun
  unfold aadStep
  rw [if_pos hg]
  have hdata : ∀ e : Engine, e.ph = .data → e.tLen = s.eng.tLen → e.inq = s.eng.inq → e.outq = s.eng.outq → e.srcPos = s.eng.srcPos → e.tDone = s.eng.tDone → e.dstPos = s.eng.dstPos → e.tailDone = s.eng.tailDone → e.perr = s.eng.perr → PhaseInv op s.cfg s.desc e := by
    intro e e1 e2 e3 e4 e5 e6 e7 e8 e9
    refine (phaseInv_data e1).mpr ⟨hchk, ⟨by rw [e2, hT], by simp [e3, h1], by simp [e4, h2], by simp [e5, e6, e3, h1, h3, h4], by simp [e5, h3], ?_, by rw [e9, h7]⟩⟩
    cases op <;> simp [CipherOp.isGcm] at hg <;> simp [producedOk, e6, e7, e4, h2, h4, h5]
  unfold gcmAad
  dsimp only
  split
  · refine h.go s.mem _ h.inv.mem rfl rfl (by simp) (hdata _ rfl rfl rfl rfl rfl rfl rfl rfl rfl) h.inv.running.written ?_
    refine lt_of_eq_of_lt (stepsLeft_data _ _ _ rfl) ?_
    simp only [stepsLeft, hd]; omega
  case isFalse hz =>
    have hal := haad (by simpa using hz)
    split
    case isTrue hlt =>
      have := s.desc.aadLen.isLt
      have hk : (s.eng.aadPos + BitVec.ofNat 32 (min 16 (s.desc.aadLen.toNat - s.eng.aadPos.toNat))).toNat = s.eng.aadPos.toNat + min 16 (s.desc.aadLen.toNat - s.eng.aadPos.toNat) := toNat_add_ofNat _ _ (by omega)
      split
      · refine h.go s.mem _ h.inv.mem rfl rfl (by simp [hd]) ?_ h.inv.running.written ?_
        · unfold PhaseInv; simp only [hd]
          exact ⟨hchk, hun', hg, hT, fun _ => by simp only [hk]; omega⟩
        · simp only [stepsLeft, hd, hk]; omega
      · exact h.fault _ _ h.inv.mem
    case isFalse hlt =>
      refine h.go s.mem _ h.inv.mem rfl rfl (by simp) (hdata _ rfl rfl rfl rfl rfl rfl rfl rfl rfl) h.inv.running.written ?_
      refine lt_of_eq_of_lt (stepsLeft_data _ _ _ rfl) ?_
      simp only [stepsLeft, hd]; omega

/-- The TAG phase (R189, R190). -/
theorem tag_advances {op : CipherOp} {s : State} (h : Running op s) (hd : s.eng.ph = .tag) : Advances op s
    (tagStep op s) := by
  have hph := h.ph
  unfold PhaseInv at hph; rw [hd] at hph
  obtain ⟨hchk, hg, hT, h1, h2, h3, h4⟩ := hph
  have hck := checkError_textLen hchk
  rw [← hT] at hck
  cases op <;> simp [CipherOp.isGcm] at hg
  case encGcm128 =>
    simp only [tagStep]
    unfold encGcm128Tag
    have hw := writeRun_wf s.cfg s.mem (s.desc.dstAddr + s.eng.dstPos) (blockBytes (gcmTag s.eng)) h.inv.mem
    split
    case h_1 m hr => rw [hr] at hw; exact h.ok _ m s.eng hw
    case h_2 m f hr => rw [hr] at hw; exact h.fault f m hw
  case decGcm128 =>
    simp only [tagStep]
    unfold decGcm128Tag
    split
    · dsimp only
      split
      · exact h.ok _ s.mem _ h.inv.mem
      · refine h.go s.mem _ h.inv.mem rfl rfl (by simp) ?_ h.inv.running.written ?_
        · refine ⟨hchk, rfl, rfl, rfl, ?_, .inr ⟨rfl, rfl⟩⟩
          simp only [lateError_dstPos, h3, required]
          simp at hck; omega
        · simp [stepsLeft, hd, lateError]
    · exact h.fault _ _ h.inv.mem

/-- ZERO (R229). -/
theorem zero_advances {op : CipherOp} {s : State} (h : Running op s) (hd : s.eng.ph = .zero) : Advances op s
    (.next (zeroStep s)) := by
  have hph := h.ph
  unfold PhaseInv at hph; rw [hd] at hph
  obtain ⟨hchk, h1, h2, h3, h4, h5⟩ := hph
  unfold zeroStep
  dsimp only
  have hw := writeRun_wf s.cfg s.mem (s.desc.dstAddr + s.eng.zeroPos) (List.replicate
      (s.eng.dstPos.toNat - s.eng.zeroPos.toNat) 0) h.inv.mem
  split
  case h_1 m hr => rw [hr] at hw; exact h.err _ _ m hw (by rcases h5 with ⟨_, h5⟩ | ⟨_, h5⟩ <;> simp [h5])
  case h_2 m f hr => rw [hr] at hw; exact h.fault f m hw

/-- A running operation always has a next state, a legal one, nearer its end (R234, R240). -/
theorem engine_progress (s : State) (hi : Inv s) (ha : s.eng.ph ≠ .none) : ∃ op, Running op s ∧ Advances op s
    (engineStep s) := by
  obtain ⟨op, hop, haz, hph⟩ := hi.running.active ha
  have h : Running op s := ⟨hi, ha, hop, haz, hph⟩
  refine ⟨op, h, ?_⟩
  rw [engineStep_active s op ha hop]
  unfold phaseStep
  split
  case h_1 hd => exact absurd hd ha
  case h_2 hd => exact check_advances h hd
  case h_3 hd => exact loadKey_advances h hd
  case h_4 hd => exact loadIv_advances h hd
  case h_5 hd => exact init_advances h hd
  case h_6 hd => exact aad_advances h hd
  case h_7 hd => exact data_advances h hd
  case h_8 hd => exact tag_advances h hd
  case h_9 hd => exact zero_advances h hd

/-- An engine step keeps the invariant. -/
theorem inv_engineStep {s t : State} (hi : Inv s) (h : engineStep s = .next t) : Inv t := by
  by_cases ha : s.eng.ph = .none
  · rw [engineStep_idle s ha] at h; cases h; exact hi
  · obtain ⟨op, _, t', ht, hit, _⟩ := engine_progress s hi ha
    rw [ht] at h; cases h; exact hit

/-- Setting IGN keeps the invariant. -/
theorem Inv.setIgn {s : State} (h : Inv s) : Inv s.setIgn :=
  ⟨h.cfg, h.mem, h.cache, ⟨h.status.err, h.status.len, h.status.fault⟩,
   ⟨h.running.busy, h.running.idle, h.running.active, h.running.written⟩⟩

/-- STATE = BUSY. -/
theorem busy_iff (s : State) : s.busy = true ↔ s.status.state = .busy := by simp [State.busy]

/-- When the block is not busy its internal registers are zero. -/
theorem Inv.idleEng {s : State} (h : Inv s) (hb : ¬ s.busy = true) : s.eng = Engine.cleared := by
  apply h.running.idle
  by_contra hc
  exact hb ((busy_iff s).mpr (h.running.busy.mpr hc))

/-- Starting an operation keeps the invariant. -/
theorem inv_start {s : State} (h : Inv s) (op : CipherOp) (z : Bool) (hz : z = true → op.isGcm = true) : Inv
    (startOperation op z s) := by
  unfold startOperation
  split
  · exact h.setIgn
  case isFalse hb =>
    have he := h.idleEng hb
    refine ⟨h.cfg, h.mem, h.cache, ⟨?_, ?_, ?_⟩, ⟨?_, ?_, ?_, ?_⟩⟩ <;> simp [acceptCommand, he, Engine.cleared]
    exact ⟨hz, rfl, rfl, rfl, rfl, rfl, rfl, rfl⟩

/-- An illegal command keeps the invariant. -/
theorem inv_illegal {s : State} (h : Inv s) : Inv (illegalWrite s) := by
  unfold illegalWrite
  split
  · exact h.setIgn
  case isFalse hb =>
    exact ⟨h.cfg, h.mem, h.cache, ⟨by simp [illegalCommand], by simp [illegalCommand], by simp [illegalCommand]⟩, runningInv_cleared _ (by simp [illegalCommand]) (h.idleEng hb)⟩

/-- Every command keeps the invariant. -/
theorem inv_exec {s t : State} (h : Inv s) (i : Instr) (hx : exec i s = .next t) : Inv t := by
  cases i <;> simp only
      [exec, execNop, execEncCbc128, execDecCbc128, execEncCtr128, execDecCtr128, execEncGcm128, execDecGcm128] at hx <;> cases hx
  · exact h
  all_goals exact inv_start h _ _ (by simp [CipherOp.isGcm])

/-- Every register write keeps the invariant. -/
theorem inv_writeReg {s t : State} (h : Inv s) (r : Reg) (v : Word) (hx : writeReg r v s = .next t)
    : Inv t := by
  unfold writeReg at hx
  split at hx
  · unfold writeCmd at hx
    split at hx
    · exact inv_exec h _ hx
    · cases hx; exact inv_illegal h
  · cases hx; exact h
  · cases hx; exact h
  · cases hx; exact h
  · cases hx
    unfold writeDesc
    split
    · exact h.setIgn
    case isFalse hb =>
      have he := h.idleEng hb
      exact ⟨h.cfg, h.mem, h.cache, ⟨h.status.err, h.status.len, h.status.fault⟩, runningInv_cleared _ (fun hc => hb ((busy_iff s).mpr hc)) he⟩
  · cases hx
    exact ⟨h.cfg, h.mem, h.cache, ⟨h.status.err, h.status.len, h.status.fault⟩,
      ⟨h.running.busy, h.running.idle, h.running.active, h.running.written⟩⟩
  · cases hx
    unfold writeIrqStat
    split
    · exact ⟨h.cfg, h.mem, h.cache, ⟨h.status.err, h.status.len, h.status.fault⟩,
        ⟨h.running.busy, h.running.idle, h.running.active, h.running.written⟩⟩
    · exact h

/-- Every host access keeps the invariant. -/
theorem inv_hostAct {s t : State} (h : Inv s) (op : HostOp) (hx : hostAct op s = .next t) : Inv t := by
  unfold hostAct at hx
  split at hx
  · unfold busWrite at hx
    split at hx
    · cases hx; exact h
    · cases hx
    · exact inv_writeReg h _ _ hx
  · unfold busRead at hx
    split at hx
    · cases hx; exact h
    · cases hx
    · cases hx; exact h.congr_io _ _
  · exact (hostMemWrite_change hx).inv h
  · exact (hostMemRead_change hx).inv h
  · exact (cacheFetch_change hx).inv h
  · exact (cacheClean_change hx).inv h
  · cases hx; exact (cacheInvalidate_change _ s).inv h
  · exact (masterWrite_change hx).inv h
  · rw [masterRead_next hx]; exact h
  · cases hx; exact h.congr_io _ _
  · cases hx
    exact ⟨h.cfg, h.mem, h.cache, ⟨by simp [assertReset, State.reset], by simp [assertReset, State.reset], by simp [assertReset, State.reset]⟩, runningInv_cleared _ (by simp [assertReset, State.reset]) rfl⟩

end Sys2Proof.Machine
end

