-- ==== Sys2Proof/Laws/Outcome.lean ====
section
/-! SUPPORT. What a running operation comes to is the same before and after every step of the data phase: DRAIN, FEED
and the units (spec/44_stream_manager.md R230, R231). -/

namespace Sys2Proof.Machine

/-! ## What an operation comes to from where it stands -/

/-- The text bytes not yet transformed. -/
def restText (s : State) : List Byte :=
  s.eng.inq ++ s.mem.bytesAt (s.desc.srcAddr + s.eng.srcPos) (s.eng.tLen.toNat - s.eng.srcPos.toNat)

/-- Ends well with more output. -/
def endsOk (s : State) (out : List Byte) : State :=
  completeOk (s.eng.dstPos + BitVec.ofNat 32 out.length)
    { s with mem := s.mem.setBytes (s.desc.dstAddr + s.eng.dstPos) out }

/-- Ends with a late error and `n` zero bytes. -/
def endsLate (s : State) (c : ErrorCode) (n : Nat) : State :=
  completeErr c 0 { s with mem := s.mem.setBytes s.desc.dstAddr (List.replicate n 0) }

/-- The received tag. -/
def recvTag (s : State) : Block := bytesBlock (s.mem.bytesAt (s.desc.srcAddr + s.eng.tLen) 16)

/-- The tag once the rest `c` of the ciphertext is absorbed (R123). -/
def tagAfter (e : Engine) (c : List Byte) : Block :=
  e.ej0 ^^^ ghashStep e.h (ghashFrom e.h e.y c) (lengthBlock e.aadBytes.toNat e.tLen.toNat)

/-- What a running operation comes to in phase DATA. -/
def dataResult (op : CipherOp) (s : State) : State :=
  match op with
  | .encCbc128 => endsOk s (s.eng.outq ++ if s.eng.tailDone then [] else cbcEnc s.eng.key s.eng.cv (restText s))
  | .decCbc128 =>
    if s.eng.tailDone then endsOk s s.eng.outq
    else match cbcDec s.eng.key s.eng.cv (restText s) with
      | some p => endsOk s (s.eng.outq ++ p)
      | none => endsLate s .invalidPadding (s.cfg.stageBytes * ((s.eng.tLen.toNat - 16) / s.cfg.stageBytes))
  | .encCtr128 | .decCtr128 => endsOk s (s.eng.outq ++ ctr s.cfg.ctrWidth s.eng.key s.eng.cb (restText s))
  | .encGcm128 =>
    let c := gctr s.eng.key s.eng.cb (restText s)
    endsOk s (s.eng.outq ++ (c ++ blockBytes (tagAfter s.eng c)))
  | .decGcm128 =>
    if recvTag s = tagAfter s.eng (restText s) then endsOk s (s.eng.outq ++ gctr s.eng.key s.eng.cb
        (restText s))
    else endsLate s .authenticationFailure s.eng.tLen.toNat

/-- What stays true and the engine never changes. -/
structure Unhindered (op : CipherOp) (s : State) : Prop where
  act : Running op s
  key : readsOk s.cfg s.desc.keyAddr 16
  iv : readsOk s.cfg s.desc.ivAddr (ivBytes op)
  aad : op.isGcm = true → s.eng.aadz = false → readsOk s.cfg s.desc.aadAddr s.desc.aadLen.toNat
  src : readsOk s.cfg s.desc.srcAddr s.desc.srcLen.toNat
  dst : writesOk s.cfg s.desc.dstAddr (required op s.desc.srcLen.toNat)
  overlap : overlapAllowed op s.desc

/-- Storing a string leaves a range it does not meet. -/
theorem bytesAt_setBytes_apart (m : Memory) (a b : Addr) (n : Nat) (bs : List Byte)
    (h : ∀ i < n, ∀ j < bs.length, a + BitVec.ofNat 32 i ≠ b + BitVec.ofNat 32 j) :
    (m.setBytes b bs).bytesAt a n = m.bytesAt a n :=
  Memory.bytesAt_congr _ _ a n fun i hi => Memory.byteAt_setBytes_outside m b _ bs (h i hi)

/-- An address at a position plus an offset. -/
theorem add_pos_ofNat (a p : Word) (i : Nat) : a + p + BitVec.ofNat 32 i = a + BitVec.ofNat 32
    (p.toNat + i) := by
  have := ofNat_add_add a p.toNat i
  rwa [BitVec.ofNat_toNat, BitVec.setWidth_eq] at this

/-- The state after DRAIN when every write completes. -/
def drained (s : State) : State :=
  { s with
      mem := s.mem.setBytes (s.desc.dstAddr + s.eng.dstPos) s.eng.outq
      eng := { s.eng with outq := [], dstPos := s.eng.dstPos + BitVec.ofNat 32 s.eng.outq.length } }

/-- What holds in phase DATA. -/
theorem Unhindered.data {op : CipherOp} {s : State} (h : Unhindered op s) (hd : s.eng.ph = .data) :
    checkError op s.desc = none ∧ DataInv op s.cfg s.desc s.eng := (phaseInv_data hd).mp h.act.ph

/-- DRAIN, every write completing (R224). -/
theorem Unhindered.drain_eq {op : CipherOp} {s : State} (h : Unhindered op s) (hd : s.eng.ph = .data)
    : drainStep s = drained s := by
  obtain ⟨hchk, hdi⟩ := h.data hd
  have hle := produced_le hchk hdi
  unfold drainStep drained
  have : writesOk s.cfg (s.desc.dstAddr + s.eng.dstPos) s.eng.outq.length := by
    intro i hi
    rw [add_pos_ofNat]; exact h.dst _ (by omega)
  rw [writeRun_ok _ _ _ _ this]

/-- DRAIN leaves the source bytes from an offset the output has not passed (R230). -/
theorem Unhindered.drain_apart {op : CipherOp} {s : State} (h : Unhindered op s) (hd : s.eng.ph = .data) (k n
    : Nat) (hkn : k + n ≤ s.desc.srcLen.toNat)
    (hk : s.eng.dstPos.toNat + s.eng.outq.length ≤ k) :
    (drained s).mem.bytesAt (s.desc.srcAddr + BitVec.ofNat 32 k) n = s.mem.bytesAt
        (s.desc.srcAddr + BitVec.ofNat 32 k) n := by
  obtain ⟨hchk, hdi⟩ := h.data hd
  have hle := produced_le hchk hdi
  apply bytesAt_setBytes_apart
  intro i hi j hj hc
  rw [ofNat_add_add, add_pos_ofNat] at hc
  have := h.overlap (k + i) (s.eng.dstPos.toNat + j) (by omega) (by omega) hc.symm
  omega

/-- A word is the word of its number. -/
theorem word_eq_ofNat (w : Word) : w = BitVec.ofNat 32 w.toNat := by simp

/-- DRAIN leaves the text still to be read (R68, R230). -/
theorem Unhindered.drain_rest {op : CipherOp} {s : State} (h : Unhindered op s) (hd : s.eng.ph = .data) :
    restText (drained s) = restText s := by
  obtain ⟨hchk, hdi⟩ := h.data hd
  have hle := produced_le hchk hdi
  unfold restText
  show s.eng.inq ++ (drained s).mem.bytesAt (s.desc.srcAddr + s.eng.srcPos)
      (s.eng.tLen.toNat - s.eng.srcPos.toNat) = _
  by_cases hex : s.eng.srcPos.toNat = s.eng.tLen.toNat
  · rw [hex, Nat.sub_self]; rfl
  · have hp : s.eng.dstPos.toNat + s.eng.outq.length ≤ s.eng.srcPos.toNat := by
      have := hdi.produced; have h2 := hdi.srcPos; have h3 := hdi.srcLe
      cases op <;> simp only [producedOk] at this
      case encCbc128 | decCbc128 =>
        rcases this with h | ⟨_, h, _⟩
        · omega
        · rw [h] at h2; omega
      all_goals omega
    have := hdi.srcLe
    have e := h.drain_apart hd s.eng.srcPos.toNat (s.eng.tLen.toNat - s.eng.srcPos.toNat) (by omega) hp
    rw [← word_eq_ofNat] at e
    rw [e]

/-- DRAIN leaves the received tag (R230). -/
theorem Unhindered.drain_recv {s : State} (h : Unhindered .decGcm128 s) (hd : s.eng.ph = .data) : recvTag
    (drained s) = recvTag s := by
  obtain ⟨hchk, hdi⟩ := h.data hd
  have hle := produced_le hchk hdi
  have hck := checkError_textLen hchk
  rw [← hdi.tLen] at hck
  simp at hck
  have hp := hdi.produced
  simp only [producedOk] at hp
  have e := h.drain_apart hd s.eng.tLen.toNat 16 (by omega) (by omega)
  rw [← word_eq_ofNat] at e
  show bytesBlock ((drained s).mem.bytesAt (s.desc.srcAddr + s.eng.tLen) 16) = _
  rw [e]; rfl

/-- DRAIN does not change where a success ends. -/
theorem drained_endsOk (s : State) (x : List Byte) : endsOk (drained s) ((drained s).eng.outq ++ x) = endsOk s
    (s.eng.outq ++ x) := by
  simp only [endsOk, drained, completeOk, List.nil_append, List.length_append, Memory.setBytes_append, BitVec.add_assoc, BitVec.ofNat_add]

/-- Zeros stored over a range take what was stored inside it. -/
theorem setBytes_replicate_over (m : Memory) (hm : Memory.wf m) (a : Addr) (p : Nat) (bs : List Byte) (n
    : Nat) (h : p + bs.length ≤ n) (hn : n ≤ 2^32) :
    (m.setBytes (a + BitVec.ofNat 32 p) bs).setBytes a (List.replicate n 0) = m.setBytes a
        (List.replicate n 0) := by
  refine Memory.ext_byteAt _ _ (Memory.setBytes_wf _ _ _ (Memory.setBytes_wf _ _ _ hm)) (Memory.setBytes_wf _ _ _ hm) fun x => ?_
  by_cases hx : ∃ i < n, x = a + BitVec.ofNat 32 i
  · obtain ⟨i, hi, rfl⟩ := hx
    rw [Memory.byteAt_setBytes_inside _ a _ i (Memory.setBytes_wf _ _ _ hm) (by simpa using hi) (by simpa using hn),
      Memory.byteAt_setBytes_inside _ a _ i hm (by simpa using hi) (by simpa using hn)]
  · have hno : ∀ i < n, x ≠ a + BitVec.ofNat 32 i := fun i hi hc => hx ⟨i, hi, hc⟩
    rw [Memory.byteAt_setBytes_outside _ a x _ (by simpa using hno), Memory.byteAt_setBytes_outside _ a x _ (by simpa using hno)]
    apply Memory.byteAt_setBytes_outside
    intro i hi
    rw [ofNat_add_add]
    exact hno _ (by omega)

/-- DRAIN does not change where a late error ends. -/
theorem drained_endsLate (s : State) (hm : Memory.wf s.mem) (c : ErrorCode) (n : Nat) (h
    : s.eng.dstPos.toNat + s.eng.outq.length ≤ n) (hn : n ≤ 2^32) :
    endsLate (drained s) c n = endsLate s c n := by
  have e := setBytes_replicate_over s.mem hm s.desc.dstAddr s.eng.dstPos.toNat s.eng.outq n h hn
  rw [← word_eq_ofNat] at e
  simp only [endsLate, drained, completeErr, e]

/-- DEC_CBC128's drains are whole buffers until the last unit. -/
def WholeDrains (op : CipherOp) (s : State) : Prop :=
  op = .decCbc128 → s.eng.ph = .data → s.eng.tailDone = false → s.eng.dstPos.toNat % s.cfg.stageBytes = 0

/-- A whole number of buffers below a bound. -/
theorem mul_div_bound {p S t : Nat} (h : p % S = 0) (hp : p ≤ t) : p ≤ S * (t / S) := by
  have h1 : p = S * (p / S) := by have := Nat.div_add_mod p S; omega
  have h2 : p / S ≤ t / S := Nat.div_le_div_right hp
  calc p = S * (p / S) := h1
    _ ≤ S * (t / S) := Nat.mul_le_mul_left S h2

/-- DRAIN does not change what the operation comes to. -/
theorem Unhindered.drain_result {op : CipherOp} {s : State} (h : Unhindered op s) (hd : s.eng.ph = .data) (hw
    : WholeDrains op s)
    (hov : overflow op s = true ∨ (unitReady op s.eng = false ∧ exhausted s.eng = true)) :
    dataResult op (drained s) = dataResult op s ∧ WholeDrains op (drained s) := by
  obtain ⟨hchk, hdi⟩ := h.data hd
  have hle := produced_le hchk hdi
  have hck := checkError_textLen hchk
  rw [← hdi.tLen] at hck
  have hr := h.drain_rest hd
  have hst := wf_stage h.act.inv.cfg
  cases op
  case encCbc128 =>
    refine ⟨?_, fun hc => by cases hc⟩
    simp only [dataResult]
    rw [hr]; exact drained_endsOk s _
  case encCtr128 | decCtr128 =>
    refine ⟨?_, fun hc => by cases hc⟩
    simp only [dataResult]
    rw [hr]; exact drained_endsOk s _
  case encGcm128 =>
    refine ⟨?_, fun hc => by cases hc⟩
    simp only [dataResult]
    rw [hr]; exact drained_endsOk s _
  case decGcm128 =>
    refine ⟨?_, fun hc => by cases hc⟩
    have hp := hdi.produced
    simp only [producedOk] at hp
    have e2 := drained_endsLate s h.act.inv.mem .authenticationFailure s.eng.tLen.toNat (by omega) (by omega)
    simp only [dataResult]
    rw [hr, h.drain_recv hd]
    have e1 := drained_endsOk s (gctr s.eng.key s.eng.cb (restText s))
    exact ite_congr rfl (fun _ => e1) (fun _ => e2)
  case decCbc128 =>
    simp at hck
    have hp := hdi.produced
    simp only [producedOk] at hp
    by_cases ht : s.eng.tailDone = true
    · have htt : (drained s).eng.tailDone = true := ht
      refine ⟨?_, fun _ _ hc => by rw [htt] at hc; cases hc⟩
      simp only [dataResult]
      rw [if_pos ht, if_pos htt]
      have := drained_endsOk s []
      simpa using this
    · have ht' : s.eng.tailDone = false := by simpa using ht
      have htt : (drained s).eng.tailDone = false := ht'
      obtain ⟨_, hm16, hlt, hpr⟩ : s.eng.tailDone = false ∧ s.eng.tDone.toNat % 16 = 0 ∧ s.eng.tDone.toNat < s.eng.tLen.toNat ∧ s.eng.dstPos.toNat + s.eng.outq.length = s.eng.tDone.toNat := by
        rcases hp with h | ⟨h, _⟩
        · exact h
        · exact absurd h ht
      have hal := hw rfl hd ht'
      have hfull : s.eng.outq.length = s.cfg.stageBytes := by
        rcases hov with ho | ⟨hu, hex⟩
        · simp only [overflow, Bool.and_eq_true, decide_eq_true_eq] at ho
          have ho2 : s.cfg.stageBytes - s.eng.outq.length < 16 := ho.2
          have hoc := hdi.outCap
          have : s.eng.dstPos.toNat % 16 = 0 := by
            have h1 : 16 ∣ s.cfg.stageBytes := Nat.dvd_of_mod_eq_zero hst.1
            exact Nat.mod_eq_zero_of_dvd (Nat.dvd_trans h1 (Nat.dvd_of_mod_eq_zero hal))
          omega
        · simp only [exhausted, decide_eq_true_eq] at hex
          simp only [unitReady, decide_eq_false_iff_not] at hu
          have := hdi.srcPos
          rw [hex] at this
          omega
      have hdp : (drained s).eng.dstPos.toNat = s.eng.dstPos.toNat + s.eng.outq.length := toNat_add_ofNat _ _ hle.2.2.2
      have hal' : (s.eng.dstPos.toNat + s.eng.outq.length) % s.cfg.stageBytes = 0 := by
        rw [hfull, Nat.add_mod_right]; exact hal
      refine ⟨?_, fun _ _ _ => by rw [hdp]; exact hal'⟩
      have hN := mul_div_bound (t := s.eng.tLen.toNat - 16) hal' (by omega)
      have hN2 : s.cfg.stageBytes *
          ((s.eng.tLen.toNat - 16) / s.cfg.stageBytes) ≤ s.eng.tLen.toNat - 16 := Nat.mul_div_le _ _
      have e2 := drained_endsLate s h.act.inv.mem .invalidPadding _ hN (by omega)
      simp only [dataResult]
      rw [if_neg (show ¬ (drained s).eng.tailDone = true by rw [htt]; simp), if_neg ht, hr]
      have hk : (drained s).eng.key = s.eng.key := rfl
      have hcv : (drained s).eng.cv = s.eng.cv := rfl
      rw [hk, hcv]
      cases cbcDec s.eng.key s.eng.cv (restText s) with
      | some p => exact drained_endsOk s p
      | none => exact e2

/-! ## FEED -/
def fed (s : State) : State :=
  { s with
      eng := { s.eng with inq := s.eng.inq ++ s.mem.bytesAt (s.desc.srcAddr + s.eng.srcPos) (feedCount s), srcPos := s.eng.srcPos + BitVec.ofNat 32 (feedCount s) } }

/-- FEED, every read completing (R225). -/
theorem Unhindered.feed_eq {op : CipherOp} {s : State} (h : Unhindered op s) (hd : s.eng.ph = .data)
    : feedStep s = fed s := by
  obtain ⟨hchk, hdi⟩ := h.data hd
  have hle := produced_le hchk hdi
  unfold feedStep fed
  have : readsOk s.cfg (s.desc.srcAddr + s.eng.srcPos) (feedCount s) := by
    intro i hi
    rw [add_pos_ofNat]; refine h.src _ ?_
    unfold feedCount at hi; omega
  rw [readRun_ok _ _ _ _ this]

/-- FEED moves text from memory to the queue. -/
theorem Unhindered.feed_rest {op : CipherOp} {s : State} (h : Unhindered op s) (hd : s.eng.ph = .data)
    : restText (fed s) = restText s := by
  obtain ⟨hchk, hdi⟩ := h.data hd
  have hlt := s.eng.tLen.isLt
  have hsl := hdi.srcLe
  have hk : feedCount s ≤ s.eng.tLen.toNat - s.eng.srcPos.toNat := by unfold feedCount; omega
  have hsp : (s.eng.srcPos + BitVec.ofNat 32 (feedCount s)).toNat = s.eng.srcPos.toNat + feedCount s := toNat_add_ofNat _ _ (by omega)
  unfold restText
  show (s.eng.inq ++ s.mem.bytesAt (s.desc.srcAddr + s.eng.srcPos) (feedCount s)) ++
    s.mem.bytesAt (s.desc.srcAddr + (s.eng.srcPos + BitVec.ofNat 32 (feedCount s))) (s.eng.tLen.toNat -
        (s.eng.srcPos + BitVec.ofNat 32 (feedCount s)).toNat) = _
  have e : s.eng.tLen.toNat - s.eng.srcPos.toNat = feedCount s + (s.eng.tLen.toNat - (s.eng.srcPos + BitVec.ofNat 32 (feedCount s)).toNat) := by omega
  rw [e, Memory.bytesAt_add, List.append_assoc, BitVec.add_assoc]

/-- FEED does not change what the operation comes to. -/
theorem Unhindered.feed_result {op : CipherOp} {s : State} (h : Unhindered op s) (hd : s.eng.ph = .data) (hw
    : WholeDrains op s) :
    dataResult op (fed s) = dataResult op s ∧ WholeDrains op (fed s) := by
  have hr := h.feed_rest hd
  refine ⟨?_, hw⟩
  cases op <;> simp only [dataResult] <;> rw [hr] <;> rfl

/-! ## The units -/

/-- A unit takes the next 16 bytes of the text. -/
theorem restText_drop {s : State} (hn : 16 ≤ s.eng.inq.length) (e : Engine) (h1 : e.inq = s.eng.inq.drop 16)
    (h2 : e.srcPos = s.eng.srcPos) (h3 : e.tLen = s.eng.tLen) :
    restText { s with eng := e } = (restText s).drop 16 ∧ (restText s).take 16 = s.eng.inq.take 16 := by
  unfold restText
  simp only [h1, h2, h3]
  exact ⟨(List.drop_append_of_le_length hn).symm, List.take_append_of_le_length hn⟩

/-- The same for the counter modes, whose last piece may be shorter. -/
theorem restText_stream {s : State} (hu : streamUnitReady s.eng = true) (e : Engine) (h1
    : e.inq = s.eng.inq.drop 16) (h2 : e.srcPos = s.eng.srcPos) (h3 : e.tLen = s.eng.tLen) :
    restText { s with eng := e } = (restText s).drop 16 ∧ (restText s).take 16 = s.eng.inq.take 16 ∧ restText s ≠ [] := by
  simp only [streamUnitReady, exhausted, Bool.or_eq_true, Bool.and_eq_true, decide_eq_true_eq] at hu
  rcases hu with hn | ⟨⟨hex, h0⟩, _⟩
  · refine ⟨(restText_drop hn e h1 h2 h3).1, (restText_drop hn e h1 h2 h3).2, ?_⟩
    intro hc
    have := congrArg List.length hc
    simp [restText] at this
    simp [this.1] at hn
  · have hr : restText s = s.eng.inq := by unfold restText; rw [hex, Nat.sub_self]; simp [Memory.bytesAt]
    have hr' : restText { s with eng := e } = e.inq := by unfold restText; simp only [h2, h3]; rw [hex, Nat.sub_self]; simp [Memory.bytesAt]
    refine ⟨by rw [hr, hr', h1], by rw [hr], ?_⟩
    rw [hr]; exact List.length_pos_iff.mp h0

/-- The text not yet transformed, as R227 counts it. -/
theorem restText_length {op : CipherOp} {s : State} (hdi : DataInv op s.cfg s.desc s.eng) :
    (restText s).length = s.eng.tLen.toNat - s.eng.tDone.toNat := by
  have h1 := hdi.srcPos; have h2 := hdi.srcLe
  simp [restText]; omega

/-- Where a success ends depends on the position alone. -/
theorem endsOk_congr (s : State) (e : Engine) (h : e.dstPos = s.eng.dstPos) (out : List Byte) : endsOk
    { s with eng := e } out = endsOk s out := by
  simp only [endsOk, completeOk, h]

/-- The same, with equal outputs. -/
theorem endsOk_of (s : State) (e : Engine) (h : e.dstPos = s.eng.dstPos) {out out' : List Byte} (ho
    : out = out') : endsOk { s with eng := e } out = endsOk s out' := by
  rw [endsOk_congr s e h, ho]

/-- Where a late error ends does not depend on the engine. -/
theorem endsLate_congr (s : State) (e : Engine) (c : ErrorCode) (n : Nat) : endsLate
    { s with eng := e } c n = endsLate s c n := rfl

/-- What a running operation comes to in the phases DATA, TAG and ZERO. -/
def lateResult (op : CipherOp) (s : State) : State :=
  match s.eng.ph with
  | .none => s
  | .data => dataResult op s
  | .tag =>
    if op = .encGcm128 then endsOk s (blockBytes (tagAfter s.eng []))
    else if recvTag s = tagAfter s.eng [] then endsOk s
        [] else endsLate s .authenticationFailure s.eng.tLen.toNat
  | .zero => endsLate s s.eng.perr s.eng.dstPos.toNat
  | _ => s

/-- A unit does not change what the operation comes to: it is the reference function's block step (R231). -/
theorem Unhindered.unit_result {op : CipherOp} {s : State} (h : Unhindered op s) (hd : s.eng.ph = .data) (hw
    : WholeDrains op s)
    (hu : unitReady op s.eng = true) (hf : 16 ≤ s.cfg.stageBytes - s.eng.outq.length) (e : Engine) (he
        : applyUnit op s.cfg.ctrWidth s.eng = some e) :
    lateResult op { s with eng := e } = dataResult op s ∧ WholeDrains op { s with eng := e } := by
  obtain ⟨hchk, hdi⟩ := h.data hd
  have hlen := restText_length hdi
  cases op
  case encCtr128 | decCtr128 =>
    refine ⟨?_, fun hc => by cases hc⟩
    simp only [applyUnit, Option.some.injEq] at he
    subst he
    obtain ⟨h1, h2, h3⟩ := restText_stream hu (ctrUnit s.cfg.ctrWidth s.eng) rfl rfl rfl
    simp only [lateResult, ctrUnit_ph, hd, dataResult]
    rw [h1, ctr_cons _ _ _ _ h3, h2]
    exact endsOk_of _ _ rfl (by simp [ctrUnit])
  case encGcm128 =>
    refine ⟨?_, fun hc => by cases hc⟩
    simp only [applyUnit, Option.some.injEq] at he
    subst he
    obtain ⟨h1, h2, h3⟩ := restText_stream hu (encGcm128Unit s.eng) rfl rfl rfl
    simp only [lateResult, encGcm128Unit_ph, hd, dataResult]
    have hg : gctr s.eng.key s.eng.cb (restText s) = xorBytes (s.eng.inq.take 16) (blockBytes
        (blockE s.eng.key s.eng.cb)) ++
        gctr s.eng.key (incBlock 32 s.eng.cb) ((restText s).drop 16) := by rw [gctr_cons _ _ (restText s) h3, h2]
    rw [h1, hg]
    refine endsOk_of _ _ rfl ?_
    have ht : ∀ (R : List Byte), R = gctr s.eng.key (incBlock 32 s.eng.cb) ((restText s).drop 16) → tagAfter (encGcm128Unit s.eng) R = tagAfter s.eng (xorBytes (s.eng.inq.take 16) (blockBytes (blockE s.eng.key s.eng.cb)) ++ R) := by
      intro R hR
      unfold tagAfter
      have hl : (xorBytes (s.eng.inq.take 16) (blockBytes (blockE s.eng.key s.eng.cb))).length = min 16 s.eng.inq.length := by
        rw [xorBytes_keystream_length]; simp
      have hne : s.eng.inq ≠ [] := by
        intro hc; simp [hc, unitReady, streamUnitReady] at hu
      have hpos := List.length_pos_iff.mpr hne
      have hne2 : xorBytes (s.eng.inq.take 16) (blockBytes (blockE s.eng.key s.eng.cb)) ++ R ≠ [] := by
        intro hc
        have := congrArg List.length (List.append_eq_nil_iff.mp hc).1
        rw [hl, List.length_nil] at this; omega
      rw [ghashFrom_cons _ _ _ hne2]
      by_cases h16 : 16 ≤ s.eng.inq.length
      · have h1 : (xorBytes (s.eng.inq.take 16) (blockBytes (blockE s.eng.key s.eng.cb)) ++ R).take 16 = xorBytes (s.eng.inq.take 16) (blockBytes (blockE s.eng.key s.eng.cb)) := by
          rw [List.take_append_of_le_length (by rw [hl]; omega)]
          exact List.take_of_length_le (by rw [hl]; omega)
        have h2 : (xorBytes (s.eng.inq.take 16) (blockBytes (blockE s.eng.key s.eng.cb)) ++ R).drop 16 = R := by
          rw [List.drop_append_of_le_length (by rw [hl]; omega), List.drop_of_length_le (by rw [hl]; omega)]; rfl
        rw [h1, h2]
        rfl
      · have hR0 : R = [] := by
          have hs : (restText s).length ≤ 16 := by
            simp only [unitReady, streamUnitReady, exhausted, Bool.or_eq_true, Bool.and_eq_true, decide_eq_true_eq] at hu
            rcases hu with hn | ⟨⟨hex, h0⟩, _⟩
            · exact absurd hn h16
            · unfold restText; rw [hex, Nat.sub_self]; simp [Memory.bytesAt]; omega
          rw [hR, List.drop_of_length_le hs]; rfl
        subst hR0
        rw [List.append_nil, List.take_of_length_le (by rw [hl]; omega), List.drop_of_length_le (by rw [hl]; omega)]
        rfl
    have hk : (encGcm128Unit s.eng).key = s.eng.key := rfl
    have hc : (encGcm128Unit s.eng).cb = incBlock 32 s.eng.cb := rfl
    rw [hk, hc, ht _ rfl]
    simp [encGcm128Unit]
  case decGcm128 =>
    refine ⟨?_, fun hc => by cases hc⟩
    simp only [applyUnit, Option.some.injEq] at he
    subst he
    obtain ⟨h1, h2, h3⟩ := restText_stream hu (decGcm128Unit s.eng) rfl rfl rfl
    simp only [lateResult, decGcm128Unit_ph, hd, dataResult]
    rw [h1, gctr_cons _ _ (restText s) h3, h2]
    have ht : tagAfter (decGcm128Unit s.eng) ((restText s).drop 16) = tagAfter s.eng (restText s) := by
      unfold tagAfter
      rw [ghashFrom_cons _ _ (restText s) h3, h2]; rfl
    rw [ht]
    have : recvTag { s with eng := decGcm128Unit s.eng } = recvTag s := rfl
    rw [this]
    exact ite_congr rfl (fun _ => endsOk_of _ _ rfl (by simp [decGcm128Unit])) (fun _ => rfl)
  case encCbc128 =>
    refine ⟨?_, fun hc => by cases hc⟩
    simp only [applyUnit, Option.some.injEq] at he
    subst he
    unfold encCbc128Unit
    have hp := hdi.produced
    simp only [producedOk] at hp
    have hsp := hdi.srcPos; have hsl := hdi.srcLe
    split
    case isTrue hr =>
      have ht : s.eng.tailDone = false := by
        rcases hp with h | ⟨_, h, _⟩
        · exact h.1
        · rw [h] at hsp; omega
      obtain ⟨h1, h2⟩ := restText_drop hr (encCbc128Full s.eng) rfl rfl rfl
      simp only [lateResult, encCbc128Full_ph, hd, dataResult]
      rw [h1]
      simp only [encCbc128Full_tailDone, ht]
      rw [if_neg (by simp), if_neg (by simp), cbcEnc_cons _ _ (restText s) (by rw [hlen]; omega), h2]
      exact endsOk_of _ _ rfl (by simp [encCbc128Full])
    case isFalse hr =>
      simp only [unitReady, exhausted, Bool.or_eq_true, Bool.and_eq_true, decide_eq_true_eq, Bool.not_eq_true'] at hu
      have ⟨hex, htf⟩ : s.eng.srcPos = s.eng.tLen ∧ s.eng.tailDone = false := by
        rcases hu with hu | hu
        · exact absurd hu hr
        · exact hu
      have hrt : restText s = s.eng.inq := by unfold restText; rw [hex, Nat.sub_self]; simp [Memory.bytesAt]
      simp only [lateResult, encCbc128Pad_ph, hd, dataResult]
      simp only [encCbc128Pad_tailDone, htf]
      rw [if_pos trivial, if_neg (by simp), hrt, cbcEnc_last _ _ _ (by omega)]
      exact endsOk_of _ _ rfl (by simp [encCbc128Pad])
  case decCbc128 =>
    have hck := checkError_textLen hchk
    rw [← hdi.tLen] at hck
    simp at hck
    have hp := hdi.produced
    simp only [producedOk] at hp
    have hsp := hdi.srcPos; have hsl := hdi.srcLe
    simp only [unitReady, decide_eq_true_eq] at hu
    obtain ⟨ht, hm16, hlt, hpr⟩ : s.eng.tailDone = false ∧ s.eng.tDone.toNat % 16 = 0 ∧ s.eng.tDone.toNat < s.eng.tLen.toNat ∧ s.eng.dstPos.toNat + s.eng.outq.length = s.eng.tDone.toNat := by
      rcases hp with h | ⟨_, h, _⟩
      · exact h
      · rw [h] at hsp; omega
    have hal := hw rfl hd ht
    simp only [applyUnit] at he
    unfold decCbc128Unit at he
    split at he
    case isTrue hmid =>
      cases he
      refine ⟨?_, fun _ _ _ => hal⟩
      obtain ⟨h1, h2⟩ := restText_drop hu (decCbc128Mid s.eng) rfl rfl rfl
      simp only [lateResult, decCbc128Mid_ph, hd, dataResult, decCbc128Mid_tailDone, ht]
      rw [if_neg (by simp), if_neg (by simp), h1, cbcDec_cons _ _ (restText s) (by rw [hlen]; omega) (by rw [hlen]; omega), h2]
      simp only [decCbc128Mid_key, decCbc128Mid_tLen]
      have hcv : (decCbc128Mid s.eng).cv = bytesBlock (s.eng.inq.take 16) := rfl
      rw [hcv]
      cases cbcDec s.eng.key (bytesBlock (s.eng.inq.take 16)) ((restText s).drop 16) with
      | some p => exact endsOk_of _ _ rfl (by simp [decCbc128Mid])
      | none => rfl
    case isFalse hmid =>
      rw [if_pos (by omega)] at he
      cases he
      have h16 : s.eng.inq.length = 16 := by omega
      have hex : s.eng.srcPos.toNat = s.eng.tLen.toNat := by omega
      have hrt : restText s = s.eng.inq := by unfold restText; rw [hex, Nat.sub_self]; simp [Memory.bytesAt]
      have htk : s.eng.inq.take 16 = s.eng.inq := List.take_of_length_le (by omega)
      rw [show dataResult .decCbc128 s = _ from rfl]
      unfold dataResult
      simp only [ht]
      rw [if_neg (by simp), hrt, cbcDec_last _ _ _ h16]
      unfold decCbc128Last
      simp only [htk]
      split
      case isTrue hup =>
        refine ⟨?_, fun _ _ hc => by cases hc⟩
        simp only [lateResult, hd, dataResult]
        rw [if_pos trivial]
        exact endsOk_of _ _ rfl rfl
      case isFalse hup =>
        refine ⟨?_, fun _ hc => by cases hc⟩
        simp only [lateResult, lateError]
        have hpos : 0 < s.cfg.stageBytes := by have := (wf_stage h.act.inv.cfg).2; omega
        have hN : s.eng.dstPos.toNat = s.cfg.stageBytes * ((s.eng.tLen.toNat - 16) / s.cfg.stageBytes) := by
          have hq : s.eng.tLen.toNat - 16 = s.eng.dstPos.toNat + s.eng.outq.length := by omega
          have h1 : s.eng.dstPos.toNat = s.cfg.stageBytes * (s.eng.dstPos.toNat / s.cfg.stageBytes) := by
            have := Nat.div_add_mod s.eng.dstPos.toNat s.cfg.stageBytes; omega
          have h2 : (s.eng.tLen.toNat - 16) / s.cfg.stageBytes = s.eng.dstPos.toNat / s.cfg.stageBytes := by
            have h3 : s.eng.outq.length / s.cfg.stageBytes = 0 := Nat.div_eq_of_lt (by omega)
            rw [hq, h1, Nat.mul_add_div hpos, h3, Nat.mul_div_cancel_left _ hpos]; rfl
          rw [h2]; exact h1
        rw [← hN]
        rfl

end Sys2Proof.Machine
end

