-- ==== Sys2Proof/Laws/Run.lean ====
section
/-! SUPPORT. Runs: they compose, they are the host's runs of Sys2Proof.core, and a loop whose every turn
lowers a measure or leaves it ends within the measure. -/

namespace Sys2Proof.Machine

/-- Our runs are the runs of Host/Core.lean. -/
theorem run_eq_core_run (n : Nat) (s : State) : Sys2Proof.core.run n s = run n s := by
  induction n generalizing s with
  | zero => rfl
  | succ n ih =>
    have hc : Sys2Proof.core.step s = step s := rfl
    simp only [Host.Core.run, run]
    cases hs : step s with
    | next s' => rw [hs] at hc; simp only [hc]; exact ih s'
    | fault f => rw [hs] at hc; simp only [hc]; rfl
    | refused r => rw [hs] at hc; simp only [hc]; rfl

theorem run_succ (n : Nat) (s s' : State) (h : step s = .next s') : run (n + 1) s = run n s' := by
  simp [run, h]

theorem run_add (n k : Nat) (s s' : State) (h : run n s = .next s') : run (n + k) s = run k s' := by
  induction n generalizing s with
  | zero => simp only [run, Host.Outcome.next.injEq] at h; simp [h]
  | succ n ih =>
    rw [Nat.succ_add]
    simp only [run] at h ⊢
    cases hs : step s with
    | next t => rw [hs] at h; exact ih t h
    | fault f => rw [hs] at h; cases h
    | refused r => rw [hs] at h; cases h

/-- With no host access pending the engine moves. -/
theorem step_of_no_inputs (s : State) (h : s.inputs = []) : step s = engineStep s := by
  simp [step, h]

/-- A loop ends: if from every state with `P` a step goes to a state with `Q`, or to one with `P` and a
smaller measure, then a state with `Q` is reached within the measure plus one steps. -/
theorem run_reaches (P Q : State → Prop) (μ : State → Nat)
    (h : ∀ s, P s → ∃ s', step s = .next s' ∧ (Q s' ∨ (P s' ∧ μ s' < μ s))) (s : State) (hs : P s) :
    ∃ n ≤ μ s + 1, ∃ s', run n s = .next s' ∧ Q s' := by
  induction hm : μ s using Nat.strongRecOn generalizing s with
  | ind m ih =>
    obtain ⟨s', hstep, hq | ⟨hp, hlt⟩⟩ := h s hs
    · exact ⟨1, by omega, s', by simp [run, hstep], hq⟩
    · obtain ⟨n, hn, t, hrun, hq⟩ := ih (μ s') (hm ▸ hlt) s' hp rfl
      exact ⟨n + 1, by omega, t, by rw [run_succ n s s' hstep]; exact hrun, hq⟩

end Sys2Proof.Machine
end

