-- ==== Sys2Proof/Laws/Operation.lean ====
section
/-! SUPPORT. An operation that is ready runs to what it comes to (spec/44_stream_manager.md R231, R235, R239). -/

namespace Sys2Proof.Machine

/-- The next state of a running operation that goes on. -/
theorem Running.next {op : CipherOp} {s t : State} (h : Running op s) (ht : engineStep s = .next t) (hp
    : t.eng.ph ≠ .none)
    (ho : t.eng.op = s.eng.op) (hz : t.eng.aadz = s.eng.aadz) : Running op t := by
  have hi := inv_engineStep h.inv ht
  obtain ⟨op', hop, _, hph⟩ := hi.running.active hp
  have : op' = op := by
    rw [ho, h.hop] at hop
    exact (Option.some.inj hop).symm
  subst this
  exact ⟨hi, hp, ho ▸ h.hop, hz ▸ h.haz, hph⟩

/-- Nothing hinders it then either. -/
theorem Unhindered.next {op : CipherOp} {s t : State} (h : Unhindered op s) (ht : engineStep s = .next t) (hp
    : t.eng.ph ≠ .none)
    (ho : t.eng.op = s.eng.op) (hz : t.eng.aadz = s.eng.aadz) : Unhindered op t := by
  have f := engineStep_frame s t ht
  refine ⟨h.act.next ht hp ho hz, ?_, ?_, ?_, ?_, ?_, ?_⟩ <;> rw [f.desc] <;> try rw [f.cfg]
  · exact h.key
  · exact h.iv
  · rw [hz]; exact h.aad
  · exact h.src
  · exact h.dst
  · exact h.overlap

/-- The AAD bytes not yet absorbed. -/
def aadRest (s : State) : List Byte :=
  if s.eng.aadz then List.replicate 16 0
  else s.mem.bytesAt (s.desc.aadAddr + s.eng.aadPos) (s.desc.aadLen.toNat - s.eng.aadPos.toNat)

/-- What a running operation comes to, from the AAD phase on. -/
def result (op : CipherOp) (s : State) : State :=
  if s.eng.ph = .aad then dataResult op { s with eng := { s.eng with y := ghashFrom s.eng.h s.eng.y (aadRest s) } }
  else lateResult op s

/-- The phases from AAD on. -/
def late (s : State) : Prop := s.eng.ph = .aad ∨ s.eng.ph = .data ∨ s.eng.ph = .tag ∨ s.eng.ph = .zero

/-- The operation has ended where it was bound to, or goes on towards the same end. -/
def Onward (op : CipherOp) (s t : State) : Prop :=
  (t.eng.ph = .none ∧ t = result op s) ∨
  (Unhindered op t ∧ WholeDrains op t ∧ late t ∧ result op t = result op s)

/-- The engine's step is its phase's. -/
theorem engineStep_phase {op : CipherOp} {s : State} (h : Running op s)
    : engineStep s = phaseStep op s := engineStep_active s op h.act h.hop

/-- Phase DATA. -/
theorem data_on {op : CipherOp} {s t : State} (h : Unhindered op s) (hw : WholeDrains op s) (hd
    : s.eng.ph = .data) (ht : engineStep s = .next t) : Onward op s t := by
  have hst := ht
  rw [engineStep_phase h.act, show phaseStep op s = dataStep op s by unfold phaseStep; rw [hd]] at hst
  obtain ⟨hchk, hdi⟩ := h.data hd
  have hle := produced_le hchk hdi
  have hres : result op s = dataResult op s := by unfold result lateResult; simp [hd]
  have hdone : ∀ u : State, u.eng.ph = .data → result op u = dataResult op u := by
    intro u hu; unfold result lateResult; simp [hu]
  unfold dataStep at hst
  split at hst
  case isTrue hx =>
    simp only [Bool.and_eq_true, decide_eq_true_eq] at hx
    have hx2 : 16 ≤ s.cfg.stageBytes - s.eng.outq.length := hx.2
    obtain ⟨e', he', hres⟩ := applyUnit_result op s.cfg s.desc s.cfg.ctrWidth s.eng hchk hdi hx.1 hx2
    unfold xformStep at hst
    rw [he'] at hst
    cases hst
    obtain ⟨h1, h2, h3, h4⟩ := hres
    obtain ⟨hf, hw'⟩ := h.unit_result hd hw hx.1 hx2 e' he'
    have hp : e'.ph = .data ∨ e'.ph = .zero := by
      rcases h4 with ⟨hp, _⟩ | ⟨hp, _⟩
      · exact .inl (hp.trans hd)
      · exact .inr hp
    have hpn : e'.ph ≠ .none := by rcases hp with hp | hp <;> simp [hp]
    refine .inr ⟨h.next ht hpn h1 h2, hw', ?_, ?_⟩
    · rcases hp with hp | hp
      · exact .inr (.inl hp)
      · exact .inr (.inr (.inr hp))
    · rw [hres, ← hf]
      unfold result
      rw [if_neg (by rcases hp with hp | hp <;> simp [hp])]
  case isFalse hx =>
    have drains : (overflow op s = true ∨ (unitReady op s.eng = false ∧ exhausted s.eng = true)) → t = drainStep s → Onward op s t := by
      intro hov hte
      rw [h.drain_eq hd] at hte
      subst hte
      obtain ⟨hf, hw'⟩ := h.drain_result hd hw hov
      refine .inr ⟨h.next ht (by simp [drained, hd]) rfl rfl, hw', .inr (.inl hd), ?_⟩
      rw [hres, ← hf]
      exact hdone _ hd
    split at hst
    case isTrue ho => cases hst; exact drains (.inl ho) rfl
    case isFalse ho =>
      have hu : unitReady op s.eng = false := by
        by_contra hc
        simp only [Bool.not_eq_false] at hc
        simp only [overflow, hc, Bool.true_and, decide_eq_true_eq] at ho hx
        omega
      split at hst
      case isTrue hun =>
        cases hst
        have hfe := h.feed_eq hd
        rw [hfe] at ht ⊢
        obtain ⟨hf, hw'⟩ := h.feed_result hd hw
        refine .inr ⟨h.next ht (by simp [fed, hd]) rfl rfl, hw', .inr (.inl hd), ?_⟩
        rw [hres, ← hf]
        exact hdone _ hd
      case isFalse hun =>
        have hex : exhausted s.eng = true := by simpa [underflow, hu] using hun
        split at hst
        case isTrue hl => cases hst; exact drains (.inr ⟨hu, hex⟩) rfl
        case isFalse hl =>
          cases hst
          have hex' := hex
          simp only [exhausted, decide_eq_true_eq] at hex'
          have hout : s.eng.outq = [] := List.length_eq_zero_iff.mp (by omega)
          have hsp := hdi.srcPos; rw [hex'] at hsp
          have hpr := hdi.produced
          have hin : s.eng.inq = [] := by
            apply List.length_eq_zero_iff.mp
            cases op <;> simp [unitReady, streamUnitReady, exhausted, hex'] at hu
            case encCbc128 =>
              rcases hpr with ⟨h1, _⟩ | ⟨_, h1, _⟩
              · simp [h1] at hu
              · rw [h1] at hsp; omega
            case decCbc128 =>
              have hck := checkError_textLen hchk
              rw [← hdi.tLen] at hck
              simp at hck
              rcases hpr with ⟨_, h1, h2, _⟩ | ⟨_, h1, _⟩
              · omega
              · rw [h1] at hsp; omega
            all_goals omega
          have hrt : restText s = [] := by unfold restText; rw [hex', Nat.sub_self, hin]; rfl
          unfold endOfData at ht ⊢
          cases op
          case encCbc128 =>
            have htail : s.eng.tailDone = true := by
              simp only [unitReady, exhausted, hex'] at hu
              simpa [hin] using hu
            refine .inl ⟨rfl, ?_⟩
            rw [hres]; simp [dataResult, endsOk, hout, htail, CipherOp.isGcm]
          case decCbc128 =>
            have hck := checkError_textLen hchk
            rw [← hdi.tLen] at hck
            simp at hck
            have htail : s.eng.tailDone = true := by
              rw [hin] at hsp
              simp only [List.length_nil] at hsp
              rcases hpr with ⟨_, h1, h2, _⟩ | ⟨h1, _⟩
              · omega
              · exact h1
            refine .inl ⟨rfl, ?_⟩
            rw [hres]; simp [dataResult, endsOk, hout, htail, CipherOp.isGcm]
          case encCtr128 | decCtr128 =>
            refine .inl ⟨rfl, ?_⟩
            rw [hres]; simp [dataResult, endsOk, hout, hrt, CipherOp.isGcm, ctr, ctrPieces]
          case encGcm128 =>
            refine .inr ⟨h.next ht (by simp [CipherOp.isGcm]) rfl rfl, (fun hc => by cases hc), .inr (.inr (.inl rfl)), ?_⟩
            rw [hres]
            simp only [result, lateResult, CipherOp.isGcm, dataResult, hrt, hout]
            rfl
          case decGcm128 =>
            refine .inr ⟨h.next ht (by simp [CipherOp.isGcm]) rfl rfl, (fun hc => by cases hc), .inr (.inr (.inl rfl)), ?_⟩
            rw [hres]
            simp only [result, lateResult, CipherOp.isGcm, dataResult, hrt, hout]
            rfl

/-- Phase AAD. -/
theorem aad_on {op : CipherOp} {s t : State} (h : Unhindered op s) (hd : s.eng.ph = .aad) (ht
    : engineStep s = .next t) : Onward op s t := by
  have hst := ht
  rw [engineStep_phase h.act, show phaseStep op s = aadStep op s by unfold phaseStep; rw [hd]] at hst
  have hph := h.act.ph
  unfold PhaseInv at hph; rw [hd] at hph
  obtain ⟨hchk, hun, hg, hT, haad⟩ := hph
  obtain ⟨hi1, hi2, hi3, hi4, hi5, hi6, hi7⟩ := hun
  have hwd : ∀ u : State, WholeDrains op u := by intro u hc; rw [hc] at hg; cases hg
  unfold aadStep at hst
  rw [if_pos hg] at hst
  cases hst
  have hres : result op s = dataResult op { s with eng := { s.eng with y := ghashFrom s.eng.h s.eng.y (aadRest s) } } := by
    unfold result; rw [if_pos hd]
  -- dataResult sees nothing of the phase and of aadPos
  have congrD : ∀ (e e' : Engine), { e with ph := .data, aadPos := 0 } = { e' with ph := .data, aadPos := 0 } →
      dataResult op { s with eng := e } = dataResult op { s with eng := e' } := by
    intro e e' he
    have h0 : ∀ e : Engine, dataResult op { s with eng := e } = dataResult op { s with eng := { e with ph := .data, aadPos := 0 } } := by
      intro e; cases op <;> rfl
    rw [h0 e, h0 e', he]
  have goData : ∀ e : Engine, e.ph = .data → gcmAad s = { s with eng := e } → e.op = s.eng.op → e.aadz = s.eng.aadz →
      { e with ph := .data, aadPos := 0 } = { s.eng with ph := .data, aadPos := 0, y := ghashFrom s.eng.h s.eng.y (aadRest s) } →
      Onward op s (gcmAad s) := by
    intro e hp he h1 h2 h3
    rw [he] at ht ⊢
    refine .inr ⟨h.next ht (by simp [hp]) h1 h2, hwd _, .inr (.inl hp), ?_⟩
    rw [hres]
    have : result op { s with eng := e } = dataResult op { s with eng := e } := by unfold result lateResult; simp [hp]
    rw [this]
    exact congrD _ _ h3
  by_cases hz : s.eng.aadz = true
  · refine goData { s.eng with y := ghashStep s.eng.h s.eng.y 0, aadPos := 16, ph := .data } rfl ?_ rfl rfl ?_
    · unfold gcmAad; simp only [hz]; simp
    · have : ghashFrom s.eng.h s.eng.y (aadRest s) = ghashStep s.eng.h s.eng.y 0 := by
        unfold aadRest
        rw [if_pos hz]
        have hb : zpadBlock (List.replicate 16 0) = 0 := by decide
        unfold ghashFrom
        rw [chunks_short _ (by simp) (by simp), List.foldl_cons, List.foldl_nil, hb]
      rw [this]
  · have hz' : s.eng.aadz = false := by simpa using hz
    have hal := haad hz'
    have hlt := s.desc.aadLen.isLt
    by_cases hmore : s.eng.aadPos.toNat < s.desc.aadLen.toNat
    · let k := min 16 (s.desc.aadLen.toNat - s.eng.aadPos.toNat)
      have hk : (s.eng.aadPos + BitVec.ofNat 32 k).toNat = s.eng.aadPos.toNat + k := toNat_add_ofNat _ _ (by omega)
      have hrd : readsOk s.cfg (s.desc.aadAddr + s.eng.aadPos) k := by
        intro i hi
        rw [add_pos_ofNat]
        exact h.aad hg hz' _ (by omega)
      have he : gcmAad s = { s with eng := { s.eng with y := ghashStep s.eng.h s.eng.y (zpadBlock (s.mem.bytesAt (s.desc.aadAddr + s.eng.aadPos) k)), aadPos := s.eng.aadPos + BitVec.ofNat 32 k } } := by
        unfold gcmAad
        simp only [hz', if_pos hmore]
        rw [show min 16 (s.desc.aadLen.toNat - s.eng.aadPos.toNat) = k from rfl, readRun_ok _ _ _ _ hrd]
        simp
      rw [he] at ht ⊢
      refine .inr ⟨h.next ht (by simp [hd]) rfl rfl, hwd _, .inl hd, ?_⟩
      rw [hres]
      unfold result
      rw [if_pos hd]
      apply congrD
      have hsplit : aadRest s = s.mem.bytesAt (s.desc.aadAddr + s.eng.aadPos) k ++ s.mem.bytesAt (s.desc.aadAddr + (s.eng.aadPos + BitVec.ofNat 32 k)) (s.desc.aadLen.toNat - (s.eng.aadPos + BitVec.ofNat 32 k).toNat) := by
        unfold aadRest
        rw [if_neg hz, ← BitVec.add_assoc, ← Memory.bytesAt_add, hk]
        congr 1
        omega
      have hne : aadRest s ≠ [] := by
        intro hc
        have := congrArg List.length hc
        unfold aadRest at this
        rw [if_neg hz] at this
        simp at this
        omega
      have hgf : ghashFrom s.eng.h s.eng.y (aadRest s) = ghashFrom s.eng.h (ghashStep s.eng.h s.eng.y (zpadBlock (s.mem.bytesAt (s.desc.aadAddr + s.eng.aadPos) k))) (s.mem.bytesAt (s.desc.aadAddr + (s.eng.aadPos + BitVec.ofNat 32 k)) (s.desc.aadLen.toNat - (s.eng.aadPos + BitVec.ofNat 32 k).toNat)) := by
        rw [ghashFrom_cons _ _ _ hne]
        have hcases : (aadRest s).take 16 = s.mem.bytesAt (s.desc.aadAddr + s.eng.aadPos) k ∧ (aadRest s).drop 16 = s.mem.bytesAt (s.desc.aadAddr + (s.eng.aadPos + BitVec.ofNat 32 k)) (s.desc.aadLen.toNat - (s.eng.aadPos + BitVec.ofNat 32 k).toNat) := by
          rw [hsplit]
          by_cases h16 : k = 16
          · exact ⟨List.take_left' (by simp [h16]), List.drop_left' (by simp [h16])⟩
          · have h0 : s.desc.aadLen.toNat - (s.eng.aadPos + BitVec.ofNat 32 k).toNat = 0 := by omega
            rw [h0]
            simp only [Memory.bytesAt, List.append_nil]
            exact ⟨List.take_of_length_le (by simp; omega), List.drop_of_length_le (by simp; omega)⟩
        rw [hcases.1, hcases.2]
      rw [hgf]
      simp only [aadRest, hz']
      rfl
    · refine goData { s.eng with ph := .data } rfl ?_ rfl rfl ?_
      · unfold gcmAad; simp only [hz', if_neg hmore]; simp
      · have h0 : aadRest s = [] := by
          unfold aadRest
          rw [if_neg hz, show s.desc.aadLen.toNat - s.eng.aadPos.toNat = 0 by omega]; rfl
        rw [h0]; rfl

/-- Phase TAG. -/
theorem tag_on {op : CipherOp} {s t : State} (h : Unhindered op s) (hd : s.eng.ph = .tag) (ht
    : engineStep s = .next t) : Onward op s t := by
  have hst := ht
  rw [engineStep_phase h.act, show phaseStep op s = tagStep op s by unfold phaseStep; rw [hd]] at hst
  have hph := h.act.ph
  unfold PhaseInv at hph; rw [hd] at hph
  obtain ⟨hchk, hg, hT, hin, hout, hdp, hpe⟩ := hph
  have hck := checkError_textLen hchk
  rw [← hT] at hck
  have hres : result op s = lateResult op s := by unfold result; simp [hd]
  have htag : ∀ e : Engine, tagAfter e [] = gcmTag e := fun e => rfl
  cases op <;> simp [CipherOp.isGcm] at hg
  case encGcm128 =>
    simp at hck
    simp only [tagStep] at hst
    cases hst
    have hwr : writesOk s.cfg (s.desc.dstAddr + s.eng.dstPos) (blockBytes (gcmTag s.eng)).length := by
      intro i hi
      rw [blockBytes_length] at hi
      rw [add_pos_ofNat]; refine h.dst _ ?_
      simp only [required, hdp, hck.1]; omega
    refine .inl ⟨?_, ?_⟩
    · unfold encGcm128Tag; rw [writeRun_ok _ _ _ _ hwr]; rfl
    · unfold encGcm128Tag
      rw [writeRun_ok _ _ _ _ hwr, hres]
      simp only [lateResult, hd, htag, endsOk, blockBytes_length]
      rfl
  case decGcm128 =>
    simp at hck
    simp only [tagStep] at hst
    cases hst
    have hrd : readsOk s.cfg (s.desc.srcAddr + s.eng.tLen) 16 := by
      intro i hi
      rw [add_pos_ofNat]; refine h.src _ ?_
      omega
    have he : decGcm128Tag s = if recvTag s = gcmTag s.eng then completeOk s.eng.dstPos { s with eng := { s.eng with tag := recvTag s, y := gcmFinalHash s.eng } }
        else { s with eng := lateError .authenticationFailure { s.eng with tag := recvTag s, y := gcmFinalHash s.eng } } := by
      unfold decGcm128Tag; rw [readRun_ok _ _ _ _ hrd]; rfl
    by_cases hm : recvTag s = gcmTag s.eng
    · rw [if_pos hm] at he
      refine .inl ⟨by rw [he]; rfl, ?_⟩
      rw [he, hres]
      simp only [lateResult, hd, htag, hm]
      simp [endsOk, completeOk]
    · rw [if_neg hm] at he
      rw [he] at ht ⊢
      refine .inr ⟨h.next ht (by simp) rfl rfl, (fun hc => by cases hc), .inr (.inr (.inr rfl)), ?_⟩
      rw [hres]
      simp only [result, lateResult, hd, htag, hm]
      simp [lateError, endsLate, completeErr, hdp]

/-- Phase ZERO. -/
theorem zero_on {op : CipherOp} {s t : State} (h : Unhindered op s) (hd : s.eng.ph = .zero) (ht
    : engineStep s = .next t) : Onward op s t := by
  have hst := ht
  rw [engineStep_phase h.act, show phaseStep op s = .next (zeroStep s) by unfold phaseStep; rw [hd]] at hst
  have hph := h.act.ph
  unfold PhaseInv at hph; rw [hd] at hph
  obtain ⟨hchk, hin, hout, hz, hle, hpe⟩ := hph
  cases hst
  have hres : result op s = lateResult op s := by unfold result; simp [hd]
  have hwr : writesOk s.cfg (s.desc.dstAddr + s.eng.zeroPos) (List.replicate (s.eng.dstPos.toNat - s.eng.zeroPos.toNat) (0 : Byte)).length := by
    rw [hz, List.length_replicate]
    intro i hi
    simp at hi ⊢
    exact h.dst _ (by omega)
  have he : zeroStep s = completeErr s.eng.perr 0 { s with mem := s.mem.setBytes (s.desc.dstAddr + s.eng.zeroPos) (List.replicate (s.eng.dstPos.toNat - s.eng.zeroPos.toNat) 0) } := by
    unfold zeroStep
    dsimp only
    rw [writeRun_ok _ _ _ _ hwr]
  refine .inl ⟨by rw [he]; rfl, ?_⟩
  rw [he, hres]
  simp only [lateResult, hd, endsLate, hz]
  simp

/-- The late phases. -/
theorem late_on {op : CipherOp} {s t : State} (h : Unhindered op s) (hw : WholeDrains op s) (hl : late s) (ht
    : engineStep s = .next t) : Onward op s t := by
  rcases hl with hl | hl | hl | hl
  · exact aad_on h hl ht
  · exact data_on h hw hl ht
  · exact tag_on h hl ht
  · exact zero_on h hl ht

/-- From the AAD phase on, an unhindered operation runs to what it comes to. -/
theorem late_run {op : CipherOp} (s : State) (h : Unhindered op s) (hw : WholeDrains op s) (hl : late s) (hi
    : s.inputs = []) :
    ∃ n ≤ stepsLeft op s.desc s.eng, run n s = .next (result op s) := by
  induction hm : stepsLeft op s.desc s.eng using Nat.strongRecOn generalizing s with
  | ind m ih =>
    obtain ⟨op', ha, t, ht, hit, hlt⟩ := engine_progress s h.act.inv h.act.act
    have : op' = op := by have := ha.hop; rw [h.act.hop] at this; exact (Option.some.inj this).symm
    subst this
    have hstep : step s = .next t := by rw [step_of_no_inputs s hi, ht]
    rcases late_on h hw hl ht with ⟨hn, hte⟩ | ⟨hc, hw', hl', hf⟩
    · exact ⟨1, by omega, by rw [run_succ 0 s t hstep, ← hte]; rfl⟩
    · obtain ⟨n, hn, hr⟩ := ih _ (hm ▸ hlt) t hc hw' hl' (by rw [(engineStep_frame s t ht).inputs, hi]) rfl
      exact ⟨n + 1, by omega, by rw [run_succ n s t hstep, hr, hf]⟩

/-- The state after acceptance is legal. -/
theorem inv_accept {s : State} (h : Between s) (op : CipherOp) (z : Bool) (hz : z = true → op.isGcm = true)
    : Inv (acceptCommand op z s) := by
  have he := h.cleared
  refine ⟨h.cfg, h.mem, h.cache, ⟨?_, ?_, ?_⟩, ⟨?_, ?_, ?_, ?_⟩⟩ <;> simp [acceptCommand, he, Engine.cleared]
  exact ⟨hz, rfl, rfl, rfl, rfl, rfl, rfl, rfl⟩

/-- The state in which the late phases begin. -/
def begun (op : CipherOp) (z : Bool) (s : State) : State :=
  initStep op { acceptCommand op z s with
    eng := { (acceptCommand op z s).eng with key := keyOf s, iv := bytesBlock (s.mem.bytesAt s.desc.ivAddr (ivBytes op) ++ (blockBytes 0).drop (ivBytes op)), ph := .init } }

/-- The first four steps of an unhindered operation: CHECK, LOAD_KEY, LOAD_IV, INIT (R235). -/
theorem begun_run {op : CipherOp} {z : Bool} {s : State} (hz : z = true → op.isGcm = true) (h : Ready op z s) :
    run 4 (acceptCommand op z s) = .next (begun op z s) ∧ Unhindered op (begun op z s) ∧ WholeDrains op (begun op z s) ∧ late (begun op z s) := by
  have he := h.between.cleared
  have hi := inv_accept h.between op z hz
  let s1 := acceptCommand op z s
  have p1 : s1.eng.ph = .check := rfl
  have a1 : Running op s1 := by
    obtain ⟨op', hop, haz, hph⟩ := hi.running.active (by show s1.eng.ph ≠ .none; rw [p1]; simp)
    have hc : CipherOp.ofCode s1.eng.op = some op := CipherOp.ofCode_code op
    have : op' = op := by
      have h2 : CipherOp.ofCode s1.eng.op = some op' := hop
      rw [hc] at h2; exact (Option.some.inj h2).symm
    subst this
    exact ⟨hi, by rw [p1]; simp, hc, haz, hph⟩
  have c1 : Unhindered op s1 := ⟨a1, h.key, h.iv, fun hg hzz => h.aad hg hzz, h.src, h.dst, h.overlap⟩
  let s2 : State := { s1 with eng := { s1.eng with ph := .loadKey } }
  have t1 : engineStep s1 = .next s2 := by
    rw [engineStep_phase a1]
    show Host.Outcome.next (checkStep op s1) = _
    unfold checkStep
    have : checkError op s1.desc = none := h.checks
    rw [this]
  have c2 : Unhindered op s2 := c1.next t1 (by simp [s2]) rfl rfl
  let s3 : State := { s1 with eng := { s1.eng with key := keyOf s, ph := .loadIv } }
  have t2 : engineStep s2 = .next s3 := by
    rw [engineStep_phase c2.act]
    show Host.Outcome.next (loadKeyStep s2) = _
    unfold loadKeyStep
    rw [readRun_ok _ _ _ _ c2.key]
    rfl
  have c3 : Unhindered op s3 := c2.next t2 (by simp [s3]) rfl rfl
  let s4 : State := { s1 with eng := { s1.eng with key := keyOf s, iv := bytesBlock (s.mem.bytesAt s.desc.ivAddr (ivBytes op) ++ (blockBytes 0).drop (ivBytes op)), ph := .init } }
  have t3 : engineStep s3 = .next s4 := by
    rw [engineStep_phase c3.act]
    show Host.Outcome.next (loadIvStep op s3) = _
    unfold loadIvStep
    rw [readRun_ok _ _ _ _ c3.iv]
    have : s3.eng.iv = 0 := by show s.eng.iv = 0; rw [he]; rfl
    simp only [this]
    rfl
  have c4 : Unhindered op s4 := c3.next t3 (by simp [s4]) rfl rfl
  have t4 : engineStep s4 = .next (begun op z s) := by
    rw [engineStep_phase c4.act]
    rfl
  have hl : late (begun op z s) := by
    unfold late begun initStep
    cases op <;> simp [CipherOp.isGcm]
  have hpn : (begun op z s).eng.ph ≠ .none := by
    rcases hl with hl | hl | hl | hl <;> simp [hl]
  have c5 : Unhindered op (begun op z s) := c4.next t4 hpn (by cases op <;> rfl) (by cases op <;> rfl)
  have n0 : s.inputs = [] := h.noInputs
  refine ⟨?_, c5, ?_, hl⟩
  · have q1 : step s1 = .next s2 := (step_of_no_inputs s1 n0).trans t1
    have q2 : step s2 = .next s3 := (step_of_no_inputs s2 n0).trans t2
    have q3 : step s3 = .next s4 := (step_of_no_inputs s3 n0).trans t3
    have q4 : step s4 = .next (begun op z s) := (step_of_no_inputs s4 n0).trans t4
    show run 4 s1 = _
    rw [run_succ 3 _ _ q1, run_succ 2 _ _ q2, run_succ 1 _ _ q3, run_succ 0 _ _ q4]
    rfl
  · intro _ _ _
    show (0 : Word).toNat % _ = 0
    simp

/-- An operation that is ready runs to what it comes to within R239's bound. -/
theorem operation_run {op : CipherOp} {z : Bool} {s : State} (hz : z = true → op.isGcm = true) (h
    : Ready op z s) :
    ∃ n ≤ stepBound op s.desc, run n (acceptCommand op z s) = .next (result op (begun op z s)) := by
  obtain ⟨hr, hc, hw, hl⟩ := begun_run hz h
  have hin : (begun op z s).inputs = [] := h.noInputs
  obtain ⟨n, hn, hr2⟩ := late_run _ hc hw hl hin
  refine ⟨4 + n, ?_, ?_⟩
  · have hd : (begun op z s).desc = s.desc := rfl
    rw [hd] at hn
    have : stepsLeft op s.desc (begun op z s).eng ≤ 4 + budget op s.desc + (s.desc.aadLen.toNat + 15) / 16 := by
      have h0 : (begun op z s).eng.ph = .aad ∧ (begun op z s).eng.aadPos = 0 ∨ (begun op z s).eng.ph = .data := by
        cases op <;> simp [begun, initStep, CipherOp.isGcm, modeInit, gcmInit]
      rcases h0 with ⟨h1, h2⟩ | h1
      · simp only [stepsLeft, h1, h2]; simp
      · rw [stepsLeft_data _ _ _ h1]; omega
    unfold stepBound
    unfold budget at this
    omega
  · rw [run_add 4 n _ _ hr, hr2]

/-- The 16-byte IV as LOAD_IV leaves it. -/
theorem bytesBlock_iv (m : Memory) (a : Addr) : bytesBlock (m.bytesAt a 16 ++
    (blockBytes 0).drop 16) = bytesBlock (m.bytesAt a 16) := by
  rw [List.drop_of_length_le (by simp), List.append_nil]

/-- The 12-byte nonce as LOAD_IV leaves it. -/
theorem nonce_iv (m : Memory) (a : Addr) : nonceOf (bytesBlock (m.bytesAt a 12 ++
    (blockBytes 0).drop 12)) = BitVec.ofNat 96 (bytesNat (m.bytesAt a 12)) := by
  have hz : (blockBytes 0).drop 12 = [0, 0, 0, 0] := by decide
  have hb : bytesNat (m.bytesAt a 12 ++ [0, 0, 0, 0]) = 2 ^ 32 * bytesNat (m.bytesAt a 12) := by
    rw [show m.bytesAt a 12 ++ [0, 0, 0, 0] = (((m.bytesAt a 12 ++ [0]) ++ [0]) ++ [0]) ++ [0] by simp]
    simp only [bytesNat_concat]
    simp
    omega
  have hlt := bytesNat_lt (m.bytesAt a 12)
  simp at hlt
  rw [hz, bytesBlock, hb]
  apply BitVec.eq_of_toNat_eq
  simp only [nonceOf, BitVec.extractLsb'_toNat, BitVec.toNat_ofNat]
  rw [Nat.shiftRight_eq_div_pow]
  omega

/-- After INIT the text is the whole of it. -/
theorem restText_begun {op : CipherOp} {z : Bool} {s : State} (h : Ready op z s) :
    restText (begun op z s) = s.mem.bytesAt s.desc.srcAddr (textLen op s.desc.srcLen).toNat := by
  have : (begun op z s).eng.inq = [] := by
    have he := h.between.cleared
    cases op <;> simp [begun, initStep, modeInit, cbcInit, ctrInit, gcmInit, acceptCommand, he, Engine.cleared]
  unfold restText
  rw [this]
  simp [begun, initStep, acceptCommand]

/-- After INIT the staging output is empty. -/
theorem outq_begun {op : CipherOp} {z : Bool} {s : State} (h : Ready op z s) : (begun op z s).eng.outq =
    [] := by
  have he := h.between.cleared
  cases op <;> simp [begun, initStep, modeInit, cbcInit, ctrInit, gcmInit, acceptCommand, he, Engine.cleared]

/-- A success seen from the state the operation started in. -/
theorem endsOk_begun {op : CipherOp} {z : Bool} {s : State} (out : List Byte) : endsOk
    (begun op z s) out = finishedOk out s := by
  simp [endsOk, begun, initStep, acceptCommand, completeOk, finishedOk]

/-- A late error seen from there. -/
theorem endsLate_begun {op : CipherOp} {z : Bool} {s : State} (c : ErrorCode) (n : Nat) : endsLate
    (begun op z s) c n = finishedLate c n s := by
  simp [endsLate, begun, initStep, acceptCommand, completeErr, finishedLate]

end Sys2Proof.Machine
end

