-- ==== Sys2Proof/Laws/PerInstr.lean ====
section
/-! SUPPORT. The statements made for every instruction, one lemma per constructor. -/

namespace Sys2Proof.Laws.RoundTrip

/-- The instruction is well formed and its word, as the opcode table numbers it, decodes to it
(spec/30_encoding.md R81, R84). -/
def Statement (i : Instr) : Prop :=
  i.wf = true ∧ decodeTableWord 32 (encode i).toNat = some i

theorem nop : Statement .nop := by unfold Statement; decide

theorem encCbc128 : Statement .encCbc128 := by unfold Statement; decide

theorem decCbc128 : Statement .decCbc128 := by unfold Statement; decide

theorem encCtr128 : Statement .encCtr128 := by unfold Statement; decide

theorem decCtr128 : Statement .decCtr128 := by unfold Statement; decide

theorem encGcm128 (aadz : Bool) : Statement (.encGcm128 aadz) := by
  unfold Statement; revert aadz; decide

theorem decGcm128 (aadz : Bool) : Statement (.decGcm128 aadz) := by
  unfold Statement; revert aadz; decide

end Sys2Proof.Laws.RoundTrip
end

