-- ==== Sys2Proof/Tests/Slice0.lean ====
section
/-! SUPPORT. Tests of the model, with expected values from the spec's tables and worked examples, and, for every
statement of Certificates/Slice0/Obligations.lean that has hypotheses, a witness that meets them. -/

namespace Sys2Proof.Tests
open Sys2Proof.Machine

/-! ## Ill-formed terms are refused: one per check of WellFormed.lean (R83, R219, R6) -/

theorem test_wf_op : ({ op := 7, res0 := 0, aadz := false, res1 := 0 } : CommandFields).wf = false := by decide

theorem test_wf_res0 : ({ op := 1, res0 := 1, aadz := false, res1 := 0 } : CommandFields).wf = false := by
  decide

theorem test_wf_res1 : ({ op := 5, res0 := 0, aadz := true, res1 := 1 } : CommandFields).wf = false := by
  decide

theorem test_wf_aadz : ({ op := 2, res0 := 0, aadz := true, res1 := 0 } : CommandFields).wf = false := by
  decide

theorem test_wf_nop_aadz : ({ op := 0, res0 := 0, aadz := true, res1 := 0 } : CommandFields).wf = false := by
  decide

theorem test_wf_instr_gcm : (Instr.encGcm128 true).wf = true ∧ Instr.nop.wf = true := by decide

theorem test_wf_stage_multiple : ({ Config.initial with stageBytes := 40 } : Config).wf = false := by decide

theorem test_wf_stage_least : ({ Config.initial with stageBytes := 16 } : Config).wf = false := by decide

theorem test_wf_ctr_width :
    ({ Config.initial with ctrWidth := 0 } : Config).wf = false ∧
    ({ Config.initial with ctrWidth := 129 } : Config).wf = false := by decide

theorem test_wf_base : ({ Config.initial with baseAddr := 32 } : Config).wf = false := by decide

theorem test_wf_engines : ({ Config.initial with nEngines := 0 } : Config).wf = false := by decide

theorem test_wf_this_hardware :
    Config.initial.thisHardware = true ∧ ({ Config.initial with ctrWidth := 32 } : Config).thisHardware = false := by
  decide

/-! ## Decoding: the words of R84's table and of R80's fields, bit by bit, and the illegal words K-1 to K-9 of
spec/95_test_vectors.md -/

theorem test_decode_nop : decode 0b00000000000000000000000000000000#32 = .ok .nop := by decide

theorem test_decode_enc_cbc128 : decode 0b00000000000000000000000000000001#32 = .ok .encCbc128 := by decide

theorem test_decode_dec_cbc128 : decode 0b00000000000000000000000000000010#32 = .ok .decCbc128 := by decide

theorem test_decode_enc_ctr128 : decode 0b00000000000000000000000000000011#32 = .ok .encCtr128 := by decide

theorem test_decode_dec_ctr128 : decode 0b00000000000000000000000000000100#32 = .ok .decCtr128 := by decide

theorem test_decode_enc_gcm128 :
    decode 0b00000000000000000000000000000101#32 = .ok (.encGcm128 false) ∧
    decode 0b00000000000000000000000100000101#32 = .ok (.encGcm128 true) := by decide

theorem test_decode_dec_gcm128 :
    decode 0b00000000000000000000000000000110#32 = .ok (.decGcm128 false) ∧
    decode 0b00000000000000000000000100000110#32 = .ok (.decGcm128 true) := by decide

theorem test_decode_reserved_op :
    decode 0x00000007 = .error .reservedOp ∧ decode 0x0000000F = .error .reservedOp := by decide

theorem test_decode_aadz_not_gcm :
    decode 0x00000101 = .error .aadzNotGcm ∧ decode 0x00000103 = .error .aadzNotGcm := by decide

theorem test_decode_reserved_bits :
    decode 0x00000010 = .error .reservedBitsLow ∧ decode 0x00000200 = .error .reservedBitsHigh ∧
    decode 0x80000001 = .error .reservedBitsHigh ∧ decode 0x00000205 = .error .reservedBitsHigh ∧
    decode 0x00001005 = .error .reservedBitsHigh := by decide

/-- R84: the table words, and a row of 32 bits that is no command. -/
theorem test_decode_table_word :
    decodeTableWord 32 0x105 = some (.encGcm128 true) ∧ decodeTableWord 32 0x7 = none := by decide

/-! ## Primitives: the standard vectors STD-1 to STD-7 and the values of spec/40_primitives.md -/

/-- STD-3. -/
theorem test_aes_inverse :
    blockD 0x000102030405060708090a0b0c0d0e0f 0x69c4e0d86a7b0430d8cdb78070b4c55a =
      0x00112233445566778899aabbccddeeff := by decide +kernel

/-- STD-4, first block. -/
theorem test_cbc_standard :
    blockE 0x2b7e151628aed2a6abf7158809cf4f3c
      (0x6bc1bee22e409f96e93d7e117393172a ^^^ 0x000102030405060708090a0b0c0d0e0f) =
      0x7649abac8119b246cee98e9b12e9197d := by decide +kernel

/-- STD-7: GHASH of the one ciphertext block and the length block. -/
theorem test_ghash_standard :
    ghashStep 0x66e94bd4ef8a2c3b884cfa59ca342b2e
      (ghashStep 0x66e94bd4ef8a2c3b884cfa59ca342b2e 0 0x0388dace60b6a392f328c2b971b2fe78)
      (lengthBlock 0 16) = 0xf38cbb1ad69223dcc3457ae5b6b0f885 := by decide +kernel

/-- R115, R116: the wrap of a 128-bit and of a 32-bit counter. -/
theorem test_counter_wrap :
    incBlock 128 0xffffffffffffffffffffffffffffffff = 0 ∧
    incBlock 32 0x000102030405060708090a0bffffffff = 0x000102030405060708090a0b00000000 := by decide +kernel

/-- R113: `v = 0` and `v > 16` are rejected, and so is a wrong byte before the last. -/
theorem test_unpad :
    unpadOk 0x10101010101010101010101010101010 = true ∧ unpadOk 0x00000000000000000000000000000202 = true ∧
    unpadOk 0x00000000000000000000000000000000 = false ∧ unpadOk 0x11111111111111111111111111111111 = false ∧
    unpadOk 0x00000000000000000000000000000302 = false := by decide +kernel

/-! ## Small states -/

/-- The next state of an outcome. -/
def nextOf (o : Host.Outcome State Fault Refusal) : Option State :=
  match o with
  | .next t => some t
  | .fault _ => none
  | .refused _ => none

theorem eq_next {o : Host.Outcome State Fault Refusal} {t : State} (h : nextOf o = some t) : o = .next t := by
  cases o <;> simp_all [nextOf]

/-- Descriptors of an operation on `n` source bytes, its ranges apart from one another. -/
def descOf (op : CipherOp) (n cap : Word) : Desc :=
  { keyAddr := 0x100, keyLen := 16, ivAddr := 0x200, ivLen := BitVec.ofNat 32 (ivBytes op), aadAddr := 0x300
    aadLen := 20, srcAddr := 0x400, srcLen := n, dstAddr := 0x500, dstCap := cap }

/-- Between operations, with those descriptors and memory all zero. -/
def idle (op : CipherOp) (n : Word) : State := { State.reset with desc := descOf op n 64 }

/-- An operation on `n` source bytes running in phase `ph`, nothing moved yet. -/
def active (op : CipherOp) (ph : Phase) (n : Word) : State :=
  { idle op n with
    status := { state := .busy, err := .none, ign := false }
    eng := { Engine.cleared with op := op.code, ph := ph, tLen := textLen op n } }

/-- The engine of a state changed. -/
def withEng (s : State) (f : Engine → Engine) : State := { s with eng := f s.eng }

/-- A state whose platform fails the reads, or the writes, of one address. -/
def deny (s : State) (a : Addr) (k : AccessKind) : State :=
  { s with
    cfg := { s.cfg with denied := [{ first := a, last := a, denyRead := k = .read, denyWrite := k = .write }] } }

/-- "Hello World!", the plaintext of the worked examples. -/
def hello : List Byte := [0x48, 0x65, 0x6c, 0x6c, 0x6f, 0x20, 0x57, 0x6f, 0x72, 0x6c, 0x64, 0x21]

/-- The data phase with the whole text read, key and IV zero. -/
def loaded (op : CipherOp) (text : List Byte) : State :=
  withEng (active op .data (BitVec.ofNat 32 text.length)) fun e =>
    { e with inq := text, srcPos := BitVec.ofNat 32 text.length, tLen := BitVec.ofNat 32 text.length }

/-- What the staging output holds after one engine step. -/
def outAfter (s : State) : Option (List Byte) := (nextOf (engineStep s)).map fun t => t.eng.outq

/-! ## One step of every instruction -/

/-- K-22: a NOP while BUSY does not set IGN. -/
theorem test_nop_busy :
    nextOf (exec .nop (active .encCtr128 .data 16)) = some (active .encCtr128 .data 16) := by decide

theorem test_enc_cbc128_accepted :
    (nextOf (exec .encCbc128 (idle .encCbc128 12))).map (fun t => (t.status.word, t.eng.op, t.eng.ph)) =
      some (1, 1, .check) := by decide

/-- R143's worked example: the padding unit. -/
theorem test_enc_cbc128_unit :
    outAfter (loaded .encCbc128 hello) = some (blockBytes 0xfc041974581f3bfede58b726b4f88941) := by
  decide +kernel

theorem test_dec_cbc128_accepted :
    (nextOf (exec .decCbc128 (idle .decCbc128 16))).map (fun t => (t.status.word, t.eng.op, t.eng.ph)) =
      some (1, 2, .check) := by decide

/-- R146's worked example: a last block of nothing but padding gives no byte. -/
theorem test_dec_cbc128_unit :
    (nextOf (engineStep (loaded .decCbc128 (blockBytes 0x0143db63ee66b0cdff9f69917680151e)))).map
      (fun t => (t.eng.outq, t.eng.tailDone, t.eng.ph)) = some ([], true, .data) := by decide +kernel

theorem test_enc_ctr128_accepted :
    (nextOf (exec .encCtr128 (idle .encCtr128 12))).map (fun t => (t.status.word, t.eng.op, t.eng.ph)) =
      some (1, 3, .check) := by decide

/-- R162's worked example. -/
theorem test_enc_ctr128_unit :
    outAfter (loaded .encCtr128 hello) =
      some [0x2e, 0x8c, 0x27, 0xb8, 0x80, 0xaa, 0x7b, 0x54, 0xfa, 0x20, 0x9e, 0x78] := by decide +kernel

theorem test_dec_ctr128_accepted :
    (nextOf (exec .decCtr128 (idle .decCtr128 12))).map (fun t => (t.status.word, t.eng.op, t.eng.ph)) =
      some (1, 4, .check) := by decide

/-- R163's worked example. -/
theorem test_dec_ctr128_unit :
    outAfter (loaded .decCtr128
      [0x2e, 0x8c, 0x27, 0xb8, 0x80, 0xaa, 0x7b, 0x54, 0xfa, 0x20, 0x9e, 0x78]) = some hello := by decide +kernel

theorem test_enc_gcm128_accepted :
    (nextOf (exec (.encGcm128 true) (idle .encGcm128 12))).map
      (fun t => (t.status.word, t.eng.op, t.eng.aadz, t.eng.ph)) = some (1, 5, true, .check) := by decide

/-- R183's worked example: with K and N zero, `S.h = E(0, 0)`, the text counter starts at `inc_32(J0) = 2`, and the
16 zero bytes of AAD leave `S.y` zero. -/
theorem test_enc_gcm128_unit :
    outAfter (withEng (loaded .encGcm128 hello) fun e =>
      { e with h := 0x66e94bd4ef8a2c3b884cfa59ca342b2e, cb := 2 }) =
      some [0x4b, 0xed, 0xb6, 0xa2, 0x0f, 0x96, 0xf4, 0xfd, 0x81, 0x44, 0xa6, 0x98] := by decide +kernel

theorem test_dec_gcm128_accepted :
    (nextOf (exec (.decGcm128 false) (idle .decGcm128 28))).map
      (fun t => (t.status.word, t.eng.op, t.eng.aadz, t.eng.ph)) = some (1, 6, false, .check) := by decide

/-- R184's worked example. -/
theorem test_dec_gcm128_unit :
    outAfter (withEng (loaded .decGcm128
        [0x4b, 0xed, 0xb6, 0xa2, 0x0f, 0x96, 0xf4, 0xfd, 0x81, 0x44, 0xa6, 0x98]) fun e =>
      { e with h := 0x66e94bd4ef8a2c3b884cfa59ca342b2e, cb := 2 }) = some hello := by decide +kernel

/-- R183's worked example: the tag over the default AAD and the 12 ciphertext bytes. -/
theorem test_gcm_tag :
    gcmTag { Engine.cleared with
      h := 0x66e94bd4ef8a2c3b884cfa59ca342b2e, ej0 := 0x58e2fccefa7e3061367f1d57a4e7455a
      y := ghashStep 0x66e94bd4ef8a2c3b884cfa59ca342b2e 0 0x4bedb6a20f96f4fd8144a69800000000
      aadBytes := 16, tLen := 12 } = 0x71815dc6e63c7c454e1975103b33c4be := by decide +kernel

/-- K-20: a command and an illegal word while BUSY are ignored and set IGN. -/
theorem test_commands_ignored_while_busy :
    (nextOf (exec .decCbc128 (active .encCtr128 .check 16))).map (fun t => t.status.word) = some 0x101 ∧
    (nextOf (writeCmd 0x7 (active .encCtr128 .check 16))).map (fun t => t.status.word) = some 0x101 := by decide

/-- K-19: an illegal word when not BUSY. -/
theorem test_illegal_command :
    (nextOf (writeCmd 0x7 (idle .encCtr128 16))).map (fun t => (t.status.word, t.doneP)) = some (0x63, true) := by
  decide

/-- The STATUS value CHECK leaves (the last two digits of K-10 to K-16), by key length, IV length, source length
and capacity. -/
def checkedStatus (op : CipherOp) (kl il n cap : Word) : Option Word :=
  (nextOf (engineStep { active op .check n with
    desc := { descOf op n cap with keyLen := kl, ivLen := il } })).map fun t => t.status.word

theorem test_check_order :
    checkedStatus .encCbc128 24 12 0 0 = some 0x13 ∧ checkedStatus .encCbc128 16 12 0 0 = some 0x53 ∧
    checkedStatus .decCbc128 16 16 32 30 = some 0x43 ∧ checkedStatus .encCtr128 16 16 5 4 = some 0x43 ∧
    checkedStatus .decGcm128 16 12 15 0 = some 0x33 ∧ checkedStatus .encGcm128 16 16 4 20 = some 0x53 ∧
    checkedStatus .decCbc128 16 16 0 0 = some 0x23 := by decide

/-- K-17: the longest CBC plaintext that passes CHECK, and the next length, which does not (R143). -/
theorem test_check_cbc_limit :
    checkedStatus .encCbc128 16 16 0xFFFFFFEF 0xFFFFFFFF = some 0x1 ∧
    checkedStatus .encCbc128 16 16 0xFFFFFFF0 0xFFFFFFFF = some 0x43 := by decide

/-! ## Witnesses: for every statement with hypotheses, a state and operands that meet them, clause by clause -/

/-- The invariant of a running operation whose registers are as acceptance and the default parameters leave them. -/
theorem inv_active (s : State) (op : CipherOp) (hc : s.cfg = Config.initial) (hm : Memory.wf s.mem)
    (hk : s.hostCache = []) (ht : s.status.state = .busy) (hte : s.status.err = .none) (hl : s.resultLen = 0)
    (hf : s.faultAddr = 0)
    (ho : CipherOp.ofCode s.eng.op = some op) (hz : s.eng.aadz = false) (hp : s.eng.ph ≠ .none)
    (h : PhaseInv op s.cfg s.desc s.eng) : Inv s where
  cfg := by rw [hc]; decide
  mem := hm
  cache := hk ▸ HostCache.wf_nil
  status := ⟨by simp [ht, hte], fun _ => hl, fun _ => hf⟩
  running := ⟨by simp [ht, hp], fun h0 => absurd h0 hp, fun _ => ⟨op, ho, by simp [hz], h⟩,
    fun i _ => memOk_all _ (by rw [hc]; rfl) _ _⟩

/-- A legal state between operations, the descriptors written and the interrupt enabled. -/
theorem inv_idle : Inv { idle .encCbc128 16 with doneIe := true } where
  cfg := by decide
  mem := Memory.wf_nil
  cache := HostCache.wf_nil
  status := ⟨by decide, fun _ => rfl, fun _ => rfl⟩
  running := ⟨by decide, fun _ => rfl, fun h => absurd rfl h, fun i hi => absurd hi (Nat.not_lt_zero i)⟩

theorem inv_check : Inv (active .encCbc128 .check 16) :=
  inv_active _ .encCbc128 rfl Memory.wf_nil rfl rfl rfl rfl rfl rfl rfl (by decide)
    ⟨rfl, rfl, rfl, rfl, rfl, rfl, rfl⟩

/-- A DEC_CBC128 operation that has found bad padding after draining 32 bytes. -/
def zeroing : State :=
  withEng (active .decCbc128 .zero 48) fun e => { e with dstPos := 32, perr := .invalidPadding }

theorem inv_zeroing : Inv zeroing :=
  inv_active _ .decCbc128 rfl Memory.wf_nil rfl rfl rfl rfl rfl rfl rfl (by decide)
    ⟨by decide, rfl, rfl, rfl, by decide, .inl ⟨rfl, rfl⟩⟩

/-- An operation at the start of its data phase. -/
theorem inv_data (op : CipherOp) (h : op = .encCtr128 ∨ op = .decCtr128 ∨ op = .encGcm128) :
    Inv (active op .data 16) := by
  rcases h with rfl | rfl | rfl
  all_goals
    exact inv_active _ _ rfl Memory.wf_nil rfl rfl rfl rfl rfl rfl rfl (by decide)
      ⟨by decide, ⟨rfl, by decide, by decide, by decide, by decide, ⟨.inl rfl, rfl⟩, rfl⟩⟩

/-- Reset: at power-on and in a running operation. -/
theorem witness_reset :
    hostAct .reset (active .decGcm128 .data 40) = .next (assertReset (active .decGcm128 .data 40)) ∧
    (active .decGcm128 .data 40).status.state = .busy := by
  exact ⟨rfl, rfl⟩

/-- LegalWordsByFields, NopChangesNothing: words with OP 0 that are and are not NOP, illegal words, busy or not. -/
theorem witness_words :
    (0x00000000#32).extractLsb' 0 4 = 0 ∧ (0x00000100#32).extractLsb' 0 4 = 0 ∧
    decode 0x00000100 = .error .aadzNotGcm ∧ decode 0x00000007 = .error .reservedOp ∧
    (idle .encCbc128 0).status.state ≠ .busy ∧ (active .encCbc128 .check 0).status.state = .busy := by decide

/-- CommandStartsItsOperation and CommandFrame: a command when not busy, in a legal state, and when busy. -/
theorem witness_commands :
    Instr.decGcm128 true ≠ .nop ∧ ({ idle .encCbc128 16 with doneIe := true } : State).status.state ≠ .busy ∧
    Inv { idle .encCbc128 16 with doneIe := true } ∧ (active .encCbc128 .check 16).status.state = .busy ∧
    exec .encCtr128 (idle .encCbc128 16) = .next (acceptCommand .encCtr128 false (idle .encCbc128 16)) :=
  ⟨by decide, by decide, inv_idle, rfl, rfl⟩

/-- StepRunsTheDecodedCommand: the four kinds of pending access, and a command in the engine's step. -/
theorem witness_step :
    decode 0x00000005 = .ok (.encGcm128 false) ∧
    (let s := { idle .encGcm128 16 with
      inputs := [{ after := 0, together := false, op := wr Config.initial .cmd 0x5 }] }
     nextOf (step s) = some (acceptCommand .encGcm128 false (idle .encGcm128 16))) ∧
    (let s := { active .encCtr128 .check 16 with
      inputs := [{ after := 0, together := true, op := wr Config.initial .cmd 0x5 }] }
     nextOf (step s) =
      some (withEng (active .encCtr128 .check 16).setIgn fun e => { e with ph := .loadKey })) ∧
    (let s := { active .encCtr128 .check 16 with
      inputs := [{ after := 1, together := false, op := wr Config.initial .cmd 0x5 }] }
     (nextOf (step s)).map (fun t => (t.eng.ph, t.inputs.length)) = some (.loadKey, 1)) ∧
    (let s := { active .encCtr128 .check 16 with
      inputs := [{ after := 0, together := true, op := rd Config.initial .status }] }
     (nextOf (step s)).map (fun t => (t.rdata, t.eng.ph)) = some (1, .loadKey)) := by decide

/-- StepRunsTheDecodedCommand: an access that is refused, with the engine's step and without. -/
theorem witness_step_refused (together : Bool) :
    hostAct (.read 1 4) (idle .encGcm128 16) = .refused .undefinedRegisterAccess ∧
    step { idle .encGcm128 16 with inputs := [{ after := 0, together := together, op := .read 1 4 }] } =
      .refused .undefinedRegisterAccess := by
  cases together <;> exact ⟨rfl, rfl⟩

/-- EveryRegisterAtItsOffset: the first and the last register. -/
theorem witness_offsets :
    windowAccess 64 64 4 = .register .cmd ∧ windowAccess 64 124 4 = .register .irqStat ∧
    windowAccess 64 128 4 = .outside ∧ windowAccess 64 60 4 = .outside := by decide

/-- DescriptorRegistersFrozenWhileBusy: not busy, busy, a busy step on a write, and a write that lands in the step
that completes the operation. -/
theorem witness_descriptors :
    (nextOf (writeReg (.desc .dstCap) 0xFFFFFFFF (idle .encCbc128 16))).map (fun t => t.desc.dstCap) =
      some 0xFFFFFFFF ∧
    (let s := { active .encCbc128 .check 16 with inputs := [atOnce (wr Config.initial (.desc .srcLen) 9)] }
     s.status.state = .busy ∧ (nextOf (step s)).map (fun t => (t.desc.srcLen, t.status.ign)) =
       some (16, true)) ∧
    (let s := { active .encCbc128 .check 16 with
      desc := { descOf .encCbc128 16 64 with keyLen := 0 }
      inputs := [{ after := 0, together := true, op := wr Config.initial (.desc .srcLen) 9 }] }
     s.status.state = .busy ∧
     (nextOf (step s)).map (fun t => (t.status.state, t.desc.srcLen, t.status.ign)) =
       some (.doneErr, 16, true)) := by decide

/-- InterruptRegisters: a clear and a completion in the same step. -/
theorem witness_interrupt :
    let s := { active .encCbc128 .check 16 with
      desc := { descOf .encCbc128 16 64 with keyLen := 0 }, doneP := true
      inputs := [{ after := 0, together := true, op := wr Config.initial .irqStat 1 }] }
    s.status.state = .busy ∧ (nextOf (step s)).map (fun t => (t.status.state, t.doneP)) = some (.doneErr, true) := by
  decide

/-- MalformedRegisterAccessRefused: misaligned, too narrow, too wide, and across both ends of the window. -/
theorem witness_malformed :
    ({ Config.initial with baseAddr := 64 } : Config).wf = true ∧ windowAccess 64 62 4 = .undefined ∧
    windowAccess 64 127 1 = .undefined ∧ windowAccess 64 64 2 = .undefined ∧
    windowAccess 64 64 8 = .undefined ∧ windowAccess 64 126 4 = .undefined ∧ windowAccess 64 63 1 = .outside := by
  decide

/-- HostKeepsOffBusyRanges: the ends of the ranges of a GCM operation, of AAD from memory and of the default. -/
theorem witness_ranges :
    let s := active .encGcm128 .data 16
    s.status.state = .busy ∧ CipherOp.ofCode s.eng.op = some .encGcm128 ∧
    inInputRange .encGcm128 false s.desc 0x10F = true ∧ inInputRange .encGcm128 false s.desc 0x110 = false ∧
    inInputRange .encGcm128 false s.desc 0x20B = true ∧ inInputRange .encGcm128 false s.desc 0x20C = false ∧
    inInputRange .encGcm128 false s.desc 0x313 = true ∧ inInputRange .encGcm128 true s.desc 0x313 = false ∧
    inInputRange .encGcm128 false s.desc 0x40F = true ∧ inDestRange .encGcm128 s.desc 0x51F = true ∧
    inDestRange .encGcm128 s.desc 0x520 = false := by decide

/-- HostKeepsOffBusyRanges: the masters a platform of two engines has, and does not have. -/
theorem witness_masters :
    let s := active .encGcm128 .data 16
    let two := { s with cfg := { s.cfg with nEngines := 2 } }
    (Master.engine 0).present s.cfg = false ∧ (Master.engine 0).present two.cfg = true ∧
    (Master.engine 1).present two.cfg = false ∧ Master.other.present s.cfg = true ∧
    hostAct (.masterWrite (.engine 0) 0x400 7) two = .refused .busyRangeAccess ∧
    hostAct (.masterRead (.engine 0) 0x500) two = .refused .busyRangeAccess ∧
    hostAct (.masterRead (.engine 0) 0x400) two = .next two ∧
    hostAct (.masterWrite (.engine 0) 0x600 7) two = .next { two with mem := [(0x600, 7)] } ∧
    hostAct (.masterWrite (.engine 0) 0x400 7) s = .next s :=
  ⟨by decide, by decide, by decide, by decide, rfl, rfl, rfl, rfl, rfl⟩

/-- Between operations, the host's caches not coherent with the engine's accesses (R75) and holding `c`. -/
def incoherent (c : HostCache) : State :=
  { idle .encCbc128 16 with cfg := { Config.initial with dmaCoherent := false }, hostCache := c }

/-- HostKeepsOffBusyRanges without coherence: a write stays in the caches until it is cleaned, and a read finds the
stale byte until it is invalidated. -/
theorem witness_caches :
    hostAct (.memWrite 0x400 7) (incoherent []) =
      .next (incoherent [{ addr := 0x400, value := 7, dirty := true }]) ∧
    hostAct (.cacheClean 0x400) (incoherent [{ addr := 0x400, value := 7, dirty := true }]) =
      .next { incoherent [{ addr := 0x400, value := 7, dirty := false }] with mem := [(0x400, 7)] } ∧
    hostAct (.memRead 0x500) (incoherent [{ addr := 0x500, value := 9, dirty := false }]) =
      .next { incoherent [{ addr := 0x500, value := 9, dirty := false }] with rdata := 9 } ∧
    hostAct (.cacheInvalidate 0x500) (incoherent [{ addr := 0x500, value := 9, dirty := false }]) =
      .next (incoherent []) ∧
    hostAct (.memRead 0x500) (incoherent []) =
      .next (incoherent [{ addr := 0x500, value := 0, dirty := false }]) ∧
    hostAct (.cacheFetch 0x500) (incoherent [{ addr := 0x500, value := 9, dirty := false }]) =
      .next (incoherent [{ addr := 0x500, value := 9, dirty := false }]) ∧
    hostAct (.cacheFetch 0x500) (incoherent []) =
      .next (incoherent [{ addr := 0x500, value := 0, dirty := false }]) :=
  ⟨rfl, rfl, rfl, rfl, rfl, rfl, rfl⟩

/-- HostKeepsOffBusyRanges without coherence, at the ends of the ranges of a running operation: the last destination
byte and the one after it, and dirty bytes that stand in the source, in the destination and past both. -/
theorem witness_caches_busy :
    let s := { active .encGcm128 .data 16 with
      cfg := { Config.initial with dmaCoherent := false }
      hostCache := [{ addr := 0x40F, value := 7, dirty := true }, { addr := 0x410, value := 7, dirty := true },
        { addr := 0x500, value := 7, dirty := true }] }
    s.status.state = .busy ∧ CipherOp.ofCode s.eng.op = some .encGcm128 ∧
    hostAct (.cacheFetch 0x51F) s = .refused .busyRangeAccess ∧
    (nextOf (hostAct (.cacheFetch 0x520) s)).map (fun t => t.hostCache.held 0x520) =
      some (some { addr := 0x520, value := 0, dirty := false }) ∧
    hostAct (.cacheClean 0x40F) s = .refused .busyRangeAccess ∧
    hostAct (.cacheClean 0x500) s = .refused .busyRangeAccess ∧
    (nextOf (hostAct (.cacheClean 0x410) s)).map (fun t => (t.mem, t.hostCache.held 0x410)) =
      some ([(0x410, 7)], some { addr := 0x410, value := 7, dirty := false }) :=
  ⟨rfl, rfl, rfl, by decide, rfl, rfl, by decide⟩

/-- ChecksInTheirOrder, LoadKeyReadsTheKey, LoadIvReadsTheIv, InitSetsUpTheMode, AadAbsorbedBlockByBlock: the phases
with their operation, and the accesses, with the first and the last failing. -/
theorem witness_check :
    (active .decGcm128 .check 16).eng.ph = .check ∧
    CipherOp.ofCode (active .decGcm128 .check 16).eng.op = some .decGcm128 := by decide

theorem witness_load_key :
    let s := active .encCtr128 .loadKey 16
    s.eng.ph = .loadKey ∧ CipherOp.ofCode s.eng.op = some .encCtr128 ∧
    (∀ i < 16, memOk s.cfg (s.desc.keyAddr + BitVec.ofNat 32 i) .read = true) ∧
    memOk (deny s 0x100 .read).cfg (s.desc.keyAddr + BitVec.ofNat 32 0) .read = false ∧
    (∀ j < 15, memOk (deny s 0x10F .read).cfg (s.desc.keyAddr + BitVec.ofNat 32 j) .read = true) ∧
    memOk (deny s 0x10F .read).cfg (s.desc.keyAddr + BitVec.ofNat 32 15) .read = false := by decide

theorem witness_load_iv :
    let s := active .decGcm128 .loadIv 16
    s.eng.ph = .loadIv ∧ CipherOp.ofCode s.eng.op = some .decGcm128 ∧
    (∀ i < 12, memOk s.cfg (s.desc.ivAddr + BitVec.ofNat 32 i) .read = true) ∧
    memOk (deny s 0x200 .read).cfg (s.desc.ivAddr + BitVec.ofNat 32 0) .read = false ∧
    (∀ j < 11, memOk (deny s 0x20B .read).cfg (s.desc.ivAddr + BitVec.ofNat 32 j) .read = true) ∧
    memOk (deny s 0x20B .read).cfg (s.desc.ivAddr + BitVec.ofNat 32 11) .read = false := by decide

theorem witness_init :
    (∀ op ∈ [CipherOp.encCbc128, .decCbc128, .encCtr128, .decCtr128, .encGcm128, .decGcm128],
      (active op .init 16).eng.ph = .init ∧ CipherOp.ofCode (active op .init 16).eng.op = some op) ∧
    (∀ k < 12, blockByte (j0Block 0x0102030405060708090a0b0c) k =
      blockByte 0x0102030405060708090a0b0c00000000 k) ∧
    (j0Block 0x0102030405060708090a0b0c).setWidth 32 = 1#32 := by decide

theorem witness_aad :
    let s := withEng (active .encGcm128 .aad 16) fun e => { e with aadPos := 16 }
    s.eng.ph = .aad ∧ CipherOp.ofCode s.eng.op = some .encGcm128 ∧ s.eng.aadz = false ∧
    s.eng.aadPos.toNat < s.desc.aadLen.toNat ∧ min 16 (s.desc.aadLen.toNat - s.eng.aadPos.toNat) = 4 ∧
    (∀ i < 4, memOk s.cfg (s.desc.aadAddr + s.eng.aadPos + BitVec.ofNat 32 i) .read = true) ∧
    (∀ i < 3, memOk (deny s 0x313 .read).cfg (s.desc.aadAddr + s.eng.aadPos + BitVec.ofNat 32 i) .read = true) ∧
    memOk (deny s 0x313 .read).cfg (s.desc.aadAddr + s.eng.aadPos + BitVec.ofNat 32 3) .read = false ∧
    (withEng s fun e => { e with aadz := true }).eng.aadz = true ∧
    ¬ (withEng s fun e => { e with aadPos := 20 }).eng.aadPos.toNat < s.desc.aadLen.toNat := by decide

/-- The units: a full block and a tail of one and of fifteen bytes, with just enough room in the staging output. -/
theorem witness_units :
    (∀ op ∈ [CipherOp.encCbc128, .decCbc128, .encCtr128, .decCtr128, .encGcm128, .decGcm128],
      CipherOp.ofCode (loaded op hello).eng.op = some op ∧ (loaded op hello).eng.ph = .data) ∧
    (let s := withEng (loaded .encCtr128 (List.replicate 16 7)) fun e => { e with outq := List.replicate 16 0 }
     16 ≤ s.cfg.stageBytes - s.eng.outq.length ∧ 16 ≤ s.eng.inq.length) ∧
    (∀ n ∈ [1, 15], (loaded .encGcm128 (List.replicate n 7)).eng.srcPos =
        (loaded .encGcm128 (List.replicate n 7)).eng.tLen ∧
      0 < (loaded .encGcm128 (List.replicate n 7)).eng.inq.length ∧
      (loaded .encGcm128 (List.replicate n 7)).eng.inq.length < 16) := by decide

/-- CbcEncryptionUnits' padding unit on an empty and a fifteen-byte rest. -/
theorem witness_padding_unit :
    ∀ n ∈ [0, 15], let s := loaded .encCbc128 (List.replicate n 7)
      s.eng.srcPos = s.eng.tLen ∧ s.eng.inq.length < 16 ∧ s.eng.tailDone = false := by decide

/-- CbcDecryptionUnits: a block that is not the last, the last one, and padding that is consistent and not. -/
theorem witness_cbc_decryption :
    (let s := withEng (loaded .decCbc128 (List.replicate 32 7)) fun e => { e with tDone := 0 }
     s.eng.tDone.toNat + 16 < s.eng.tLen.toNat ∧ 16 ≤ s.eng.inq.length) ∧
    (let s := loaded .decCbc128 (List.replicate 16 7)
     s.eng.tDone.toNat + 16 = s.eng.tLen.toNat ∧ 16 ≤ s.eng.inq.length) ∧
    (∀ i < 16, 16 - 16 ≤ i → (blockByte 0x10101010101010101010101010101010 i).toNat = 16) ∧
    (∀ i < 16, 16 - 1 ≤ i → (blockByte 0x00000000000000000000000000000001 i).toNat = 1) ∧
    ¬ (1 ≤ (blockByte 0x00000000000000000000000000000000 15).toNat) ∧
    ¬ ((blockByte 0x00000000000000000000000000000011 15).toNat ≤ 16) := by decide

/-- StepSelectionInData: the five lines of R222. -/
theorem witness_selection :
    (unitReady .encCtr128 (loaded .encCtr128 hello).eng = true ∧ 16 ≤ freeOut (loaded .encCtr128 hello)) ∧
    (let s := withEng (loaded .encCtr128 hello) fun e => { e with outq := List.replicate 17 0 }
     unitReady .encCtr128 s.eng = true ∧ freeOut s < 16) ∧
    (unitReady .encCtr128 (active .encCtr128 .data 16).eng = false ∧
      exhausted (active .encCtr128 .data 16).eng = false) ∧
    (let s := withEng (loaded .encCtr128 []) fun e => { e with outq := [1] }
     unitReady .encCtr128 s.eng = false ∧ exhausted s.eng = true ∧ 0 < s.eng.outq.length) ∧
    (unitReady .encCtr128 (loaded .encCtr128 []).eng = false ∧ exhausted (loaded .encCtr128 []).eng = true ∧
      (loaded .encCtr128 []).eng.outq = []) := by decide

/-- FeedReadsTheSource: all reads completing, the last one failing, and a legal state that feeds. -/
theorem witness_feed :
    (let s := active .encCtr128 .data 16
     feedCount s = 16 ∧ underflow .encCtr128 s.eng = true ∧
     (∀ i < 16, memOk s.cfg (s.desc.srcAddr + s.eng.srcPos + BitVec.ofNat 32 i) .read = true) ∧
     (∀ i < 15, memOk (deny s 0x40F .read).cfg
       (s.desc.srcAddr + s.eng.srcPos + BitVec.ofNat 32 i) .read = true) ∧
     memOk (deny s 0x40F .read).cfg (s.desc.srcAddr + s.eng.srcPos + BitVec.ofNat 32 15) .read = false) ∧
    Inv (active .encCtr128 .data 16) :=
  ⟨by decide, inv_data _ (.inl rfl)⟩

/-- DrainWritesTheOutput: all writes completing, and the second failing. -/
theorem witness_drain :
    let s := withEng (loaded .encCtr128 []) fun e => { e with outq := [1, 2] }
    (∀ i < 2, memOk s.cfg (s.desc.dstAddr + s.eng.dstPos + BitVec.ofNat 32 i) .write = true) ∧
    (∀ i < 1, memOk (deny s 0x501 .write).cfg
      (s.desc.dstAddr + s.eng.dstPos + BitVec.ofNat 32 i) .write = true) ∧
    memOk (deny s 0x501 .write).cfg (s.desc.dstAddr + s.eng.dstPos + BitVec.ofNat 32 1) .write = false := by
  decide

/-- EndOfData: for a counter mode, for CBC and for GCM. -/
theorem witness_end :
    (∀ op ∈ [CipherOp.encCtr128, .encGcm128, .decCbc128], unitReady op (loaded op []).eng = false ∧
      (loaded op []).eng.srcPos = (loaded op []).eng.tLen ∧ (loaded op []).eng.outq = []) ∧
    (let e := { (loaded .encCbc128 []).eng with tailDone := true }
     unitReady .encCbc128 e = false ∧ e.srcPos = e.tLen) := by decide

/-- TagSteps: both commands, the tag that agrees and one that does not, and a failing access. -/
theorem witness_tag :
    let s := active .encGcm128 .tag 16
    let d := active .decGcm128 .tag 16
    s.eng.ph = .tag ∧ CipherOp.ofCode s.eng.op = some .encGcm128 ∧ CipherOp.ofCode d.eng.op = some .decGcm128 ∧
    (∀ i < 16, memOk s.cfg (s.desc.dstAddr + s.eng.dstPos + BitVec.ofNat 32 i) .write = true) ∧
    (∀ i < 16, memOk d.cfg (d.desc.srcAddr + d.eng.tLen + BitVec.ofNat 32 i) .read = true) ∧
    memOk (deny s 0x50F .write).cfg (s.desc.dstAddr + s.eng.dstPos + BitVec.ofNat 32 15) .write = false ∧
    memOk (deny d 0x400 .read).cfg (d.desc.srcAddr + d.eng.tLen + BitVec.ofNat 32 0) .read = false ∧
    d.mem.bytesAt (d.desc.srcAddr + d.eng.tLen) 16 = blockBytes (gcmTag d.eng) ∧
    d.mem.bytesAt (d.desc.srcAddr + d.eng.tLen) 16 ≠
      blockBytes (gcmTag { d.eng with ej0 := 1 }) := by decide +kernel

/-- ZeroFillCannotFail. -/
theorem witness_zero : Inv zeroing ∧ zeroing.eng.ph = .zero := ⟨inv_zeroing, rfl⟩

/-- MemoryStoresAndLoads: a string across the top of the address space, over a byte that is listed. -/
theorem witness_memory :
    Memory.wf [(0, 9), (5, 1)] ∧ ([1, 2, 3] : List Byte).length ≤ 2 ^ 32 ∧
    Memory.setBytes [(0, 9), (5, 1)] 0xFFFFFFFF [1, 0, 3] = [(1, 3), (5, 1), (0xFFFFFFFF, 1)] ∧
    inRange 0xFFFFFFFF 3 1 = true ∧ inRange 0xFFFFFFFF 3 2 = false := by decide

/-- StepKeepsTheInvariant, LegalStatesNeverFault, EngineStepFrame, ForeignWritesDoNotMatter: legal states between
operations, in CHECK, in the data phase and in ZERO, each with a next state. -/
theorem witness_legal :
    Inv { idle .encCbc128 16 with doneIe := true } ∧ Inv (active .encCbc128 .check 16) ∧
    Inv (active .encGcm128 .data 16) ∧ Inv zeroing ∧
    engineStep (active .encCbc128 .check 16) = .next (active .encCbc128 .loadKey 16) ∧
    inInputRange .encCbc128 false (active .encCbc128 .check 16).desc 0x600 = false ∧
    inDestRange .encCbc128 (active .encCbc128 .check 16).desc 0x600 = false :=
  ⟨inv_idle, inv_check, inv_data _ (.inr (.inr rfl)), inv_zeroing, eq_next (by decide), by decide, by decide⟩

/-- ErrorCodesByCommand, BusyEndsByCompletionOrReset: an early error, and a late one, end the operation. -/
theorem witness_errors :
    Inv { active .encCbc128 .check 16 with desc := { descOf .encCbc128 16 64 with ivLen := 12 } } ∧
    (nextOf (engineStep { active .encCbc128 .check 16 with
      desc := { descOf .encCbc128 16 64 with ivLen := 12 } })).map (fun t => (t.status.state, t.status.err)) =
        some (.doneErr, .invalidIvLength) ∧
    Inv zeroing ∧ (nextOf (step zeroing)).map (fun t => (t.status.state, t.status.err)) =
      some (.doneErr, .invalidPadding) ∧
    (nextOf (step { zeroing with inputs := [atOnce .reset] })).map (fun t => t.status.state) = some .idle :=
  ⟨inv_active _ .encCbc128 rfl Memory.wf_nil rfl rfl rfl rfl rfl rfl rfl (by decide)
    ⟨rfl, rfl, rfl, rfl, rfl, rfl, rfl⟩, by decide, inv_zeroing, by decide, by decide⟩

/-- MemoryFaultNamesAFailedAccess: the last key byte fails. -/
theorem witness_memory_fault :
    Inv (deny (active .encCbc128 .loadKey 16) 0x10F .read) ∧
    (nextOf (engineStep (deny (active .encCbc128 .loadKey 16) 0x10F .read))).map
      (fun t => (t.status.word, t.faultAddr)) = some (0x73, 0x10F) := by
  refine ⟨⟨by decide, Memory.wf_nil, HostCache.wf_nil, ⟨by decide, fun _ => rfl, fun _ => rfl⟩, ⟨by decide,
    fun h => absurd h (by decide), fun _ => ⟨.encCbc128, rfl, by decide, ?_⟩,
    fun i hi => absurd hi (Nat.not_lt_zero i)⟩⟩, by decide⟩
  exact ⟨by decide, rfl, rfl, rfl, rfl, rfl, rfl, rfl⟩

/-- OperationEndsWithinItsBound. -/
theorem witness_bound :
    Inv { idle .encCbc128 16 with doneIe := true } ∧ (encode .decCtr128).extractLsb' 0 4 = CipherOp.decCtr128.code ∧
    (idle .encCbc128 16).inputs = [] :=
  ⟨inv_idle, by decide, rfl⟩

/-- Disjoint ranges are an allowed overlap. -/
theorem overlap_apart (op : CipherOp) (n : Word) (hn : n.toNat ≤ 48) : overlapAllowed op (descOf op n 64) := by
  intro i j hi hj he
  have hreq : required op n.toNat ≤ 64 := by cases op <;> simp only [required] <;> omega
  have hi' : i < n.toNat := hi
  have hj' : j < required op n.toNat := hj
  have h := congrArg BitVec.toNat he
  simp [descOf, BitVec.toNat_add] at h
  omega

/-- A ready operation on `n` bytes of whatever memory holds. -/
theorem ready_apart (op : CipherOp) (aadz : Bool) (n : Word) (hn : n.toNat ≤ 48) (m : Memory)
    (hm : Memory.wf m) (hc : checkError op (descOf op n 64) = none) :
    Ready op aadz { idle op n with mem := m } where
  between := ⟨show Config.initial.wf = true by decide, hm, HostCache.wf_nil, by simp [idle, State.reset], rfl⟩
  noInputs := rfl
  checks := hc
  key := fun i _ => memOk_all _ rfl _ _
  iv := fun i _ => memOk_all _ rfl _ _
  aad := fun _ _ i _ => memOk_all _ rfl _ _
  src := fun i _ => memOk_all _ rfl _ _
  dst := fun i _ => memOk_all _ rfl _ _
  overlap := overlap_apart op n hn

/-- CtrOperationsGiveTheReference: no text, and a text of more than one staging buffer. -/
theorem witness_ctr :
    Ready .encCtr128 false (idle .encCtr128 0) ∧ Ready .encCtr128 false (idle .encCtr128 47) ∧
    Ready .decCtr128 false (idle .decCtr128 47) :=
  ⟨ready_apart _ _ _ (by decide) _ Memory.wf_nil (by decide), ready_apart _ _ _ (by decide) _ Memory.wf_nil (by decide),
    ready_apart _ _ _ (by decide) _ Memory.wf_nil (by decide)⟩

/-- Memory with one block at the source of `descOf`. -/
def sourceMem (bs : List Byte) : Memory := Memory.setBytes [] 0x400 bs

/-- CbcOperationsGiveTheReference: an encryption, a decryption with good padding (R146's example) and one with bad. -/
theorem witness_cbc :
    Ready .encCbc128 false (idle .encCbc128 47) ∧
    (let s := { idle .decCbc128 16 with mem := sourceMem (blockBytes 0x0143db63ee66b0cdff9f69917680151e) }
     Ready .decCbc128 false s ∧ cbcDec (keyOf s) (ivOf s) (srcOf s) = some []) ∧
    Ready .decCbc128 false (idle .decCbc128 48) ∧
    cbcDec (keyOf (idle .decCbc128 48)) (ivOf (idle .decCbc128 48)) (srcOf (idle .decCbc128 48)) = none :=
  ⟨ready_apart _ _ _ (by decide) _ Memory.wf_nil (by decide),
    ⟨ready_apart _ _ _ (by decide) _ (by decide +kernel) (by decide), by decide +kernel⟩,
    ready_apart _ _ _ (by decide) _ Memory.wf_nil (by decide), by decide +kernel⟩

/-- R184's worked example: the ciphertext of `hello` and its tag, under the default AAD. -/
def helloSealed : List Byte :=
  [0x4b, 0xed, 0xb6, 0xa2, 0x0f, 0x96, 0xf4, 0xfd, 0x81, 0x44, 0xa6, 0x98] ++
    blockBytes 0x71815dc6e63c7c454e1975103b33c4be

/-- GcmOperationsGiveTheReference: encryptions with either AAD, a decryption whose tag verifies and one whose tag
does not. -/
theorem witness_gcm :
    Ready .encGcm128 true (idle .encGcm128 47) ∧ Ready .encGcm128 false (idle .encGcm128 0) ∧
    (let s := { idle .decGcm128 28 with mem := sourceMem helloSealed }
     Ready .decGcm128 true s ∧ gcmDec (keyOf s) (gcmNonceOf s) (aadOf true s) (srcOf s) = some hello) ∧
    Ready .decGcm128 false (idle .decGcm128 16) ∧
    gcmDec (keyOf (idle .decGcm128 16)) (gcmNonceOf (idle .decGcm128 16)) (aadOf false (idle .decGcm128 16))
      (srcOf (idle .decGcm128 16)) = none :=
  ⟨ready_apart _ _ _ (by decide) _ Memory.wf_nil (by decide),
    ready_apart _ _ _ (by decide) _ Memory.wf_nil (by decide),
    ⟨ready_apart _ _ _ (by decide) _ (by decide +kernel) (by decide), by decide +kernel⟩,
    ready_apart _ _ _ (by decide) _ Memory.wf_nil (by decide), by decide +kernel⟩

/-- AllowedOverlaps: in place, and disjoint. -/
theorem witness_overlap :
    (let d := { descOf .encGcm128 16 64 with dstAddr := 0x400 }
     d.dstAddr.toNat ≤ d.srcAddr.toNat ∧ d.srcAddr.toNat + d.srcLen.toNat ≤ 2 ^ 32 ∧
     d.dstAddr.toNat + required .encGcm128 d.srcLen.toNat ≤ 2 ^ 32) ∧
    (∀ i < 16, inDestRange .encGcm128 (descOf .encGcm128 16 64) (0x400 + BitVec.ofNat 32 i) = false) := by decide

/-- WaitEnds: while an operation runs, and with none running. -/
theorem witness_wait :
    Inv { active .encCbc128 .check 16 with inputs := [atOnce .wait] } ∧
    Inv { idle .encCbc128 16 with doneIe := true, inputs := [atOnce .wait] } :=
  ⟨inv_check.congr_io [atOnce .wait] 0, inv_idle.congr_io [atOnce .wait] 0⟩

/-- The primitives' ranges: the least and the greatest counter width, a counter at its end, and strings of whole
blocks. -/
theorem witness_primitives :
    (1 ≤ 1 ∧ 128 ≤ 128) ∧ (0x00000000000000000000000000000001#128).toNat % 2 ^ 1 = 2 ^ 1 - 1 ∧
    (BitVec.allOnes 128).toNat % 2 ^ 128 = 2 ^ 128 - 1 ∧ (List.replicate 32 (0 : Byte)).length % 16 = 0 ∧
    bytesBlock ((padPkcs hello).drop ((padPkcs hello).length - 16)) = 0x48656c6c6f20576f726c642104040404 := by
  decide +kernel

end Sys2Proof.Tests
end

section
/-! What an engine step leaves unchanged (O39): the memory each phase's step leaves, and that every byte an
engine step stores lies in the running operation's destination range (spec/20_memory.md R61). -/

namespace Sys2Proof.Machine

/-! ## What each phase's step does to memory -/

@[simp] theorem checkStep_mem (op : CipherOp) (s : State) : (checkStep op s).mem = s.mem := by
  unfold checkStep
  split <;> rfl

@[simp] theorem loadKeyStep_mem (s : State) : (loadKeyStep s).mem = s.mem := by
  unfold loadKeyStep
  split <;> rfl

@[simp] theorem loadIvStep_mem (op : CipherOp) (s : State) : (loadIvStep op s).mem = s.mem := by
  unfold loadIvStep
  split <;> rfl

@[simp] theorem initStep_mem (op : CipherOp) (s : State) : (initStep op s).mem = s.mem := rfl

@[simp] theorem gcmAad_mem (s : State) : (gcmAad s).mem = s.mem := by
  unfold gcmAad
  dsimp only
  split
  · rfl
  · split
    · split <;> rfl
    · rfl

@[simp] theorem feedStep_mem (s : State) : (feedStep s).mem = s.mem := by
  unfold feedStep
  split <;> rfl

@[simp] theorem endOfData_mem (op : CipherOp) (s : State) : (endOfData op s).mem = s.mem := by
  unfold endOfData
  split <;> rfl

@[simp] theorem decGcm128Tag_mem (s : State) : (decGcm128Tag s).mem = s.mem := by
  unfold decGcm128Tag
  split
  · dsimp only
    split <;> rfl
  · rfl

theorem drainStep_mem (s : State) :
    (drainStep s).mem = (writeRun s.cfg s.mem (s.desc.dstAddr + s.eng.dstPos) s.eng.outq).1 := by
  unfold drainStep
  split
  case h_1 m hr => rw [hr]
  case h_2 m f hr => rw [hr, memoryFault_mem]

theorem encGcm128Tag_mem (s : State) :
    (encGcm128Tag s).mem =
      (writeRun s.cfg s.mem (s.desc.dstAddr + s.eng.dstPos) (blockBytes (gcmTag s.eng))).1 := by
  unfold encGcm128Tag
  split
  case h_1 m hr => rw [hr, completeOk_mem]
  case h_2 m f hr => rw [hr, memoryFault_mem]

theorem zeroStep_mem (s : State) :
    (zeroStep s).mem = (writeRun s.cfg s.mem (s.desc.dstAddr + s.eng.zeroPos)
      (List.replicate (s.eng.dstPos.toNat - s.eng.zeroPos.toNat) 0)).1 := by
  unfold zeroStep
  dsimp only
  split
  case h_1 m hr => rw [hr, completeErr_mem]
  case h_2 m f hr => rw [hr, memoryFault_mem]

theorem xformStep_mem {op : CipherOp} {s t : State} (h : xformStep op s = .next t) : t.mem = s.mem := by
  unfold xformStep at h
  split at h
  · cases h; rfl
  · cases h

/-- A step of phase DATA stores nothing or is DRAIN (R222). -/
theorem dataStep_mem {op : CipherOp} {s t : State} (h : dataStep op s = .next t) :
    t.mem = s.mem ∨ t = drainStep s := by
  unfold dataStep at h
  split at h
  · exact .inl (xformStep_mem h)
  · split at h
    · cases h; exact .inr rfl
    · split at h
      · cases h; exact .inl (feedStep_mem s)
      · split at h
        · cases h; exact .inr rfl
        · cases h; exact .inl (endOfData_mem op s)

/-! ## Stores stay inside the destination -/

/-- Every byte outside the destination range of operation `op` is the same in `m` as in state `s`. -/
def SameOutsideDest (op : CipherOp) (s : State) (m : Memory) : Prop :=
  ∀ a : Addr, inDestRange op s.desc a = false → m.byteAt a = s.mem.byteAt a

theorem SameOutsideDest.of_eq {op : CipherOp} {s : State} {m : Memory} (h : m = s.mem) :
    SameOutsideDest op s m := fun _ _ => h ▸ rfl

/-- A write run, whole or stopped, changes no byte outside its range. -/
theorem byteAt_writeRun_outside (c : Config) (m : Memory) (a a' : Addr) (bs : List Byte)
    (h : ∀ i < bs.length, a' ≠ a + BitVec.ofNat 32 i) : (writeRun c m a bs).1.byteAt a' = m.byteAt a' := by
  rcases writeRun_cases c m a bs with ⟨hr, _⟩ | ⟨k, _, hr, _, _⟩ <;> rw [hr]
  · exact Memory.byteAt_setBytes_outside m a a' bs h
  · refine Memory.byteAt_setBytes_outside m a a' _ fun i hi => h i ?_
    exact hi.trans_le (List.length_take_le' k bs)

/-- A write run from position `p` of the destination on that ends inside the destination. -/
theorem SameOutsideDest.writeRun {op : CipherOp} {s : State} (p : Word) (bs : List Byte)
    (hle : p.toNat + bs.length ≤ required op s.desc.srcLen.toNat) :
    SameOutsideDest op s (writeRun s.cfg s.mem (s.desc.dstAddr + p) bs).1 := by
  intro a ha
  refine byteAt_writeRun_outside _ _ _ _ _ fun i hi hc => ?_
  have hin : inDestRange op s.desc a = true :=
    (inRange_iff _ _ _).mpr ⟨p.toNat + i, by omega, hc.trans (add_pos_ofNat _ _ _)⟩
  simp [hin] at ha

/-- DRAIN stores what the units have made, which the destination holds (R224, R227). -/
theorem drainStep_outside {op : CipherOp} {s : State} (h : Running op s) (hd : s.eng.ph = .data) :
    SameOutsideDest op s (drainStep s).mem := by
  obtain ⟨hchk, hdi⟩ := (phaseInv_data hd).mp h.ph
  rw [drainStep_mem]
  exact .writeRun _ _ (produced_le hchk hdi).1

/-- Only ENC_GCM128 stores in its TAG step: the 16 bytes that end its destination (R189, R215). -/
theorem tagStep_outside {op : CipherOp} {s t : State} (h : Running op s) (hd : s.eng.ph = .tag)
    (ht : tagStep op s = .next t) : SameOutsideDest op s t.mem := by
  have hph := h.ph
  simp only [PhaseInv, hd] at hph
  obtain ⟨-, -, hlen, -, -, hpos, -⟩ := hph
  cases op <;> cases ht
  case encGcm128 =>
    rw [encGcm128Tag_mem]
    refine .writeRun _ _ ?_
    simp [hpos, hlen, textLen, required]
  case decGcm128 => exact .of_eq (decGcm128Tag_mem s)

/-- ZERO covers the destination bytes the operation wrote and no others (R229). -/
theorem zeroStep_outside {op : CipherOp} {s : State} (h : Running op s) (hd : s.eng.ph = .zero) :
    SameOutsideDest op s (zeroStep s).mem := by
  have hph := h.ph
  simp only [PhaseInv, hd] at hph
  obtain ⟨-, -, -, hzero, hle, -⟩ := hph
  rw [zeroStep_mem]
  refine .writeRun _ _ ?_
  simpa [hzero] using hle

/-- No step of a running operation changes a byte outside its destination (R61). -/
theorem phaseStep_outside {op : CipherOp} {s t : State} (h : Running op s) (ht : phaseStep op s = .next t) :
    SameOutsideDest op s t.mem := by
  unfold phaseStep at ht
  split at ht
  case h_1 => cases ht; exact .of_eq rfl
  case h_2 => cases ht; exact .of_eq (checkStep_mem op s)
  case h_3 => cases ht; exact .of_eq (loadKeyStep_mem s)
  case h_4 => cases ht; exact .of_eq (loadIvStep_mem op s)
  case h_5 => cases ht; exact .of_eq (initStep_mem op s)
  case h_6 =>
    unfold aadStep at ht
    split at ht <;> cases ht
    exact .of_eq (gcmAad_mem s)
  case h_7 hd =>
    rcases dataStep_mem ht with hm | rfl
    · exact .of_eq hm
    · exact drainStep_outside h hd
  case h_8 hd => exact tagStep_outside h hd ht
  case h_9 hd => cases ht; exact zeroStep_outside h hd

/-- In a legal state an active engine runs the operation its `S.op` names (R46, R81). -/
theorem Inv.running_of_ofCode {s : State} {op : CipherOp} (hi : Inv s) (ha : s.eng.ph ≠ .none)
    (hop : CipherOp.ofCode s.eng.op = some op) : Running op s := by
  obtain ⟨op', hop', haz, hph⟩ := hi.running.active ha
  obtain rfl : op' = op := Option.some.inj (hop'.symm.trans hop)
  exact ⟨hi, ha, hop, haz, hph⟩

/-- No engine step from a legal state changes a byte outside the running operation's destination (R61). -/
theorem engineStep_outside {s t : State} {op : CipherOp} (hi : Inv s)
    (hop : CipherOp.ofCode s.eng.op = some op) (ht : engineStep s = .next t) :
    SameOutsideDest op s t.mem := by
  by_cases ha : s.eng.ph = .none
  · rw [engineStep_idle s ha] at ht
    cases ht
    exact .of_eq rfl
  · rw [engineStep_active s op ha hop] at ht
    exact phaseStep_outside (hi.running_of_ofCode ha hop) ht

/-- Settles O39: the registers and the host's fields by the frame every engine step keeps, memory by the
bounds the invariant puts on the positions of DRAIN, TAG and ZERO. -/
theorem engineStepFrame : Obligations.EngineStepFrame := by
  refine ⟨engineStep_idle, fun s t ht => ?_⟩
  obtain ⟨hcfg, hdesc, hdoneIe, hign, hcache, hinputs, hrdata⟩ := engineStep_frame s t ht
  exact ⟨hcfg, hdesc, hdoneIe, hign, hinputs, hrdata, hcache,
    fun hi op a hop ha => engineStep_outside hi hop ht a ha⟩

end Sys2Proof.Machine
end

section
/-! What one step of the machine can do: the host's access that is due, then the engine's step (log entries 3 and 5);
every step keeps the invariant (O37), and while BUSY only a completion or a reset ends the operation (O13, O14, O41). -/

namespace Sys2Proof.Machine

/-! ## The two agents of a step -/

/-- A step is an engine step, or the host access that is due, after which the engine may move in the same step. The
count and the list of the pending accesses are the host's. -/
theorem step_cases {s t : State} (h : step s = .next t) :
    (∃ l, engineStep { s with inputs := l } = .next t) ∨
    ∃ inp rest u, s.inputs = inp :: rest ∧ inp.after = 0 ∧
      hostAct inp.op { s with inputs := rest } = .next u ∧
      (t = u ∨ inp.together = true ∧ s.eng.ph ≠ .none ∧ engineStep u = .next t) := by
  unfold step at h
  split at h
  case h_1 => exact .inl ⟨s.inputs, h⟩
  case h_2 inp rest hin =>
    split at h
    case h_2 n hn => exact .inl ⟨_, h⟩
    case h_1 h0 =>
      unfold hostStep at h
      split at h
      case h_2 | h_3 => cases h
      case h_1 u hu =>
        refine .inr ⟨inp, rest, u, hin, h0, hu, ?_⟩
        split at h
        case isTrue hboth => exact .inr ⟨hboth.1, hboth.2, h⟩
        case isFalse => cases h; exact .inl rfl

/-- Settles O37: the host's access keeps the invariant, and so does the engine's step after it. -/
theorem stepKeepsTheInvariant : Obligations.StepKeepsTheInvariant := by
  intro s t hi hst
  rcases step_cases hst with ⟨l, he⟩ | ⟨inp, rest, u, -, -, hu, rfl | ⟨-, -, he⟩⟩
  · exact inv_engineStep (hi.congr_io l s.rdata) he
  · exact inv_hostAct (hi.congr_io rest s.rdata) _ hu
  · exact inv_engineStep (inv_hostAct (hi.congr_io rest s.rdata) _ hu) he

/-! ## How an engine step can end the operation -/

/-- The engine's access at an address of the `n` from `first` on fails when it reads (R64). -/
def ReadFails (c : Config) (first : Addr) (n : Nat) (a : Addr) : Prop :=
  inRange first n a = true ∧ memOk c a .read = false

/-- The engine's access at an address of the `n` from `first` on fails when it writes (R64). -/
def WriteFails (c : Config) (first : Addr) (n : Nat) (a : Addr) : Prop :=
  inRange first n a = true ∧ memOk c a .write = false

theorem readRun_error {c : Config} {m : Memory} {first f : Addr} {n : Nat}
    (h : readRun c m first n = .error f) : ReadFails c first n f := by
  rcases readRun_cases c m first n with ⟨hr, -⟩ | ⟨i, hi, hr, -, hbad⟩
  · rw [hr] at h; cases h
  · rw [hr] at h; cases h
    exact ⟨(inRange_iff _ _ _).mpr ⟨i, hi, rfl⟩, hbad⟩

theorem writeRun_fault {c : Config} {m m' : Memory} {first f : Addr} {bs : List Byte}
    (h : writeRun c m first bs = (m', some f)) : WriteFails c first bs.length f := by
  rcases writeRun_cases c m first bs with ⟨hr, -⟩ | ⟨i, hi, hr, -, hbad⟩
  · rw [hr] at h; cases h
  · rw [hr] at h; cases h
    exact ⟨(inRange_iff _ _ _).mpr ⟨i, hi, rfl⟩, hbad⟩

/-- An access the step of the current phase makes fails at this address: the accesses of R186, R189, R190, R216,
R217, R224, R225 and R229. -/
inductive FailedAccess (op : CipherOp) (s : State) (a : Addr) : Prop
  | key (hph : s.eng.ph = .loadKey) (h : ReadFails s.cfg s.desc.keyAddr 16 a)
  | iv (hph : s.eng.ph = .loadIv) (h : ReadFails s.cfg s.desc.ivAddr (ivBytes op) a)
  | aad (hph : s.eng.ph = .aad) (hz : s.eng.aadz = false)
      (h : ReadFails s.cfg (s.desc.aadAddr + s.eng.aadPos) (min 16 (s.desc.aadLen.toNat - s.eng.aadPos.toNat)) a)
  | feed (hph : s.eng.ph = .data) (h : ReadFails s.cfg (s.desc.srcAddr + s.eng.srcPos) (feedCount s) a)
  | drain (hph : s.eng.ph = .data) (h : WriteFails s.cfg (s.desc.dstAddr + s.eng.dstPos) s.eng.outq.length a)
  | tagOut (hph : s.eng.ph = .tag) (hop : op = .encGcm128)
      (h : WriteFails s.cfg (s.desc.dstAddr + s.eng.dstPos) 16 a)
  | tagIn (hph : s.eng.ph = .tag) (hop : op = .decGcm128)
      (h : ReadFails s.cfg (s.desc.srcAddr + s.eng.tLen) 16 a)
  | zero (hph : s.eng.ph = .zero)
      (h : WriteFails s.cfg (s.desc.dstAddr + s.eng.zeroPos) (s.eng.dstPos.toNat - s.eng.zeroPos.toNat) a)

/-- What a step of a running operation leaves: the operation goes on, or it completes in one of R236's and R237's
ways. -/
inductive StepEnd (op : CipherOp) (s : State) : State → Prop
  | goesOn (m : Memory) (e : Engine) : StepEnd op s { s with mem := m, eng := e }
  | succeeds (n : Word) (m : Memory) (e : Engine) : StepEnd op s (completeOk n { s with mem := m, eng := e })
  | earlyError (c : ErrorCode) (hc : checkError op s.desc = some c) : StepEnd op s (completeErr c 0 s)
  | lateError (m : Memory) (hph : s.eng.ph = .zero) : StepEnd op s (completeErr s.eng.perr 0 { s with mem := m })
  | faults (a : Addr) (m : Memory) (ha : FailedAccess op s a) : StepEnd op s (memoryFault a m s)

theorem checkStep_end (op : CipherOp) (s : State) : StepEnd op s (checkStep op s) := by
  unfold checkStep
  split
  case h_1 c hc => exact .earlyError c hc
  case h_2 => exact .goesOn s.mem _

theorem loadKeyStep_end (op : CipherOp) {s : State} (hd : s.eng.ph = .loadKey) :
    StepEnd op s (loadKeyStep s) := by
  unfold loadKeyStep
  split
  case h_1 => exact .goesOn s.mem _
  case h_2 f hr => exact .faults f _ (.key hd (readRun_error hr))

theorem loadIvStep_end (op : CipherOp) {s : State} (hd : s.eng.ph = .loadIv) :
    StepEnd op s (loadIvStep op s) := by
  unfold loadIvStep
  split
  case h_1 => exact .goesOn s.mem _
  case h_2 f hr => exact .faults f _ (.iv hd (readRun_error hr))

theorem gcmAad_end (op : CipherOp) {s : State} (hd : s.eng.ph = .aad) : StepEnd op s (gcmAad s) := by
  unfold gcmAad
  dsimp only
  split
  case isTrue => exact .goesOn s.mem _
  case isFalse hz =>
    split
    case isFalse => exact .goesOn s.mem _
    case isTrue =>
      split
      case h_1 => exact .goesOn s.mem _
      case h_2 f hr => exact .faults f _ (.aad hd (by simpa using hz) (readRun_error hr))

theorem drainStep_end (op : CipherOp) {s : State} (hd : s.eng.ph = .data) : StepEnd op s (drainStep s) := by
  unfold drainStep
  split
  case h_1 m hr => exact .goesOn m _
  case h_2 m f hr => exact .faults f m (.drain hd (writeRun_fault hr))

theorem feedStep_end (op : CipherOp) {s : State} (hd : s.eng.ph = .data) : StepEnd op s (feedStep s) := by
  unfold feedStep
  split
  case h_1 => exact .goesOn s.mem _
  case h_2 f hr => exact .faults f _ (.feed hd (readRun_error hr))

theorem endOfData_end (op : CipherOp) (s : State) : StepEnd op s (endOfData op s) := by
  unfold endOfData
  split
  case isTrue => exact .goesOn s.mem _
  case isFalse => exact .succeeds _ s.mem s.eng

theorem dataStep_end {op : CipherOp} {s t : State} (hd : s.eng.ph = .data) (h : dataStep op s = .next t) :
    StepEnd op s t := by
  unfold dataStep at h
  split at h
  case isTrue =>
    unfold xformStep at h
    split at h <;> cases h
    exact .goesOn s.mem _
  case isFalse =>
    split at h
    · cases h; exact drainStep_end op hd
    · split at h
      · cases h; exact feedStep_end op hd
      · split at h
        · cases h; exact drainStep_end op hd
        · cases h; exact endOfData_end op s

theorem encGcm128Tag_end {s : State} (hd : s.eng.ph = .tag) : StepEnd .encGcm128 s (encGcm128Tag s) := by
  unfold encGcm128Tag
  split
  case h_1 m hr => exact .succeeds _ m s.eng
  case h_2 m f hr => exact .faults f m (.tagOut hd rfl (writeRun_fault hr))

theorem decGcm128Tag_end {s : State} (hd : s.eng.ph = .tag) : StepEnd .decGcm128 s (decGcm128Tag s) := by
  unfold decGcm128Tag
  split
  case h_2 f hr => exact .faults f _ (.tagIn hd rfl (readRun_error hr))
  case h_1 =>
    dsimp only
    split
    case isTrue => exact .succeeds _ s.mem _
    case isFalse => exact .goesOn s.mem _

theorem zeroStep_end (op : CipherOp) {s : State} (hd : s.eng.ph = .zero) : StepEnd op s (zeroStep s) := by
  unfold zeroStep
  dsimp only
  split
  case h_1 m hr => exact .lateError m hd
  case h_2 m f hr => exact .faults f m (.zero hd (by simpa using writeRun_fault hr))

/-- Every phase's step ends in one of the listed ways. -/
theorem phaseStep_end {op : CipherOp} {s t : State} (h : phaseStep op s = .next t) : StepEnd op s t := by
  unfold phaseStep at h
  split at h
  case h_1 => cases h; exact .goesOn s.mem s.eng
  case h_2 => cases h; exact checkStep_end op s
  case h_3 hd => cases h; exact loadKeyStep_end op hd
  case h_4 hd => cases h; exact loadIvStep_end op hd
  case h_5 => cases h; exact .goesOn s.mem _
  case h_6 hd =>
    unfold aadStep at h
    split at h <;> cases h
    exact gcmAad_end op hd
  case h_7 hd => exact dataStep_end hd h
  case h_8 hd =>
    unfold tagStep at h
    split at h <;> cases h
    · exact encGcm128Tag_end hd
    · exact decGcm128Tag_end hd
  case h_9 hd => cases h; exact zeroStep_end op hd

/-- What every completion leaves: DONE_OK or DONE_ERR, DONE_P set and the internal registers zero (R236 to R238). -/
structure Completed (t : State) : Prop where
  state : t.status.state = .doneOk ∨ t.status.state = .doneErr
  doneP : t.doneP = true
  cleared : t.eng = Engine.cleared

/-- A step of a running operation leaves STATE as it is or completes the operation. -/
theorem StepEnd.state_or_completed {op : CipherOp} {s t : State} (h : StepEnd op s t) :
    t.status.state = s.status.state ∨ Completed t := by
  cases h with
  | goesOn m e => exact .inl rfl
  | succeeds n m e => exact .inr ⟨.inl rfl, rfl, rfl⟩
  | earlyError c hc => exact .inr ⟨.inr rfl, rfl, rfl⟩
  | lateError m hph => exact .inr ⟨.inr rfl, rfl, rfl⟩
  | faults a m ha => exact .inr ⟨.inr rfl, rfl, rfl⟩

/-- An engine step leaves the machine as it is or is a step of the operation `S.op` names. -/
theorem engineStep_cases {s t : State} (h : engineStep s = .next t) :
    (s.eng.ph = .none ∧ t = s) ∨
    ∃ op, s.eng.ph ≠ .none ∧ CipherOp.ofCode s.eng.op = some op ∧ phaseStep op s = .next t := by
  unfold engineStep at h
  split at h
  case isTrue hn => cases h; exact .inl ⟨hn, rfl⟩
  case isFalse ha =>
    split at h
    case h_1 op hop => exact .inr ⟨op, ha, hop, h⟩
    case h_2 => cases h

theorem engineStep_state_or_completed {s t : State} (h : engineStep s = .next t) :
    t.status.state = s.status.state ∨ Completed t := by
  rcases engineStep_cases h with ⟨-, rfl⟩ | ⟨op, -, -, hs⟩
  · exact .inl rfl
  · exact (phaseStep_end hs).state_or_completed

/-! ## What the host can do to a running operation -/

/-- A command written while BUSY is ignored (R210). -/
theorem startOperation_busy {s : State} (hb : s.status.state = .busy) (op : CipherOp) (z : Bool) :
    startOperation op z s = s.setIgn := if_pos ((busy_eq_true s).mpr hb)

/-- An illegal word written while BUSY is ignored (R210). -/
theorem illegalWrite_busy {s : State} (hb : s.status.state = .busy) : illegalWrite s = s.setIgn :=
  if_pos ((busy_eq_true s).mpr hb)

theorem writeDesc_busy {s : State} (hb : s.status.state = .busy) (d : DescReg) (v : Word) :
    writeDesc d v s = s.setIgn := if_pos ((busy_eq_true s).mpr hb)

theorem writeDesc_notBusy {s : State} (hb : s.status.state ≠ .busy) (d : DescReg) (v : Word) :
    writeDesc d v s = { s with desc := s.desc.set d v } := if_neg (by simpa using hb)

/-- The descriptor registers, STATE and the internal registers are the same in both states. -/
structure SameOperation (s t : State) : Prop where
  desc : t.desc = s.desc
  state : t.status.state = s.status.state
  eng : t.eng = s.eng

theorem SameOperation.refl (s : State) : SameOperation s s := ⟨rfl, rfl, rfl⟩

theorem DataChange.sameOperation {s t : State} (h : DataChange s t) : SameOperation s t := by
  obtain ⟨m, c, d, rfl, -, -⟩ := h
  exact ⟨rfl, rfl, rfl⟩

theorem exec_busy {i : Instr} {s t : State} (hb : s.status.state = .busy) (h : exec i s = .next t) :
    t = s ∨ t = s.setIgn := by
  cases i <;> cases h
  case nop => exact .inl rfl
  all_goals exact .inr (startOperation_busy hb _ _)

/-- No register write disturbs a running operation (R39, R43, R210). -/
theorem writeReg_busy {r : Reg} {v : Word} {s t : State} (hb : s.status.state = .busy)
    (h : writeReg r v s = .next t) : SameOperation s t := by
  cases r with
  | cmd =>
    change writeCmd v s = .next t at h
    unfold writeCmd at h
    split at h
    case h_1 i hi => rcases exec_busy hb h with rfl | rfl <;> exact ⟨rfl, rfl, rfl⟩
    case h_2 => cases h; rw [illegalWrite_busy hb]; exact ⟨rfl, rfl, rfl⟩
  | status | resultLen | faultAddr => cases h; exact .refl _
  | desc d => cases h; rw [writeDesc_busy hb]; exact ⟨rfl, rfl, rfl⟩
  | irqEn => cases h; exact ⟨rfl, rfl, rfl⟩
  | irqStat =>
    cases h
    unfold writeIrqStat
    split
    · exact ⟨rfl, rfl, rfl⟩
    · exact .refl _

/-- Nothing another agent does, but a reset, disturbs a running operation. -/
theorem hostAct_busy {op : HostOp} {s t : State} (hb : s.status.state = .busy) (hr : op ≠ .reset)
    (h : hostAct op s = .next t) : SameOperation s t := by
  cases op with
  | write addr size v =>
    change busWrite addr size v s = .next t at h
    unfold busWrite at h
    split at h
    case h_1 => cases h; exact .refl _
    case h_2 => cases h
    case h_3 => exact writeReg_busy hb h
  | read addr size =>
    change busRead addr size s = .next t at h
    unfold busRead at h
    split at h <;> cases h
    · exact .refl _
    · exact ⟨rfl, rfl, rfl⟩
  | memWrite a b => exact (hostMemWrite_change h).sameOperation
  | memRead a => exact (hostMemRead_change h).sameOperation
  | cacheFetch a => exact (cacheFetch_change h).sameOperation
  | cacheClean a => exact (cacheClean_change h).sameOperation
  | cacheInvalidate a => cases h; exact (cacheInvalidate_change a s).sameOperation
  | masterWrite m a b => exact (masterWrite_change h).sameOperation
  | masterRead m a => rw [masterRead_next h]; exact .refl _
  | wait => cases h; exact ⟨rfl, rfl, rfl⟩
  | reset => exact absurd rfl hr

/-- A step from BUSY is an engine step on the same operation, or the host's access alone, or a reset with the
engine's step after it, which finds nothing running. -/
theorem step_busy {s t : State} (hb : s.status.state = .busy) (h : step s = .next t) :
    (∃ u, SameOperation s u ∧ (t = u ∨ engineStep u = .next t)) ∨
    ∃ inp rest, s.inputs = inp :: rest ∧ inp.after = 0 ∧ inp.op = .reset ∧
      t = assertReset { s with inputs := rest } := by
  rcases step_cases h with ⟨l, he⟩ | ⟨inp, rest, u, hin, h0, hu, hut⟩
  case inl => exact .inl ⟨{ s with inputs := l }, ⟨rfl, rfl, rfl⟩, .inr he⟩
  case inr =>
    by_cases hr : inp.op = .reset
    case neg =>
      obtain ⟨hdesc, hstate, heng⟩ := hostAct_busy (s := { s with inputs := rest }) hb hr hu
      exact .inl ⟨u, ⟨hdesc, hstate, heng⟩, hut.imp_right fun ⟨_, _, he⟩ => he⟩
    case pos =>
      rw [hr] at hu
      cases hu
      refine .inr ⟨inp, rest, hin, h0, hr, ?_⟩
      rcases hut with rfl | ⟨-, -, he⟩
      · rfl
      · rw [engineStep_idle _ rfl] at he
        cases he; rfl

/-- Settles O13: the write's two cases, and for a step from BUSY the host's access and the engine's frame. -/
theorem descriptorRegistersFrozenWhileBusy : Obligations.DescriptorRegistersFrozenWhileBusy := by
  refine ⟨fun s d v hb => ?_, fun s d v hb => ?_, fun s t hb hst hnr => ?_⟩
  · refine ⟨_, rfl, ?_⟩
    rw [writeDesc_notBusy hb]
    exact ⟨rfl, Desc.get_set_same _ _ _, fun d' hd => Desc.get_set_other _ _ _ _ hd⟩
  · exact congrArg _ (writeDesc_busy hb d v)
  · rcases step_busy hb hst with ⟨u, hsu, rfl | he⟩ | ⟨inp, rest, hin, h0, hr, -⟩
    · exact hsu.desc
    · exact (engineStep_frame u t he).desc.trans hsu.desc
    · exact absurd hr (hnr inp rest hin h0)

/-- Settles O41: the operation goes on in every step that neither completes it nor resets the block. -/
theorem busyEndsByCompletionOrReset : Obligations.BusyEndsByCompletionOrReset := by
  intro s t hb hst hnb
  rcases step_busy hb hst with ⟨u, hsu, rfl | he⟩ | ⟨inp, rest, hin, h0, hr, rfl⟩
  · exact absurd (hsu.state.trans hb) hnb
  · rcases engineStep_state_or_completed he with hstate | ⟨hdone, hp, hclr⟩
    · exact absurd (hstate.trans (hsu.state.trans hb)) hnb
    · exact .inl ⟨hdone, hp, hclr⟩
  · exact .inr ⟨rfl, rfl, rfl, inp, rest, hin, h0, hr⟩

/-! ## The interrupt bits -/

/-- A write of IRQ_STAT with bit 0 set clears DONE_P (R41). -/
theorem writeIrqStat_of_set {v : Word} (h : v.getLsbD 0 = true) (s : State) :
    writeIrqStat v s = acknowledge s := if_pos h

/-- A write of IRQ_STAT with bit 0 clear changes nothing (R41). -/
theorem writeIrqStat_of_clear {v : Word} (h : v.getLsbD 0 = false) (s : State) : writeIrqStat v s = s :=
  if_neg (by rw [h]; exact Bool.false_ne_true)

/-- Settles O14: the last clause is O41's completion, since the access that lands is no reset. -/
theorem interruptRegisters : Obligations.InterruptRegisters := by
  refine ⟨fun s v => ⟨rfl, rfl, fun hv => ?_, fun hv => ?_, rfl, ?_⟩,
    fun s n c a => ⟨rfl, rfl, rfl, rfl, fun _ _ => rfl⟩, fun s t v rest hin hb hst hnb => ?_⟩
  · exact congrArg _ (writeIrqStat_of_set hv s)
  · exact congrArg _ (writeIrqStat_of_clear hv s)
  · simp [State.irq]
  · rcases busyEndsByCompletionOrReset s t hb hst hnb with ⟨-, hp, -⟩ | ⟨-, -, -, inp, rest', hin', -, hr⟩
    · exact hp
    · rw [hin] at hin'
      obtain ⟨rfl, rfl⟩ := List.cons.inj hin'
      cases hr

end Sys2Proof.Machine
end

section
/-! Where a MemoryFault can come from (O42): every access of a running operation lies in one of its ranges
(spec/20_memory.md R61, R64). -/

namespace Sys2Proof.Machine

/-- No check of R214 reports MemoryFault. -/
theorem checkError_ne_memoryFault (op : CipherOp) (d : Desc) : checkError op d ≠ some .memoryFault := by
  unfold checkError
  repeat' split
  all_goals simp

/-- While an operation runs no error is reported (R24, R211). -/
theorem Running.err_none {op : CipherOp} {s : State} (h : Running op s) : s.status.err = .none := by
  have hbusy := h.inv.running.busy.mpr h.act
  exact h.inv.status.err.mpr (by simp [hbusy])

/-- The late errors are R228's two, neither of them MemoryFault. -/
theorem Running.perr_ne_memoryFault {op : CipherOp} {s : State} (h : Running op s) (hd : s.eng.ph = .zero) :
    s.eng.perr ≠ .memoryFault := by
  have hph := h.ph
  simp only [PhaseInv, hd] at hph
  obtain ⟨-, -, -, -, -, ⟨-, hp⟩ | ⟨-, hp⟩⟩ := hph <;> simp [hp]

/-- A part of a range, from position `p` on, lies in the range. -/
theorem inRange_of_part {first a : Addr} {p : Word} {k n : Nat} (h : inRange (first + p) k a = true)
    (hle : p.toNat + k ≤ n) : inRange first n a = true := by
  obtain ⟨i, hi, rfl⟩ := (inRange_iff _ _ _).mp h
  exact (inRange_iff _ _ _).mpr ⟨p.toNat + i, by omega, add_pos_ofNat _ _ _⟩

/-- The platform fails the engine's access at an address of a range the operation makes it in (R61, R64). -/
def RangeFails (op : CipherOp) (s : State) (a : Addr) : Prop :=
  (inInputRange op s.eng.aadz s.desc a = true ∧ memOk s.cfg a .read = false) ∨
  (inDestRange op s.desc a = true ∧ memOk s.cfg a .write = false)

section
variable {op : CipherOp} {s : State} {a : Addr}

theorem rangeFails_of_key (h : ReadFails s.cfg s.desc.keyAddr 16 a) : RangeFails op s a :=
  .inl ⟨by simp [inInputRange, h.1], h.2⟩

theorem rangeFails_of_iv (h : ReadFails s.cfg s.desc.ivAddr (ivBytes op) a) : RangeFails op s a :=
  .inl ⟨by simp [inInputRange, h.1], h.2⟩

theorem rangeFails_of_aad {p : Word} {k : Nat} (hg : op.isGcm = true) (hz : s.eng.aadz = false)
    (h : ReadFails s.cfg (s.desc.aadAddr + p) k a) (hle : p.toNat + k ≤ s.desc.aadLen.toNat) :
    RangeFails op s a :=
  .inl ⟨by simp [inInputRange, hg, hz, inRange_of_part h.1 hle], h.2⟩

theorem rangeFails_of_src {p : Word} {k : Nat} (h : ReadFails s.cfg (s.desc.srcAddr + p) k a)
    (hle : p.toNat + k ≤ s.desc.srcLen.toNat) : RangeFails op s a :=
  .inl ⟨by simp [inInputRange, inRange_of_part h.1 hle], h.2⟩

theorem rangeFails_of_dst {p : Word} {k : Nat} (h : WriteFails s.cfg (s.desc.dstAddr + p) k a)
    (hle : p.toNat + k ≤ required op s.desc.srcLen.toNat) : RangeFails op s a :=
  .inr ⟨inRange_of_part h.1 hle, h.2⟩

/-- In a legal state the accesses of every phase lie in the operation's ranges, so a failed one is at an address of
them. -/
theorem FailedAccess.rangeFails (ha : FailedAccess op s a) (h : Running op s) : RangeFails op s a := by
  have hph := h.ph
  cases ha with
  | key _ hf => exact rangeFails_of_key hf
  | iv _ hf => exact rangeFails_of_iv hf
  | aad hd hz hf =>
    simp only [PhaseInv, hd] at hph
    obtain ⟨-, -, hg, -, hpos⟩ := hph
    have hle := hpos hz
    exact rangeFails_of_aad hg hz hf (by omega)
  | feed hd hf =>
    obtain ⟨hchk, hdi⟩ := (phaseInv_data hd).mp hph
    obtain ⟨-, htext, -, -⟩ := produced_le hchk hdi
    have hsrc := hdi.srcLe
    exact rangeFails_of_src hf (by unfold feedCount; omega)
  | drain hd hf =>
    obtain ⟨hchk, hdi⟩ := (phaseInv_data hd).mp hph
    exact rangeFails_of_dst hf (produced_le hchk hdi).1
  | tagOut hd hop hf =>
    subst hop
    simp only [PhaseInv, hd] at hph
    obtain ⟨-, -, hlen, -, -, hpos, -⟩ := hph
    exact rangeFails_of_dst hf (by simp [hpos, hlen, textLen, required])
  | tagIn hd hop hf =>
    subst hop
    simp only [PhaseInv, hd] at hph
    obtain ⟨hchk, -, hlen, -, -, -, -⟩ := hph
    obtain ⟨htext, -, htag, -⟩ := checkError_textLen hchk
    have hsrc := htag rfl
    rw [← hlen, if_pos rfl] at htext
    exact rangeFails_of_src hf (by omega)
  | zero hd hf =>
    simp only [PhaseInv, hd] at hph
    obtain ⟨-, -, -, hzero, hle, -⟩ := hph
    exact rangeFails_of_dst hf (by simpa [hzero] using hle)

/-- A step of a running operation that reports MemoryFault is the fault of a failed access. -/
theorem StepEnd.fault_of_err {t : State} (he : StepEnd op s t) (h : Running op s)
    (ht : t.status.err = .memoryFault) : ∃ a m, FailedAccess op s a ∧ t = memoryFault a m s := by
  cases he with
  | goesOn m e =>
    have hs : s.status.err = .memoryFault := ht
    rw [h.err_none] at hs
    cases hs
  | succeeds n m e => cases ht
  | earlyError c hc =>
    obtain rfl : c = .memoryFault := ht
    exact absurd hc (checkError_ne_memoryFault op s.desc)
  | lateError m hd => exact absurd ht (h.perr_ne_memoryFault hd)
  | faults a m ha => exact ⟨a, m, ha, rfl⟩

end

/-- Settles O42: the step's fault is a failed access, and the invariant puts every access in the ranges. -/
theorem memoryFaultNamesAFailedAccess : Obligations.MemoryFaultNamesAFailedAccess := by
  intro s t op hi hact hop hst hmf
  have hrun := hi.running_of_ofCode hact hop
  rw [engineStep_active s op hact hop] at hst
  obtain ⟨a, m, ha, rfl⟩ := (phaseStep_end hst).fault_of_err hrun hmf
  exact ⟨rfl, rfl, ha.rangeFails hrun⟩

end Sys2Proof.Machine
end

section
/-! The register window (O11, O12, O15, O16): the sixteen offsets of spec/10_state.md R20, the accesses that are not
defined (R21), and STATUS bit by bit (R23 to R26). -/

namespace Sys2Proof.Machine

/-! ## Accesses to the window -/

/-- The aligned 32-bit access at a register's offset is the register's (R20). -/
theorem windowAccess_offset (base : Nat) (r : Reg) : windowAccess base (base + r.offset) 4 = .register r := by
  have hoff : r.offset < 64 ∧ r.offset % 4 = 0 ∧ Reg.ofIndex (r.offset / 4) = some r := by
    cases r with
    | desc d => cases d <;> decide
    | _ => decide
  obtain ⟨hlt, hal, hidx⟩ := hoff
  unfold windowAccess
  rw [if_neg (by omega), Nat.add_sub_cancel_left, if_pos ⟨rfl, by omega, hal⟩, hidx]

/-- With an aligned window, an access that touches it and is no aligned 32-bit one is not defined (R21). -/
theorem windowAccess_undefined {base addr size : Nat} (hbase : base % 64 = 0) (hlo : base < addr + size)
    (hhi : addr < base + 64) (hbad : ¬ (size = 4 ∧ addr % 4 = 0)) :
    windowAccess base addr size = .undefined := by
  unfold windowAccess
  rw [if_neg (by omega), if_neg]
  rintro ⟨hsize, hle, hal⟩
  exact hbad ⟨hsize, by omega⟩

theorem busWrite_register {s : State} {addr size : Nat} {r : Reg}
    (h : windowAccess s.cfg.baseAddr addr size = .register r) (v : Word) :
    busWrite addr size v s = writeReg r v s := by
  simp only [busWrite, h]

theorem busRead_register {s : State} {addr size : Nat} {r : Reg}
    (h : windowAccess s.cfg.baseAddr addr size = .register r) :
    busRead addr size s = .next { s with rdata := readReg r s } := by
  simp only [busRead, h]

theorem busWrite_undefined {s : State} {addr size : Nat}
    (h : windowAccess s.cfg.baseAddr addr size = .undefined) (v : Word) :
    busWrite addr size v s = .refused .undefinedRegisterAccess := by
  simp only [busWrite, h]

theorem busRead_undefined {s : State} {addr size : Nat}
    (h : windowAccess s.cfg.baseAddr addr size = .undefined) :
    busRead addr size s = .refused .undefinedRegisterAccess := by
  simp only [busRead, h]

/-- BASE_ADDR is 64-byte aligned (R6). -/
theorem wf_base {c : Config} (h : c.wf = true) : c.baseAddr % 64 = 0 := by
  simp only [Config.wf, Config.baseWf, Bool.and_eq_true, decide_eq_true_eq] at h
  obtain ⟨⟨-, hbase⟩, -⟩ := h
  exact hbase

/-- Settles O11: each row of the map is its register's offset and value, and an access there is the register's. -/
theorem everyRegisterAtItsOffset : Obligations.EveryRegisterAtItsOffset := by
  refine fun s v => ⟨fun p hp => ?_, fun d => rfl⟩
  have hrow : p.2.1 = p.1.offset ∧ readReg p.1 s = p.2.2 := by
    revert p
    simp [Reg.offset, readReg, Desc.get, bitWord]
  have hacc := windowAccess_offset s.cfg.baseAddr p.1
  rw [← hrow.1] at hacc
  exact ⟨busWrite_register hacc v, busRead_register hacc, hrow.2⟩

/-- Settles O15: a read is the window's at the register's offset, and no register's value is an internal register's. -/
theorem readOnlyRegistersAndReads : Obligations.ReadOnlyRegistersAndReads := by
  refine fun s => ⟨fun v => ⟨rfl, rfl, rfl⟩,
    fun r => ⟨_, busRead_register (windowAccess_offset s.cfg.baseAddr r)⟩, fun r e => ?_⟩
  cases r <;> rfl

/-- Settles O16: in an aligned window such an access is not defined, and both bus operations refuse it. -/
theorem malformedRegisterAccessRefused : Obligations.MalformedRegisterAccessRefused := by
  intro s addr size v hwf hlo hhi hbad
  have hacc := windowAccess_undefined (wf_base hwf) hlo hhi hbad
  exact ⟨busWrite_undefined hacc v, busRead_undefined hacc⟩

/-! ## STATUS -/

theorem RunState.code_lt (r : RunState) : r.code < 4 := by
  cases r <;> decide

theorem ErrorCode.code_lt (c : ErrorCode) : c.code < 16 := by
  cases c <;> decide

/-- The word STATUS reads as is the sum of its fields: none of them overlaps another. -/
theorem Status.word_toNat (t : Status) :
    t.word.toNat = t.state.code + 16 * t.err.code + 256 * t.ign.toNat := by
  have hstate := t.state.code_lt
  have herr := t.err.code_lt
  have hign := t.ign.toNat_le
  rw [Status.word, BitVec.toNat_ofNat]
  omega

/-- A field of a word, as a number. -/
theorem extractLsb'_eq_div_mod (w : Word) (start len : Nat) :
    (w.extractLsb' start len).toNat = w.toNat / 2 ^ start % 2 ^ len := by
  rw [BitVec.extractLsb'_toNat, Nat.shiftRight_eq_div_pow]

theorem extractLsb'_eq_zero {w : Word} {start len : Nat} (h : w.toNat / 2 ^ start % 2 ^ len = 0) :
    w.extractLsb' start len = 0 :=
  BitVec.eq_of_toNat_eq (by rw [extractLsb'_eq_div_mod, h]; exact BitVec.toNat_zero.symm)

/-- Settles O12: each field is cut out of the sum of the fields. -/
theorem statusReadsAsItsFields : Obligations.StatusReadsAsItsFields := by
  intro s
  have hword : (readReg .status s).toNat = _ := s.status.word_toNat
  have hstate := s.status.state.code_lt
  have herr := s.status.err.code_lt
  have hign := s.status.ign.toNat_le
  refine ⟨?_, ?_, ?_, ?_, ?_⟩
  · have hcode : ((readReg .status s).extractLsb' 0 2).toNat = s.status.state.code := by
      rw [extractLsb'_eq_div_mod, hword]
      omega
    rw [hcode]
    cases s.status.state <;> rfl
  · exact extractLsb'_eq_zero (by rw [hword]; omega)
  · have hcode : ((readReg .status s).extractLsb' 4 4).toNat = s.status.err.code := by
      rw [extractLsb'_eq_div_mod, hword]
      omega
    rw [hcode]
    cases s.status.err <;> rfl
  · rw [BitVec.getLsbD, Nat.testBit_eq_decide_div_mod_eq, hword]
    cases s.status.ign <;> simp <;> omega
  · exact extractLsb'_eq_zero (by rw [hword]; omega)

end Sys2Proof.Machine
end

section
/-! What the engine's step does not see (O48): memory outside the running operation's ranges and the host's caches
(spec/20_memory.md R61, R73, R75, R77). A step reads and writes memory through `readRun` and `writeRun` alone, so a
change that these accesses do not notice can be made before the step or after it. -/

namespace Sys2Proof.Machine

/-! ## One byte elsewhere, before or after the engine's accesses -/

/-- Writes at two addresses can change places. -/
theorem Memory.setByte_comm {m : Memory} (h : Memory.wf m) {a a' : Addr} (ha : a ≠ a') (b b' : Byte) :
    (m.setByte a b).setByte a' b' = (m.setByte a' b').setByte a b := by
  have hwf := fun (x y : Addr) (c d : Byte) => Memory.setByte_wf _ y d (Memory.setByte_wf m x c h)
  refine Memory.ext_byteAt _ _ (hwf a a' b b') (hwf a' a b' b) fun x => ?_
  by_cases hx : x = a
  · subst hx
    rw [Memory.byteAt_setByte_other _ _ _ _ ha, Memory.byteAt_setByte_same _ _ _ h,
      Memory.byteAt_setByte_same _ _ _ (Memory.setByte_wf m _ _ h)]
  · rw [Memory.byteAt_setByte_other _ a x b hx]
    by_cases hx' : x = a'
    · subst hx'
      rw [Memory.byteAt_setByte_same _ _ _ h, Memory.byteAt_setByte_same _ _ _ (Memory.setByte_wf m _ _ h)]
    · simp only [Memory.byteAt_setByte_other _ _ _ _ hx', Memory.byteAt_setByte_other _ _ _ _ hx]

/-- An address outside a range is neither its first nor one of the others. -/
theorem inRange_succ_false {first a : Addr} {n : Nat} (h : inRange first (n + 1) a = false) :
    a ≠ first ∧ inRange (first + 1) n a = false := by
  constructor
  · rintro rfl
    simp [inRange] at h
  · rw [Bool.eq_false_iff] at h ⊢
    intro hin
    obtain ⟨i, hi, rfl⟩ := (inRange_iff _ _ _).mp hin
    exact h ((inRange_iff _ _ _).mpr ⟨i + 1, by omega, ofNat_succ_add first i⟩)

/-- A read run does not see a byte outside its range. -/
theorem readRun_setByte_outside (c : Config) (m : Memory) {first a : Addr} {n : Nat} (b : Byte)
    (h : inRange first n a = false) : readRun c (m.setByte a b) first n = readRun c m first n := by
  induction n generalizing first with
  | zero => rfl
  | succ n ih =>
    obtain ⟨hne, hrest⟩ := inRange_succ_false h
    simp only [readRun, ih hrest, Memory.byteAt_setByte_other m a first b hne.symm]

/-- A write run, whole or stopped, and a byte outside its range can change places. -/
theorem writeRun_setByte_outside (c : Config) {m : Memory} (hwf : Memory.wf m) {first a : Addr} {bs : List Byte}
    (b : Byte) (h : inRange first bs.length a = false) :
    writeRun c (m.setByte a b) first bs =
      ((writeRun c m first bs).1.setByte a b, (writeRun c m first bs).2) := by
  induction bs generalizing m first with
  | nil => rfl
  | cons b' bs ih =>
    obtain ⟨hne, hrest⟩ := inRange_succ_false h
    simp only [writeRun]
    split
    · rw [Memory.setByte_comm hwf hne, ih (Memory.setByte_wf m first b' hwf) hrest]
    · rfl

/-! ## The accesses of a step -/

/-- The reads the step of the current phase can make: R186, R190, R216, R217 and R225. -/
inductive StepReads (op : CipherOp) (s : State) : Addr → Nat → Prop
  | key (hph : s.eng.ph = .loadKey) : StepReads op s s.desc.keyAddr 16
  | iv (hph : s.eng.ph = .loadIv) : StepReads op s s.desc.ivAddr (ivBytes op)
  | aad (hph : s.eng.ph = .aad) (hz : s.eng.aadz = false) :
      StepReads op s (s.desc.aadAddr + s.eng.aadPos) (min 16 (s.desc.aadLen.toNat - s.eng.aadPos.toNat))
  | feed (hph : s.eng.ph = .data) : StepReads op s (s.desc.srcAddr + s.eng.srcPos) (feedCount s)
  | tag (hph : s.eng.ph = .tag) (hop : op = .decGcm128) : StepReads op s (s.desc.srcAddr + s.eng.tLen) 16

/-- The writes the step of the current phase can make: R189, R224 and R229. -/
inductive StepWrites (op : CipherOp) (s : State) : Addr → List Byte → Prop
  | drain (hph : s.eng.ph = .data) : StepWrites op s (s.desc.dstAddr + s.eng.dstPos) s.eng.outq
  | tag (hph : s.eng.ph = .tag) (hop : op = .encGcm128) :
      StepWrites op s (s.desc.dstAddr + s.eng.dstPos) (blockBytes (gcmTag s.eng))
  | zero (hph : s.eng.ph = .zero) :
      StepWrites op s (s.desc.dstAddr + s.eng.zeroPos)
        (List.replicate (s.eng.dstPos.toNat - s.eng.zeroPos.toNat) 0)

/-- In a legal state every address a step reads is in an input range of the operation (R61). -/
theorem StepReads.inInputRange {op : CipherOp} {s : State} {first a : Addr} {n : Nat}
    (hr : StepReads op s first n) (h : Running op s) (ha : inRange first n a = true) :
    inInputRange op s.eng.aadz s.desc a = true := by
  have hph := h.ph
  have hsrc {p : Word} {k : Nat} (hin : inRange (s.desc.srcAddr + p) k a = true)
      (hle : p.toNat + k ≤ s.desc.srcLen.toNat) : Machine.inInputRange op s.eng.aadz s.desc a = true := by
    simp [Machine.inInputRange, inRange_of_part hin hle]
  cases hr with
  | key => simp [Machine.inInputRange, ha]
  | iv => simp [Machine.inInputRange, ha]
  | aad hd hz =>
    simp only [PhaseInv, hd] at hph
    obtain ⟨-, -, hg, -, hpos⟩ := hph
    have hle := hpos hz
    have hin : inRange s.desc.aadAddr s.desc.aadLen.toNat a = true := inRange_of_part ha (by omega)
    simp [Machine.inInputRange, hg, hz, hin]
  | feed hd =>
    obtain ⟨hchk, hdi⟩ := (phaseInv_data hd).mp hph
    obtain ⟨-, htext, -, -⟩ := produced_le hchk hdi
    have hpos := hdi.srcLe
    exact hsrc ha (by unfold feedCount; omega)
  | tag hd hop =>
    subst hop
    simp only [PhaseInv, hd] at hph
    obtain ⟨hchk, -, hlen, -, -, -, -⟩ := hph
    obtain ⟨htext, -, htag, -⟩ := checkError_textLen hchk
    have htag := htag rfl
    rw [← hlen, if_pos rfl] at htext
    exact hsrc ha (by omega)

/-- In a legal state every address a step writes is in the operation's destination range (R61). -/
theorem StepWrites.inDestRange {op : CipherOp} {s : State} {first a : Addr} {bs : List Byte}
    (hw : StepWrites op s first bs) (h : Running op s) (ha : inRange first bs.length a = true) :
    inDestRange op s.desc a = true := by
  have hph := h.ph
  cases hw with
  | drain hd =>
    obtain ⟨hchk, hdi⟩ := (phaseInv_data hd).mp hph
    exact inRange_of_part ha (produced_le hchk hdi).1
  | tag hd hop =>
    subst hop
    simp only [PhaseInv, hd] at hph
    obtain ⟨-, -, hlen, -, -, hpos, -⟩ := hph
    exact inRange_of_part ha (by simp [hpos, hlen, textLen, required])
  | zero hd =>
    simp only [PhaseInv, hd] at hph
    obtain ⟨-, -, -, hzero, hle, -⟩ := hph
    exact inRange_of_part ha (by simpa [hzero] using hle)

/-! ## Changes the engine does not see -/

/-- A change of what the engine shares with other agents, and of what the host's caches hold: memory, the caches and
DMA_COHERENT. -/
structure Elsewhere where
  mem : Memory → Memory
  cache : HostCache → HostCache
  coherent : Bool → Bool

/-- The state after the change. -/
def Elsewhere.apply (x : Elsewhere) (s : State) : State :=
  { s with
    mem := x.mem s.mem
    hostCache := x.cache s.hostCache
    cfg := { s.cfg with dmaCoherent := x.coherent s.cfg.dmaCoherent } }

/-- The accesses of the current step read and store the same with the change made before them as after them. -/
structure Elsewhere.Unseen (x : Elsewhere) (op : CipherOp) (s : State) : Prop where
  reads : ∀ {first n}, StepReads op s first n →
    readRun s.cfg (x.mem s.mem) first n = readRun s.cfg s.mem first n
  writes : ∀ {first bs}, StepWrites op s first bs →
    ∃ m r, writeRun s.cfg s.mem first bs = (m, r) ∧ writeRun s.cfg (x.mem s.mem) first bs = (x.mem m, r)

/-- `f` on the next state of an outcome. -/
def onNext (f : State → State) : Host.Outcome State Fault Refusal → Host.Outcome State Fault Refusal
  | .next s => .next (f s)
  | .fault r => .fault r
  | .refused r => .refused r

section
variable (x : Elsewhere) {op : CipherOp} {s : State}

@[simp] theorem Elsewhere.apply_eng : (x.apply s).eng = s.eng := rfl

@[simp] theorem Elsewhere.apply_desc : (x.apply s).desc = s.desc := rfl

@[simp] theorem Elsewhere.apply_mem : (x.apply s).mem = x.mem s.mem := rfl

@[simp] theorem Elsewhere.apply_ctrWidth : (x.apply s).cfg.ctrWidth = s.cfg.ctrWidth := rfl

@[simp] theorem Elsewhere.apply_freeOut : freeOut (x.apply s) = freeOut s := rfl

@[simp] theorem Elsewhere.apply_overflow : overflow op (x.apply s) = overflow op s := rfl

@[simp] theorem Elsewhere.apply_feedCount : feedCount (x.apply s) = feedCount s := rfl

@[simp] theorem Elsewhere.apply_readRun (m : Memory) (a : Addr) (n : Nat) :
    readRun (x.apply s).cfg m a n = readRun s.cfg m a n := readRun_coherent ..

@[simp] theorem Elsewhere.apply_writeRun (m : Memory) (a : Addr) (bs : List Byte) :
    writeRun (x.apply s).cfg m a bs = writeRun s.cfg m a bs := writeRun_coherent ..

theorem checkStep_elsewhere : checkStep op (x.apply s) = x.apply (checkStep op s) := by
  simp only [checkStep, Elsewhere.apply_desc]
  split <;> rfl

theorem initStep_elsewhere : initStep op (x.apply s) = x.apply (initStep op s) := rfl

theorem endOfData_elsewhere : endOfData op (x.apply s) = x.apply (endOfData op s) := by
  unfold endOfData
  split <;> rfl

theorem xformStep_elsewhere : xformStep op (x.apply s) = onNext x.apply (xformStep op s) := by
  simp only [xformStep, Elsewhere.apply_eng, Elsewhere.apply_ctrWidth]
  split <;> rfl

variable {x} (h : x.Unseen op s)
include h

theorem loadKeyStep_elsewhere (hd : s.eng.ph = .loadKey) :
    loadKeyStep (x.apply s) = x.apply (loadKeyStep s) := by
  simp only [loadKeyStep, Elsewhere.apply_readRun, Elsewhere.apply_mem, Elsewhere.apply_desc, h.reads (.key hd)]
  split <;> rfl

theorem loadIvStep_elsewhere (hd : s.eng.ph = .loadIv) :
    loadIvStep op (x.apply s) = x.apply (loadIvStep op s) := by
  simp only [loadIvStep, Elsewhere.apply_readRun, Elsewhere.apply_mem, Elsewhere.apply_desc, h.reads (.iv hd)]
  split <;> rfl

theorem gcmAad_elsewhere (hd : s.eng.ph = .aad) : gcmAad (x.apply s) = x.apply (gcmAad s) := by
  simp only [gcmAad, Elsewhere.apply_readRun, Elsewhere.apply_mem, Elsewhere.apply_desc, Elsewhere.apply_eng]
  split
  case isTrue => rfl
  case isFalse hz =>
    rw [h.reads (.aad hd (by simpa using hz))]
    split
    · split <;> rfl
    · rfl

theorem feedStep_elsewhere (hd : s.eng.ph = .data) : feedStep (x.apply s) = x.apply (feedStep s) := by
  simp only [feedStep, Elsewhere.apply_readRun, Elsewhere.apply_mem, Elsewhere.apply_desc, Elsewhere.apply_eng,
    Elsewhere.apply_feedCount, h.reads (.feed hd)]
  split <;> rfl

theorem drainStep_elsewhere (hd : s.eng.ph = .data) : drainStep (x.apply s) = x.apply (drainStep s) := by
  obtain ⟨m, r, hs, hx⟩ := h.writes (.drain hd)
  simp only [drainStep, Elsewhere.apply_writeRun, Elsewhere.apply_mem, Elsewhere.apply_desc, Elsewhere.apply_eng,
    hs, hx]
  cases r <;> rfl

theorem dataStep_elsewhere (hd : s.eng.ph = .data) :
    dataStep op (x.apply s) = onNext x.apply (dataStep op s) := by
  simp only [dataStep, Elsewhere.apply_eng, Elsewhere.apply_freeOut, Elsewhere.apply_overflow,
    xformStep_elsewhere, drainStep_elsewhere h hd, feedStep_elsewhere h hd, endOfData_elsewhere,
    apply_ite (onNext x.apply)]
  rfl

theorem encGcm128Tag_elsewhere (hd : s.eng.ph = .tag) (hop : op = .encGcm128) :
    encGcm128Tag (x.apply s) = x.apply (encGcm128Tag s) := by
  obtain ⟨m, r, hs, hx⟩ := h.writes (.tag hd hop)
  simp only [encGcm128Tag, Elsewhere.apply_writeRun, Elsewhere.apply_mem, Elsewhere.apply_desc,
    Elsewhere.apply_eng, hs, hx]
  cases r <;> rfl

theorem decGcm128Tag_elsewhere (hd : s.eng.ph = .tag) (hop : op = .decGcm128) :
    decGcm128Tag (x.apply s) = x.apply (decGcm128Tag s) := by
  simp only [decGcm128Tag, Elsewhere.apply_readRun, Elsewhere.apply_mem, Elsewhere.apply_desc,
    Elsewhere.apply_eng, h.reads (.tag hd hop)]
  split
  · rw [apply_ite x.apply]
    rfl
  · rfl

theorem tagStep_elsewhere (hd : s.eng.ph = .tag) : tagStep op (x.apply s) = onNext x.apply (tagStep op s) := by
  cases op
  case encGcm128 => exact congrArg _ (encGcm128Tag_elsewhere h hd rfl)
  case decGcm128 => exact congrArg _ (decGcm128Tag_elsewhere h hd rfl)
  all_goals rfl

theorem zeroStep_elsewhere (hd : s.eng.ph = .zero) : zeroStep (x.apply s) = x.apply (zeroStep s) := by
  obtain ⟨m, r, hs, hx⟩ := h.writes (.zero hd)
  simp only [zeroStep, Elsewhere.apply_writeRun, Elsewhere.apply_mem, Elsewhere.apply_desc, Elsewhere.apply_eng,
    hs, hx]
  cases r <;> rfl

/-- A change the accesses of a phase's step do not see can be made before the step or after it. -/
theorem phaseStep_elsewhere : phaseStep op (x.apply s) = onNext x.apply (phaseStep op s) := by
  simp only [phaseStep, Elsewhere.apply_eng]
  split
  case h_1 => rfl
  case h_2 => exact congrArg _ (checkStep_elsewhere x)
  case h_3 hd => exact congrArg _ (loadKeyStep_elsewhere h hd)
  case h_4 hd => exact congrArg _ (loadIvStep_elsewhere h hd)
  case h_5 => exact congrArg _ (initStep_elsewhere x)
  case h_6 hd =>
    unfold aadStep
    rw [gcmAad_elsewhere h hd]
    split <;> rfl
  case h_7 hd => exact dataStep_elsewhere h hd
  case h_8 hd => exact tagStep_elsewhere h hd
  case h_9 hd => exact congrArg _ (zeroStep_elsewhere h hd)

end

/-- The same for the engine's step, whatever operation `S.op` names. -/
theorem engineStep_elsewhere {x : Elsewhere} {s t : State}
    (h : ∀ op, CipherOp.ofCode s.eng.op = some op → x.Unseen op s) (ht : engineStep s = .next t) :
    engineStep (x.apply s) = .next (x.apply t) := by
  rcases engineStep_cases ht with ⟨hidle, rfl⟩ | ⟨op, hact, hop, hs⟩
  · exact engineStep_idle _ hidle
  · rw [engineStep_active (x.apply s) op hact hop, phaseStep_elsewhere (h op hop), hs]
    rfl

/-- Another agent writes byte `b` at address `a` of memory. -/
def Elsewhere.write (a : Addr) (b : Byte) : Elsewhere :=
  { mem := fun m => m.setByte a b, cache := id, coherent := id }

/-- The host's caches hold `c`, and whether they are coherent is `k`. -/
def Elsewhere.caches (c : HostCache) (k : Bool) : Elsewhere :=
  { mem := id, cache := fun _ => c, coherent := fun _ => k }

/-- In a legal state the accesses of a step do not see a byte outside the operation's ranges (R61, R73). -/
theorem unseen_write {op : CipherOp} {s : State} {a : Addr} (b : Byte) (h : Running op s)
    (hin : inInputRange op s.eng.aadz s.desc a = false) (hout : inDestRange op s.desc a = false) :
    (Elsewhere.write a b).Unseen op s where
  reads hr := readRun_setByte_outside _ _ b <| by
    by_contra hc
    simp [hr.inInputRange h (by simpa using hc)] at hin
  writes hw := ⟨_, _, rfl, writeRun_setByte_outside _ h.inv.mem b <| by
    by_contra hc
    simp [hw.inDestRange h (by simpa using hc)] at hout⟩

/-- The engine's accesses meet no cache of the host's (R75). -/
theorem unseen_caches (c : HostCache) (k : Bool) (op : CipherOp) (s : State) :
    (Elsewhere.caches c k).Unseen op s := ⟨fun _ => rfl, fun _ => ⟨_, _, rfl, rfl⟩⟩

/-- Settles O48: both are changes that the step's accesses do not see, the first because the accesses of a running
operation lie in its ranges, the second because no access asks the caches. -/
theorem foreignWritesDoNotMatter : Obligations.ForeignWritesDoNotMatter := by
  refine ⟨fun s t op a b hi hact hop hin hout ht => ?_, fun s t c k ht => ?_⟩
  · refine engineStep_elsewhere (x := .write a b) (fun op' hop' => ?_) ht
    obtain rfl : op = op' := Option.some.inj (hop.symm.trans hop')
    exact unseen_write b (hi.running_of_ofCode hact hop) hin hout
  · exact engineStep_elsewhere (x := .caches c k) (fun op _ => unseen_caches c k op s) ht

end Sys2Proof.Machine
end

section
/-! System memory and its ranges: byte strings across the wrap (O35), the overlaps R68 allows (O47), and the platform
predicate as a list of denied ranges (O50) (spec/20_memory.md R60 to R68). -/

namespace Sys2Proof.Machine

/-- Settles O35: an address is inside the stored range at one offset, or outside it. -/
theorem memoryStoresAndLoads : Obligations.MemoryStoresAndLoads := by
  intro m a bs hwf hlen
  have hinside (i : Nat) (hi : i < bs.length) : (m.setBytes a bs).byteAt (a + BitVec.ofNat 32 i) = bs[i] :=
    Memory.byteAt_setBytes_inside m a bs i hwf hi hlen
  refine ⟨Memory.setBytes_wf m a bs hwf, ?_, hinside, fun a' ha => ?_,
    fun m' hwf' hread => Memory.ext_byteAt m' m hwf' hwf hread⟩
  · refine List.ext_getElem (Memory.bytesAt_length ..) fun i _ hi => ?_
    rw [Memory.bytesAt_getElem, hinside i hi]
  · refine Memory.byteAt_setBytes_outside m a a' bs fun i hi hc => ?_
    simp [(inRange_iff a a' bs.length).mpr ⟨i, hi, hc⟩] at ha

/-! ## Overlaps -/

/-- With no source byte in the destination no destination byte is a source byte at all (R68). -/
theorem overlapAllowed_of_disjoint {op : CipherOp} {d : Desc}
    (h : ∀ a : Addr, inRange d.srcAddr d.srcLen.toNat a = true → inDestRange op d a = false) :
    overlapAllowed op d := by
  intro i j hi hj heq
  have hdst : inDestRange op d (d.srcAddr + BitVec.ofNat 32 i) = true :=
    (inRange_iff _ _ _).mpr ⟨j, hj, heq.symm⟩
  simp [h _ ((inRange_iff _ _ _).mpr ⟨i, hi, rfl⟩)] at hdst

/-- An offset that does not wrap is added as a number. -/
theorem toNat_add_ofNat_of_lt {a : Addr} {i : Nat} (h : a.toNat + i < 2 ^ 32) :
    (a + BitVec.ofNat 32 i).toNat = a.toNat + i := by
  simp only [BitVec.toNat_add, BitVec.toNat_ofNat]
  omega

/-- Without a wrap, a byte of a destination at or below the source has at least the offset of the source byte it
overwrites (R68). -/
theorem overlapAllowed_of_below {op : CipherOp} {d : Desc} (hle : d.dstAddr.toNat ≤ d.srcAddr.toNat)
    (hsrc : d.srcAddr.toNat + d.srcLen.toNat ≤ 2 ^ 32)
    (hdst : d.dstAddr.toNat + required op d.srcLen.toNat ≤ 2 ^ 32) : overlapAllowed op d := by
  intro i j hi hj heq
  have hnum := congrArg BitVec.toNat heq
  rw [toNat_add_ofNat_of_lt (by omega), toNat_add_ofNat_of_lt (by omega)] at hnum
  omega

/-- Settles O47: the two cases of R68. -/
theorem allowedOverlaps : Obligations.AllowedOverlaps :=
  fun _ _ => ⟨overlapAllowed_of_disjoint, overlapAllowed_of_below⟩

/-! ## The platform predicate -/

/-- The one address `a`, with the kinds of access the predicate `ok` fails there. -/
def deniedByte (ok : Addr → AccessKind → Bool) (a : Addr) : DeniedRange :=
  { first := a, last := a, denyRead := !ok a .read, denyWrite := !ok a .write }

theorem deniedByte_covers (ok : Addr → AccessKind → Bool) (a a' : Addr) (k : AccessKind) :
    DeniedRange.covers (deniedByte ok a') a k = true ↔ a = a' ∧ ok a k = false := by
  have hcovers : DeniedRange.covers (deniedByte ok a') a k =
      (decide (a'.toNat ≤ a.toNat) && decide (a.toNat ≤ a'.toNat) && !ok a' k) := by cases k <;> rfl
  have haddr : a'.toNat ≤ a.toNat ∧ a.toNat ≤ a'.toNat ↔ a = a' := by
    rw [← BitVec.toNat_inj]
    omega
  rw [hcovers, Bool.and_eq_true, Bool.and_eq_true, decide_eq_true_eq, decide_eq_true_eq, haddr, Bool.not_eq_true']
  exact and_congr_right fun h => by rw [h]

/-- Every address denied what the predicate fails there, one range for each. -/
def deniedBytes (ok : Addr → AccessKind → Bool) : List DeniedRange :=
  (List.range (2 ^ 32)).map fun n => deniedByte ok (BitVec.ofNat 32 n)

theorem deniedBytes_covers (ok : Addr → AccessKind → Bool) (a : Addr) (k : AccessKind) :
    (∃ r ∈ deniedBytes ok, DeniedRange.covers r a k = true) ↔ ok a k = false := by
  constructor
  · rintro ⟨r, hr, hc⟩
    obtain ⟨n, -, rfl⟩ := List.mem_map.mp hr
    exact ((deniedByte_covers ok a _ k).mp hc).2
  · intro h
    refine ⟨deniedByte ok a, List.mem_map.mpr ⟨a.toNat, List.mem_range.mpr a.isLt, ?_⟩,
      (deniedByte_covers ok a a k).mpr ⟨rfl, h⟩⟩
    rw [BitVec.ofNat_toNat, BitVec.setWidth_eq]

theorem memOk_eq_false (c : Config) (a : Addr) (k : AccessKind) :
    memOk c a k = false ↔ ∃ r ∈ c.denied, DeniedRange.covers r a k = true := by
  simp [memOk]

/-- Settles O50: the list holds every address by itself. -/
theorem everyPlatformIsADeniedList : Obligations.EveryPlatformIsADeniedList := by
  intro ok c
  refine ⟨deniedBytes ok, fun a k => Bool.eq_iff_iff.mpr ?_⟩
  have hfails : memOk { c with denied := deniedBytes ok } a k = false ↔ ok a k = false := by
    rw [memOk_eq_false, deniedBytes_covers]
  simpa using not_congr hfails

end Sys2Proof.Machine
end

section
/-! Accesses of the host and of other bus masters to system memory and to the host's caches (O17): what R73 refuses
while an operation runs, and what every other access does (spec/20_memory.md R71, R73, R75, R77; log entries 6, 15, 16,
23 and 24). -/

namespace Sys2Proof.Machine

/-! ## What R73 forbids -/

section
variable {s : State} {op : CipherOp} (a : Addr) (hop : s.status.state = .busy → CipherOp.ofCode s.eng.op = some op)
include hop

/-- A write is allowed unless the running operation has the address in one of its ranges (R61, R73). -/
theorem writeForbidden_eq_false :
    writeForbidden s a = false ↔ (s.status.state = .busy →
      inInputRange op s.eng.aadz s.desc a = false ∧ inDestRange op s.desc a = false) := by
  by_cases hb : s.status.state = .busy
  · simp [writeForbidden, State.busy, hb, hop hb]
  · simp [writeForbidden, State.busy, hb]

/-- A read is allowed unless the running operation has the address in its destination (R61, R73). -/
theorem readForbidden_eq_false :
    readForbidden s a = false ↔ (s.status.state = .busy → inDestRange op s.desc a = false) := by
  by_cases hb : s.status.state = .busy
  · simp [readForbidden, State.busy, hb, hop hb]
  · simp [readForbidden, State.busy, hb]

end

/-! ## Each access, case by case -/

section
variable {s : State} {a : Addr}

theorem storeByte_forbidden (b : Byte) (h : writeForbidden s a = true) :
    storeByte a b s = .refused .busyRangeAccess := if_pos h

theorem storeByte_allowed (b : Byte) (h : writeForbidden s a = false) :
    storeByte a b s = .next { s with mem := s.mem.setByte a b } := if_neg (by simp [h])

theorem hostMemWrite_coherent (b : Byte) (hc : s.cfg.dmaCoherent = true) :
    hostMemWrite a b s = storeByte a b s := if_pos hc

theorem hostMemWrite_cached (b : Byte) (hc : s.cfg.dmaCoherent = false) (h : writeForbidden s a = false) :
    hostMemWrite a b s =
      .next { s with hostCache := s.hostCache.put { addr := a, value := b, dirty := true } } := by
  simp [hostMemWrite, hc, h]

theorem hostMemWrite_forbidden (b : Byte) (h : writeForbidden s a = true) :
    hostMemWrite a b s = .refused .busyRangeAccess := by
  simp [hostMemWrite, storeByte, h]

theorem cacheFetch_coherent (hc : s.cfg.dmaCoherent = true) : cacheFetch a s = .next s := if_pos hc

theorem cacheFetch_held {x : CacheByte} (hx : s.hostCache.held a = some x) : cacheFetch a s = .next s := by
  simp [cacheFetch, hx]

theorem cacheFetch_forbidden (hc : s.cfg.dmaCoherent = false) (hx : s.hostCache.held a = none)
    (h : readForbidden s a = true) : cacheFetch a s = .refused .busyRangeAccess := by
  simp [cacheFetch, hc, hx, h]

theorem cacheFetch_allowed (hc : s.cfg.dmaCoherent = false) (hx : s.hostCache.held a = none)
    (h : readForbidden s a = false) :
    cacheFetch a s =
      .next { s with hostCache := s.hostCache.put { addr := a, value := s.mem.byteAt a, dirty := false } } := by
  simp [cacheFetch, hc, hx, h]

theorem hostByte_coherent (hc : s.cfg.dmaCoherent = true) : hostByte a s = s.mem.byteAt a := if_pos hc

theorem hostByte_held {x : CacheByte} (hc : s.cfg.dmaCoherent = false) (hx : s.hostCache.held a = some x) :
    hostByte a s = x.value := by
  simp [hostByte, hc, hx]

theorem hostByte_not_held (hx : s.hostCache.held a = none) : hostByte a s = s.mem.byteAt a := by
  simp [hostByte, hx]

theorem hostMemRead_forbidden (h : readForbidden s a = true) :
    hostMemRead a s = .refused .busyRangeAccess := if_pos h

/-- A read that is allowed is a fetch after which the host has its byte. -/
theorem hostMemRead_allowed {t : State} (h : readForbidden s a = false) (hf : cacheFetch a s = .next t) :
    hostMemRead a s = .next { t with rdata := (hostByte a s).setWidth 32 } := by
  simp [hostMemRead, h, hf]

theorem hostMemRead_coherent (hc : s.cfg.dmaCoherent = true) (h : readForbidden s a = false) :
    hostMemRead a s = .next { s with rdata := (s.mem.byteAt a).setWidth 32 } := by
  rw [hostMemRead_allowed h (cacheFetch_coherent hc), hostByte_coherent hc]

theorem hostMemRead_held {x : CacheByte} (hc : s.cfg.dmaCoherent = false) (hx : s.hostCache.held a = some x)
    (h : readForbidden s a = false) : hostMemRead a s = .next { s with rdata := x.value.setWidth 32 } := by
  rw [hostMemRead_allowed h (cacheFetch_held hx), hostByte_held hc hx]

theorem hostMemRead_not_held (hc : s.cfg.dmaCoherent = false) (hx : s.hostCache.held a = none)
    (h : readForbidden s a = false) :
    hostMemRead a s =
      .next { s with
        hostCache := s.hostCache.put { addr := a, value := s.mem.byteAt a, dirty := false }
        rdata := (s.mem.byteAt a).setWidth 32 } := by
  rw [hostMemRead_allowed h (cacheFetch_allowed hc hx h), hostByte_not_held hx]

theorem cacheClean_coherent (hc : s.cfg.dmaCoherent = true) : cacheClean a s = .next s := if_pos hc

theorem cacheClean_dirty {x : CacheByte} (hc : s.cfg.dmaCoherent = false) (hx : s.hostCache.held a = some x)
    (hd : x.dirty = true) :
    cacheClean a s = storeByte a x.value { s with hostCache := s.hostCache.put { x with dirty := false } } := by
  simp [cacheClean, hc, hx, hd]

/-- A dirty byte that may not be written is not cleaned. -/
theorem cacheClean_forbidden {x : CacheByte} (hc : s.cfg.dmaCoherent = false) (hx : s.hostCache.held a = some x)
    (hd : x.dirty = true) (h : writeForbidden s a = true) : cacheClean a s = .refused .busyRangeAccess := by
  rw [cacheClean_dirty hc hx hd]
  exact storeByte_forbidden (s := { s with hostCache := _ }) x.value h

/-- A dirty byte that may be written reaches memory and stays in the caches (R75). -/
theorem cacheClean_allowed {x : CacheByte} (hc : s.cfg.dmaCoherent = false) (hx : s.hostCache.held a = some x)
    (hd : x.dirty = true) (h : writeForbidden s a = false) :
    cacheClean a s =
      .next { s with
        mem := s.mem.setByte a x.value
        hostCache := s.hostCache.put { addr := a, value := x.value, dirty := false } } := by
  obtain rfl := HostCache.held_addr _ _ _ hx
  rw [cacheClean_dirty hc hx hd]
  exact storeByte_allowed (s := { s with hostCache := _ }) x.value h

theorem cacheClean_not_dirty (h : ∀ x, s.hostCache.held a = some x → x.dirty = false) :
    cacheClean a s = .next s := by
  unfold cacheClean
  split
  · rfl
  · split
    case h_1 => rfl
    case h_2 x hx => simp [h x hx]

theorem cacheInvalidate_coherent (hc : s.cfg.dmaCoherent = true) : cacheInvalidate a s = s := if_pos hc

theorem cacheInvalidate_cached (hc : s.cfg.dmaCoherent = false) :
    cacheInvalidate a s = { s with hostCache := s.hostCache.without a } := if_neg (by simp [hc])

theorem masterWrite_present {m : Master} (b : Byte) (hm : m.present s.cfg = true) :
    masterWrite m a b s = storeByte a b s := if_pos hm

theorem masterWrite_absent {m : Master} (b : Byte) (hm : m.present s.cfg = false) :
    masterWrite m a b s = .next s := if_neg (by simp [hm])

theorem masterRead_forbidden {m : Master} (hm : m.present s.cfg = true) (h : readForbidden s a = true) :
    masterRead m a s = .refused .busyRangeAccess := if_pos (by simp [hm, h])

theorem masterRead_allowed {m : Master} (h : readForbidden s a = false) : masterRead m a s = .next s :=
  if_neg (by simp [h])

theorem masterRead_absent {m : Master} (hm : m.present s.cfg = false) : masterRead m a s = .next s :=
  if_neg (by simp [hm])

end

/-! ## The accesses of a running machine -/

/-- A next state in which a byte has been put into the caches, the rest of the state being that of `u`. -/
theorem exists_next_put {o : Host.Outcome State Fault Refusal} {u : State} {c : HostCache} {x : CacheByte}
    (h : o = .next { u with hostCache := c.put x }) :
    ∃ t : State, o = .next t ∧ t = { u with hostCache := t.hostCache } ∧ t.hostCache.held x.addr = some x ∧
      ∀ a', a' ≠ x.addr → t.hostCache.held a' = c.held a' :=
  ⟨_, h, rfl, HostCache.held_put_same c x, fun a' ha => HostCache.held_put_other c x a' ha⟩

/-- A byte the host writes is dirty in its caches, and in memory once it is cleaned (R71, R75). -/
theorem hostMemWrite_then_clean {s : State} {a : Addr} (b : Byte) (hc : s.cfg.dmaCoherent = false)
    (h : writeForbidden s a = false) :
    ∃ t : State, hostMemWrite a b s = .next t ∧ t = { s with hostCache := t.hostCache } ∧
      t.hostCache.held a = some { addr := a, value := b, dirty := true } ∧
      (∀ a', a' ≠ a → t.hostCache.held a' = s.hostCache.held a') ∧
      ∃ u : State, cacheClean a t = .next u ∧
        u = { t with mem := t.mem.setByte a b, hostCache := u.hostCache } ∧
        u.hostCache.held a = some { addr := a, value := b, dirty := false } := by
  obtain ⟨t, hw, ht, hheld, hother⟩ := exists_next_put (hostMemWrite_cached b hc h)
  have hct : t.cfg.dmaCoherent = false := by rw [ht]; exact hc
  have hft : writeForbidden t a = false := by rw [ht]; exact h
  obtain ⟨u, hu, hut, huheld, -⟩ := exists_next_put (u := { t with mem := t.mem.setByte a b })
    (cacheClean_allowed hct hheld rfl hft)
  exact ⟨t, hw, ht, hheld, hother, u, hu, hut, huheld⟩

/-- Invalidating drops the byte alone (R75). -/
theorem cacheInvalidate_drops {s : State} (a : Addr) (hc : s.cfg.dmaCoherent = false) :
    cacheInvalidate a s = { s with hostCache := (cacheInvalidate a s).hostCache } ∧
      (cacheInvalidate a s).hostCache.held a = none ∧
      ∀ a', a' ≠ a → (cacheInvalidate a s).hostCache.held a' = s.hostCache.held a' := by
  rw [cacheInvalidate_cached hc]
  exact ⟨rfl, HostCache.held_without_same _ a, fun a' ha => HostCache.held_without_other _ a a' ha⟩

/-- Settles O17: whether R73 forbids the access, and each access in its cases. -/
theorem hostKeepsOffBusyRanges : Obligations.HostKeepsOffBusyRanges := by
  intro s a b m op mayWrite mayRead hop hmayWrite hmayRead
  have hwrite : mayWrite ↔ writeForbidden s a = false := hmayWrite.trans (writeForbidden_eq_false a hop).symm
  have hread : mayRead ↔ readForbidden s a = false := hmayRead.trans (readForbidden_eq_false a hop).symm
  have hnoWrite : ¬ mayWrite ↔ writeForbidden s a = true := by simp [hwrite]
  have hnoRead : ¬ mayRead ↔ readForbidden s a = true := by simp [hread]
  rw [hnoWrite, hnoRead, hwrite, hread]
  refine ⟨fun h => ⟨hostMemWrite_forbidden b h, fun hm => ?_⟩,
    fun h => ⟨hostMemRead_forbidden h, fun hm => masterRead_forbidden hm h⟩,
    fun hm => ⟨fun h => ?_, masterRead_allowed⟩, fun hm => ⟨masterWrite_absent b hm, masterRead_absent hm⟩,
    fun hc => ⟨fun h => ?_, hostMemRead_coherent hc, cacheFetch_coherent hc, cacheClean_coherent hc, ?_⟩,
    fun hc => ⟨hostMemWrite_then_clean b hc, fun h => ⟨fun x hx => hostMemRead_held hc hx h, fun hx => ?_⟩,
      fun x hx => cacheFetch_held hx,
      fun hx => ⟨cacheFetch_forbidden hc hx, fun h => exists_next_put (cacheFetch_allowed hc hx h)⟩,
      fun x hx hd => ⟨cacheClean_forbidden hc hx hd, fun h => ?_⟩,
      ⟨_, rfl, cacheInvalidate_drops a hc⟩, cacheClean_not_dirty⟩⟩
  · exact (masterWrite_present b hm).trans (storeByte_forbidden b h)
  · exact (masterWrite_present b hm).trans (storeByte_allowed b h)
  · exact (hostMemWrite_coherent b hc).trans (storeByte_allowed b h)
  · exact congrArg _ (cacheInvalidate_coherent hc)
  · exact exists_next_put (u := { s with rdata := (s.mem.byteAt a).setWidth 32 })
      (hostMemRead_not_held (s := s) hc hx h)
  · exact exists_next_put (u := { s with mem := s.mem.setByte a x.value }) (cacheClean_allowed hc hx hd h)

end Sys2Proof.Machine
end

section
/-! The command words (O3 to O6): a word is an instruction's exactly when it is the instruction's encoding, and legal
exactly when its fields are well formed; what a CMD write of any other word does (spec/30_encoding.md R80 to R84,
spec/44_stream_manager.md R212). -/

namespace Sys2Proof

/-! ## The decoder against the encoder -/

/-- Every instruction comes back from its opcode-table word (R81, R84). -/
theorem roundTrip (i : Instr) : Laws.RoundTrip.Statement i := by
  cases i with
  | nop => exact Laws.RoundTrip.nop
  | encCbc128 => exact Laws.RoundTrip.encCbc128
  | decCbc128 => exact Laws.RoundTrip.decCbc128
  | encCtr128 => exact Laws.RoundTrip.encCtr128
  | decCtr128 => exact Laws.RoundTrip.decCtr128
  | encGcm128 aadz => exact Laws.RoundTrip.encGcm128 aadz
  | decGcm128 aadz => exact Laws.RoundTrip.decGcm128 aadz

@[simp] theorem Instr.wf_eq_true (i : Instr) : i.wf = true := (roundTrip i).1

/-- The opcode table numbers a word by its value. -/
theorem decodeTableWord_eq_some (w : Word) (i : Instr) : decodeTableWord 32 w.toNat = some i ↔ decode w = .ok i := by
  unfold decodeTableWord
  rw [Nat.mod_eq_of_lt w.isLt, BitVec.ofNat_toNat, BitVec.setWidth_eq]
  split
  case h_1 j hj => simp [hj]
  case h_2 e he => simp [he]

theorem decode_encode (i : Instr) : decode (encode i) = .ok i := (decodeTableWord_eq_some _ i).mp (roundTrip i).2

/-- The instruction a word decodes to stands for the word's fields, and these are all of the word (R80). -/
theorem encode_of_decode {w : Word} {i : Instr} (h : decode w = .ok i) : encode i = w := by
  obtain ⟨h0, h1⟩ := reserved_of_decode w i h
  have hf : wordFields w = { op := (wordFields w).op, res0 := 0, aadz := (wordFields w).aadz, res1 := 0 } := by
    rw [← h0, ← h1]
  have hi : wordFields w = i.fields := by
    rw [decode, hf] at h
    exact hf.trans (fields_of_decodeFields _ _ i h)
  rw [encode, ← hi, fieldsWord_wordFields]

theorem decode_eq_ok_iff (w : Word) (i : Instr) : decode w = .ok i ↔ encode i = w :=
  ⟨encode_of_decode, fun h => h ▸ decode_encode i⟩

/-- Settles O6: the decoder takes a word to an instruction exactly when the encoder takes the instruction to it. -/
theorem encodeAndDecodeAgree : Obligations.EncodeAndDecodeAgree :=
  ⟨fun w i => by rw [decode_eq_ok_iff, i.wf_eq_true, eq_self, true_and],
    fun w i => (decodeTableWord_eq_some w i).trans (decode_eq_ok_iff w i)⟩

/-! ## The table of legal words -/

/-- The instructions in the order of R84's table. -/
def Instr.table : List Instr :=
  [.nop, .encCbc128, .decCbc128, .encCtr128, .decCtr128, .encGcm128 false, .encGcm128 true, .decGcm128 false,
    .decGcm128 true]

theorem Instr.mem_table (i : Instr) : i ∈ Instr.table := by
  cases i with
  | encGcm128 aadz => revert aadz; decide
  | decGcm128 aadz => revert aadz; decide
  | _ => decide

/-- The legal words are the words of the table's instructions. -/
theorem exists_decode_iff_mem_table (w : Word) : (∃ i, decode w = .ok i) ↔ w ∈ Instr.table.map encode := by
  simp [decode_eq_ok_iff, Instr.mem_table]

/-- A word is its bits under R84's mask for OP 5 and 6, and its bit 8. -/
theorem word_eq_iff_mask (v w : Word) :
    v = w ↔ w &&& 0xFFFFFEFF = v &&& 0xFFFFFEFF ∧ w.getLsbD 8 = v.getLsbD 8 := by
  refine ⟨fun h => h ▸ ⟨rfl, rfl⟩, fun ⟨hmask, h8⟩ => BitVec.eq_of_getLsbD_eq fun k hk => ?_⟩
  by_cases hk8 : k = 8
  · rw [hk8, h8]
  · have hset : ∀ j : Fin 32, j.val ≠ 8 → (0xFFFFFEFF#32).getLsbD j.val = true := by decide
    have hbit := congrArg (·.getLsbD k) hmask
    simpa [BitVec.getLsbD_and, hset ⟨k, hk⟩ hk8] using hbit.symm

/-- An instruction whose word is `x` under the mask, with AADZ in bit 8. -/
theorem decode_eq_ok_iff_mask {i : Instr} {x : Word} {aadz : Bool} (hx : encode i &&& 0xFFFFFEFF = x)
    (hz : (encode i).getLsbD 8 = aadz) (w : Word) :
    decode w = .ok i ↔ w &&& 0xFFFFFEFF = x ∧ w.getLsbD 8 = aadz := by
  rw [decode_eq_ok_iff, word_eq_iff_mask, hx, hz]

/-- Settles O4: a word is a row's when it is its encoding, all of it for OP 0 to 4, all but bit 8 for OP 5 and 6. -/
theorem legalWordsAreTheTable : Obligations.LegalWordsAreTheTable := by
  intro w
  have hmask : w &&& 0xFFFFFFFF = w := BitVec.and_allOnes
  have hrow (i : Instr) : decode w = .ok i ↔ w &&& 0xFFFFFFFF = encode i := by
    rw [hmask, decode_eq_ok_iff, eq_comm]
  refine ⟨hrow .nop, hrow .encCbc128, hrow .decCbc128, hrow .encCtr128, hrow .decCtr128, fun aadz => ?_,
    fun aadz => ?_, exists_decode_iff_mem_table w⟩
  · exact decode_eq_ok_iff_mask (by revert aadz; decide) (by revert aadz; decide) w
  · exact decode_eq_ok_iff_mask (by revert aadz; decide) (by revert aadz; decide) w

/-- Settles O3. The nine legal words come back from the encoder's; the other four fail one check each. -/
theorem commandWordsDecode : Obligations.CommandWordsDecode :=
  ⟨decode_encode .nop, decode_encode .encCbc128, decode_encode .decCbc128, decode_encode .encCtr128,
    decode_encode .decCtr128, decode_encode (.encGcm128 false), decode_encode (.encGcm128 true),
    decode_encode (.decGcm128 false), decode_encode (.decGcm128 true), by decide, by decide, by decide, by decide⟩

/-! ## Legal words by their fields -/

/-- OP 0 to 6 select an instruction, and no other does (R81). -/
theorem exists_selectOp_iff (n : Nat) (aadz : Bool) : (∃ i, selectOp n aadz = some i) ↔ n ≤ 6 := by
  match n with
  | 0 | 1 | 2 | 3 | 4 | 5 | 6 => simp [selectOp]
  | n + 7 => simp [selectOp]

/-- The decoder's checks are those of R83. -/
theorem exists_decodeFields_iff_wf (f : CommandFields) : (∃ i, decodeFields f = .ok i) ↔ f.wf = true := by
  have hsel := exists_selectOp_iff f.op.toNat f.aadz
  unfold decodeFields CommandFields.wf CommandFields.opDefined
  by_cases h0 : f.res0Zero = true
  case neg => simp [h0]
  by_cases h1 : f.res1Zero = true
  case neg => simp [h0, h1]
  by_cases hz : f.aadzAllowed = true
  case neg => simp [h0, h1, hz]
  simp only [h0, h1, hz, Bool.and_true, decide_eq_true_eq, ← hsel]
  cases selectOp f.op.toNat f.aadz <;> simp

/-- R83's conditions, written out. -/
theorem CommandFields.wf_iff (f : CommandFields) :
    f.wf = true ↔ f.op.toNat ≤ 6 ∧ f.res0 = 0 ∧ f.res1 = 0 ∧ (f.aadz = true → f.op.toNat = 5 ∨ f.op.toNat = 6) := by
  have h5 : f.op = 5 ↔ f.op.toNat = 5 := BitVec.toNat_inj.symm
  have h6 : f.op = 6 ↔ f.op.toNat = 6 := BitVec.toNat_inj.symm
  simp only [CommandFields.wf, CommandFields.opDefined, CommandFields.res0Zero, CommandFields.res1Zero,
    CommandFields.aadzAllowed, Bool.and_eq_true, Bool.or_eq_true, decide_eq_true_eq, and_assoc, or_assoc, h5, h6]
  cases f.aadz <;> simp

/-- With OP 0 the only legal word is NOP's (R83). -/
theorem exists_decode_iff_eq_zero {w : Word} (hop : w.extractLsb' 0 4 = 0) : (∃ i, decode w = .ok i) ↔ w = 0 := by
  refine ⟨fun ⟨i, hi⟩ => ?_, fun h => ⟨.nop, (decode_eq_ok_iff w .nop).mpr h.symm⟩⟩
  rw [← encode_of_decode hi] at hop ⊢
  clear hi
  revert hop
  cases i with
  | encGcm128 aadz => revert aadz; decide
  | decGcm128 aadz => revert aadz; decide
  | _ => decide

end Sys2Proof

namespace Sys2Proof.Machine

/-! ## Illegal words written to CMD -/

theorem writeCmd_illegal {w : Word} (h : ∀ i, decode w ≠ .ok i) (s : State) :
    writeCmd w s = .next (illegalWrite s) := by
  unfold writeCmd
  split
  case h_1 i hi => exact absurd hi (h i)
  case h_2 => rfl

/-- An illegal word written while not BUSY is an error at once (R212). -/
theorem illegalWrite_notBusy {s : State} (hb : s.status.state ≠ .busy) : illegalWrite s = illegalCommand s :=
  if_neg (by simpa using hb)

/-- CMD is the window's first word (R20). -/
theorem busWrite_cmd (w : Word) (s : State) : busWrite s.cfg.baseAddr 4 w s = writeCmd w s :=
  busWrite_register (windowAccess_offset s.cfg.baseAddr .cmd) w

/-- Settles O5: legal is well formed in the fields, and CMD takes every illegal word to `illegalWrite`. -/
theorem legalWordsByFields : Obligations.LegalWordsByFields := by
  refine fun w => ⟨?_, exists_decode_iff_eq_zero, fun s => ⟨rfl, busWrite_cmd w s, busWrite_cmd w s⟩,
    fun h s => ⟨fun hb => ?_, fun hb => ?_⟩⟩
  · exact (exists_decodeFields_iff_wf (wordFields w)).trans (CommandFields.wf_iff (wordFields w))
  · rw [writeCmd_illegal h, illegalWrite_notBusy hb]; rfl
  · rw [writeCmd_illegal h, illegalWrite_busy hb]; rfl

end Sys2Proof.Machine
end

section
/-! A running operation keeps its command until it has ended, and `wait` ends (O49): every turn of it is a poll and a
step of the operation, which is nearer its end then (spec/30_encoding.md R88, spec/44_stream_manager.md R240). -/

namespace Sys2Proof.Machine

/-! ## The command of a running operation -/

/-- The operation's command is still the latched one, or the operation has ended and left nothing (R46, R238). -/
def KeepsCommand (s t : State) : Prop :=
  (t.eng.op = s.eng.op ∧ t.eng.aadz = s.eng.aadz) ∨ t.eng = Engine.cleared

theorem KeepsCommand.refl (s : State) : KeepsCommand s s := .inl ⟨rfl, rfl⟩

theorem checkStep_command (op : CipherOp) (s : State) : KeepsCommand s (checkStep op s) := by
  unfold checkStep
  split
  · exact .inr rfl
  · exact .inl ⟨rfl, rfl⟩

theorem loadKeyStep_command (s : State) : KeepsCommand s (loadKeyStep s) := by
  unfold loadKeyStep
  split
  · exact .inl ⟨rfl, rfl⟩
  · exact .inr rfl

theorem loadIvStep_command (op : CipherOp) (s : State) : KeepsCommand s (loadIvStep op s) := by
  unfold loadIvStep
  split
  · exact .inl ⟨rfl, rfl⟩
  · exact .inr rfl

theorem initStep_command (op : CipherOp) (s : State) : KeepsCommand s (initStep op s) := by
  cases op <;> exact .inl ⟨rfl, rfl⟩

theorem gcmAad_command (s : State) : KeepsCommand s (gcmAad s) := by
  unfold gcmAad
  dsimp only
  split
  case isTrue => exact .inl ⟨rfl, rfl⟩
  case isFalse =>
    split
    case isFalse => exact .inl ⟨rfl, rfl⟩
    case isTrue =>
      split
      · exact .inl ⟨rfl, rfl⟩
      · exact .inr rfl

theorem drainStep_command (s : State) : KeepsCommand s (drainStep s) := by
  unfold drainStep
  split
  · exact .inl ⟨rfl, rfl⟩
  · exact .inr rfl

theorem feedStep_command (s : State) : KeepsCommand s (feedStep s) := by
  unfold feedStep
  split
  · exact .inl ⟨rfl, rfl⟩
  · exact .inr rfl

theorem endOfData_command (op : CipherOp) (s : State) : KeepsCommand s (endOfData op s) := by
  unfold endOfData
  split
  · exact .inl ⟨rfl, rfl⟩
  · exact .inr rfl

theorem decCbc128Last_command (e : Engine) :
    (decCbc128Last e).op = e.op ∧ (decCbc128Last e).aadz = e.aadz := by
  unfold decCbc128Last
  dsimp only
  split <;> exact ⟨rfl, rfl⟩

/-- No unit touches the latched command (R144 to R148, R164, R187, R188). -/
theorem applyUnit_command {op : CipherOp} {w : Nat} {e e' : Engine} (h : applyUnit op w e = some e') :
    e'.op = e.op ∧ e'.aadz = e.aadz := by
  cases op with
  | encCbc128 =>
    cases h
    unfold encCbc128Unit
    split <;> exact ⟨rfl, rfl⟩
  | decCbc128 =>
    change decCbc128Unit e = some e' at h
    unfold decCbc128Unit at h
    split at h
    · cases h; exact ⟨rfl, rfl⟩
    · split at h <;> cases h
      exact decCbc128Last_command e
  | _ => cases h; exact ⟨rfl, rfl⟩

theorem dataStep_command {op : CipherOp} {s t : State} (h : dataStep op s = .next t) : KeepsCommand s t := by
  unfold dataStep at h
  split at h
  case isTrue =>
    unfold xformStep at h
    split at h <;> cases h
    next e he => exact .inl (applyUnit_command he)
  case isFalse =>
    split at h
    · cases h; exact drainStep_command s
    · split at h
      · cases h; exact feedStep_command s
      · split at h
        · cases h; exact drainStep_command s
        · cases h; exact endOfData_command op s

theorem encGcm128Tag_command (s : State) : KeepsCommand s (encGcm128Tag s) := by
  unfold encGcm128Tag
  split <;> exact .inr rfl

theorem decGcm128Tag_command (s : State) : KeepsCommand s (decGcm128Tag s) := by
  unfold decGcm128Tag
  split
  case h_2 => exact .inr rfl
  case h_1 =>
    dsimp only
    split
    · exact .inr rfl
    · exact .inl ⟨rfl, rfl⟩

theorem zeroStep_command (s : State) : KeepsCommand s (zeroStep s) := by
  unfold zeroStep
  dsimp only
  split <;> exact .inr rfl

theorem phaseStep_command {op : CipherOp} {s t : State} (h : phaseStep op s = .next t) : KeepsCommand s t := by
  unfold phaseStep at h
  split at h
  case h_1 => cases h; exact .refl s
  case h_2 => cases h; exact checkStep_command op s
  case h_3 => cases h; exact loadKeyStep_command s
  case h_4 => cases h; exact loadIvStep_command op s
  case h_5 => cases h; exact initStep_command op s
  case h_6 =>
    unfold aadStep at h
    split at h <;> cases h
    exact gcmAad_command s
  case h_7 => exact dataStep_command h
  case h_8 =>
    unfold tagStep at h
    split at h <;> cases h
    · exact encGcm128Tag_command s
    · exact decGcm128Tag_command s
  case h_9 => cases h; exact zeroStep_command s

/-- The engine's step from a running operation: it ends, or the same operation goes on, nearer its end (R234, R240). -/
theorem Running.ends_or_goes_on {op : CipherOp} {s : State} (h : Running op s) :
    ∃ t, engineStep s = .next t ∧ Inv t ∧
      (t.eng.ph = .none ∨ Running op t ∧ stepsLeft op t.desc t.eng < stepsLeft op s.desc s.eng) := by
  obtain ⟨op', h', t, ht, hit, hlt⟩ := engine_progress s h.inv h.act
  obtain rfl : op' = op := Option.some.inj (h'.hop.symm.trans h.hop)
  refine ⟨t, ht, hit, or_iff_not_imp_left.mpr fun hact => ⟨?_, hlt⟩⟩
  rcases phaseStep_command ((engineStep_phase h).symm.trans ht) with ⟨hop, haadz⟩ | hclr
  · exact h.next ht hact hop haadz
  · exact absurd (by rw [hclr]; rfl) hact

/-- The host's pending accesses and the data of its last read are nothing to the operation. -/
theorem Running.congr_io {op : CipherOp} {s : State} (h : Running op s) (i : List HostInput) (d : Word) :
    Running op { s with inputs := i, rdata := d } :=
  ⟨h.inv.congr_io i d, h.act, h.hop, h.haz, h.ph⟩

/-! ## Turns of `wait` -/

/-- The host's one pending access is `wait`, due now. -/
def Waiting (s : State) : Prop := s.inputs = [atOnce .wait]

/-- Some run from here has no access pending, STATE not BUSY, and STATUS as the data last read. -/
def WaitReturns (s : State) : Prop :=
  ∃ (n : Nat) (t : State), run n s = .next t ∧ t.inputs = [] ∧ t.status.state ≠ .busy ∧ t.rdata = t.status.word

theorem WaitReturns.of_run {n : Nat} {s t : State} (hr : run n s = .next t) (h : WaitReturns t) : WaitReturns s := by
  obtain ⟨k, u, hu, hdone⟩ := h
  exact ⟨n + k, u, (run_add n k s t hr).trans hu, hdone⟩

theorem pollStatus_busy {s : State} (hb : s.status.state = .busy) :
    pollStatus s = { s with
      rdata := s.status.word
      inputs := { after := 1, together := false, op := .wait } :: s.inputs } := by
  simp only [pollStatus, (busy_eq_true s).mpr hb, if_true]

theorem pollStatus_notBusy {s : State} (hb : s.status.state ≠ .busy) :
    pollStatus s = { s with rdata := s.status.word } := by
  simp [pollStatus, (busy_eq_false s).mpr hb]

/-- A `wait` that is due polls STATUS, and stands again, one engine step later, while BUSY (R88, log entry 18). -/
theorem Waiting.step {s : State} (hw : Waiting s) : step s = .next (pollStatus { s with inputs := [] }) := by
  unfold Machine.step
  rw [hw]
  rfl

/-- With no operation running the poll is the last one. -/
theorem Waiting.returns_of_idle {s : State} (hw : Waiting s) (hb : s.status.state ≠ .busy) : WaitReturns s := by
  have hstep := hw.step
  rw [pollStatus_notBusy (s := { s with inputs := [] }) hb] at hstep
  exact ⟨1, _, run_succ 0 _ _ hstep, rfl, hb, rfl⟩

/-- While BUSY a turn of `wait` is a poll and one step of the engine. -/
theorem Waiting.run_turn {s t : State} (hw : Waiting s) (hb : s.status.state = .busy)
    (ht : engineStep { s with inputs := [atOnce .wait], rdata := s.status.word } = .next t) :
    run 2 s = .next t := by
  have hstep := hw.step
  rw [pollStatus_busy (s := { s with inputs := [] }) hb] at hstep
  exact (run_succ 1 _ _ hstep).trans (run_succ 0 _ _ ht)

/-- While an operation runs `wait` returns: by induction on the engine steps the operation has left. -/
theorem Running.wait_returns {op : CipherOp} {s : State} (h : Running op s) (hw : Waiting s) : WaitReturns s := by
  induction hm : stepsLeft op s.desc s.eng using Nat.strongRecOn generalizing s with
  | ind m ih =>
    obtain ⟨t, ht, hit, hend⟩ := (h.congr_io [atOnce .wait] s.status.word).ends_or_goes_on
    have hwt : Waiting t := (engineStep_frame _ t ht).inputs
    refine .of_run (hw.run_turn (h.inv.running.busy.mpr h.act) ht) ?_
    rcases hend with hended | ⟨hr, hlt⟩
    · exact hwt.returns_of_idle fun hb => hit.running.busy.mp hb hended
    · exact ih _ (hm ▸ hlt) hr hwt rfl

/-- Settles O49: an operation that runs comes nearer its end in every turn, and with none running one poll is all. -/
theorem waitEnds : Obligations.WaitEnds := by
  intro s hi hw
  by_cases hact : s.eng.ph = .none
  · exact Waiting.returns_of_idle hw fun hb => hi.running.busy.mp hb hact
  · obtain ⟨op, h, -⟩ := engine_progress s hi hact
    exact h.wait_returns hw

end Sys2Proof.Machine
end

section
/-! The block cipher (O54, O55, O56): `D` and `E` undo each other round by round, SBOX against the inverse of
GF(2^8), and the known answers (spec/40_primitives.md R100 to R109). -/

namespace Sys2Proof.Machine

/-! ## Rounds in a row -/

theorem foldl_encRound_length (k : Block) (rs : List Nat) (s : List Byte) (hrs : ∀ r ∈ rs, r ≤ 10)
    (hs : s.length = 16) : (rs.foldl (encRound (keyWords k)) s).length = 16 :=
  List.foldlRecOn (motive := fun s => s.length = 16) rs _ hs fun s _ r hr => encRound_length k r s (hrs r hr)

theorem foldl_decRound_length (k : Block) (rs : List Nat) (s : List Byte) (hrs : ∀ r ∈ rs, r ≤ 10)
    (hs : s.length = 16) : (rs.foldl (decRound (keyWords k)) s).length = 16 :=
  List.foldlRecOn (motive := fun s => s.length = 16) rs _ hs fun s _ r hr => decRound_length k r s (hrs r hr)

/-- When `g` undoes one round of `f` on the half rounds `h`, the rounds of `g` taken backwards undo those of `f`. -/
theorem foldl_reverse_undoes {f g : List Byte → Nat → List Byte} {h : List Byte → List Byte} (rs : List Nat)
    (hgf : ∀ r ∈ rs, ∀ s, g (h (f s r)) r = h s) (s : List Byte) :
    rs.reverse.foldl g (h (rs.foldl f s)) = h s := by
  induction rs generalizing s with
  | nil => rfl
  | cons r rs ih =>
    rw [List.forall_mem_cons] at hgf
    simp only [List.reverse_cons, List.foldl_append, List.foldl_cons, List.foldl_nil, ih hgf.2, hgf.1]

theorem foldl_decRound_undoes (k : Block) (rs : List Nat) (s : List Byte) (hrs : ∀ r ∈ rs, r ≤ 10) :
    rs.reverse.foldl (decRound (keyWords k)) (shiftRows (subBytes (rs.foldl (encRound (keyWords k)) s))) =
      shiftRows (subBytes s) :=
  foldl_reverse_undoes (h := fun s => shiftRows (subBytes s)) rs
    (fun r hr s => decRound_undoes k r s (hrs r hr)) s

theorem foldl_encRound_undoes (k : Block) (rs : List Nat) (s : List Byte) (hrs : ∀ r ∈ rs, r ≤ 10) :
    rs.reverse.foldl (encRound (keyWords k)) (invSubBytes (invShiftRows (rs.foldl (decRound (keyWords k)) s))) =
      invSubBytes (invShiftRows s) :=
  foldl_reverse_undoes (h := fun s => invSubBytes (invShiftRows s)) rs
    (fun r hr s => encRound_undoes k r s (hrs r hr)) s

/-! ## The whole cipher -/

/-- The state after round 9 of `E` (R107). -/
def encState (k x : Block) : List Byte :=
  [1, 2, 3, 4, 5, 6, 7, 8, 9].foldl (encRound (keyWords k)) (addRoundKey (roundKey (keyWords k) 0) (blockBytes x))

/-- The state after round 1 of `D` (R108). -/
def decState (k y : Block) : List Byte :=
  [9, 8, 7, 6, 5, 4, 3, 2, 1].foldl (decRound (keyWords k)) (addRoundKey (roundKey (keyWords k) 10) (blockBytes y))

theorem encState_length (k x : Block) : (encState k x).length = 16 :=
  foldl_encRound_length k _ _ (by decide) (addRoundKey_length k 0 _ (by decide) (blockBytes_length x))

theorem decState_length (k y : Block) : (decState k y).length = 16 :=
  foldl_decRound_length k _ _ (by decide) (addRoundKey_length k 10 _ (by decide) (blockBytes_length y))

theorem blockBytes_blockE (k x : Block) :
    blockBytes (blockE k x) = addRoundKey (roundKey (keyWords k) 10) (shiftRows (subBytes (encState k x))) := by
  unfold blockE
  exact blockBytes_bytesBlock _ (addRoundKey_length k 10 _ (by decide) (shiftRows_length _))

theorem blockBytes_blockD (k y : Block) :
    blockBytes (blockD k y) =
      addRoundKey (roundKey (keyWords k) 0) (invSubBytes (invShiftRows (decState k y))) := by
  unfold blockD
  exact blockBytes_bytesBlock _ (addRoundKey_length k 0 _ (by decide) (by simp))

theorem blockD_blockE (k x : Block) : blockD k (blockE k x) = x := by
  have hx := blockBytes_length x
  have hstart := addRoundKey_length k 0 _ (by decide) hx
  have hrounds : decState k (blockE k x) =
      shiftRows (subBytes (addRoundKey (roundKey (keyWords k) 0) (blockBytes x))) := by
    rw [decState, blockBytes_blockE, addRoundKey_twice k 10 _ (by decide) (shiftRows_length _)]
    exact foldl_decRound_undoes k [1, 2, 3, 4, 5, 6, 7, 8, 9] _ (by decide)
  apply blockBytes_injective
  rw [blockBytes_blockD, hrounds, invShiftRows_shiftRows _ ((subBytes_length _).trans hstart), invSubBytes_subBytes,
    addRoundKey_twice k 0 _ (by decide) hx]

theorem blockE_blockD (k y : Block) : blockE k (blockD k y) = y := by
  have hy := blockBytes_length y
  have hstart := addRoundKey_length k 10 _ (by decide) hy
  have hrounds : encState k (blockD k y) =
      invSubBytes (invShiftRows (addRoundKey (roundKey (keyWords k) 10) (blockBytes y))) := by
    rw [encState, blockBytes_blockD, addRoundKey_twice k 0 _ (by decide) (by simp)]
    exact foldl_encRound_undoes k [9, 8, 7, 6, 5, 4, 3, 2, 1] _ (by decide)
  apply blockBytes_injective
  rw [blockBytes_blockE, hrounds, subBytes_invSubBytes, shiftRows_invShiftRows _ hstart,
    addRoundKey_twice k 10 _ (by decide) hy]

/-- Settles O54: the rounds of the one undo the rounds of the other, last round first. -/
theorem blockCipherInverse : Obligations.BlockCipherInverse := fun k x => ⟨blockD_blockE k x, blockE_blockD k x⟩

/-! ## The byte table -/

/-- The product of `x`, `x^2`, `x^4` and so on, `n` factors: `x ^ (2^n - 1)` in GF(2^8). -/
def gfPowerOnes : Nat → Byte → Byte
  | 0, _ => 1
  | n + 1, x => gfMul8 x (gfPowerOnes n (gfMul8 x x))

/-- `x^254`, the inverse in GF(2^8) of every byte but 0, which it takes to 0 (R102). -/
def gfInverse (x : Byte) : Byte := gfPowerOnes 7 (gfMul8 x x)

theorem gfInverse_zero : gfInverse 0 = 0 := by decide +kernel

theorem gfMul8_gfInverse (x : Byte) : x ≠ 0 → gfMul8 x (gfInverse x) = 1 :=
  byte_forall (fun x => x ≠ 0 → gfMul8 x (gfInverse x) = 1) (by decide +kernel) x

/-- The affine map of R102. -/
def sboxAffine (b : Byte) : Byte :=
  b ^^^ b.rotateLeft 1 ^^^ b.rotateLeft 2 ^^^ b.rotateLeft 3 ^^^ b.rotateLeft 4 ^^^ 0x63

theorem sbox_eq_sboxAffine_gfInverse (x : Byte) : sbox x = sboxAffine (gfInverse x) :=
  byte_forall (fun x => sbox x = sboxAffine (gfInverse x)) (by decide +kernel) x

/-- Settles O55: the inverse is `x^254`, computed apart from the table. -/
theorem sboxIsTheAffineInverse : Obligations.SboxIsTheAffineInverse := by
  refine ⟨fun x => ⟨gfInverse x, ?_, gfMul8_gfInverse x, sbox_eq_sboxAffine_gfInverse x⟩,
    fun x => ⟨invSbox_sbox x, sbox_invSbox x⟩, by decide, fun _ => ⟨rfl, rfl⟩⟩
  rintro rfl
  exact gfInverse_zero

/-! ## The known answers -/

/-- Settles O56, by running the key expansion and the rounds on each of R109's inputs. -/
theorem aesKnownAnswers : Obligations.AesKnownAnswers := by
  refine ⟨?_, ?_, ?_, ?_⟩ <;> decide +kernel

end Sys2Proof.Machine
end

section
/-! The padding, the counter blocks and GHASH (O57, O58, O59) (spec/40_primitives.md R111 to R119). -/

namespace Sys2Proof.Machine

/-! ## Padding -/

/-- The padding is not empty and fills the last block (R111). -/
theorem padLen_fills_block (n : Nat) : 1 ≤ padLen n ∧ n % 16 + padLen n = 16 := by
  unfold padLen
  omega

/-- The last block of the padded string: the bytes after its whole blocks, and the padding (R112). -/
theorem padPkcs_drop (p : List Byte) :
    (padPkcs p).drop ((padPkcs p).length - 16) =
      p.drop (16 * (p.length / 16)) ++ List.replicate (padLen p.length) (BitVec.ofNat 8 (padLen p.length)) := by
  have hwhole : (padPkcs p).length - 16 = 16 * (p.length / 16) := by
    rw [padPkcs_length]
    omega
  rw [hwhole, padPkcs, List.drop_append_of_le_length (by omega)]

/-- A block that ends in `n` bytes of value `n` is consistent, and its last byte says so (R113). -/
theorem unpadOk_padded (q : List Byte) (n : Nat) (hq : q.length + n = 16) (hn : 1 ≤ n) :
    unpadOk (bytesBlock (q ++ List.replicate n (BitVec.ofNat 8 n))) = true ∧
      (blockByte (bytesBlock (q ++ List.replicate n (BitVec.ofNat 8 n))) 15).toNat = n := by
  have hbytes := blockBytes_bytesBlock (q ++ List.replicate n (BitVec.ofNat 8 n)) (by simpa using hq)
  generalize bytesBlock (q ++ List.replicate n (BitVec.ofNat 8 n)) = b at hbytes ⊢
  have hlast : blockByte b 15 = BitVec.ofNat 8 n := by
    rw [← blockBytes_getElem b 15 (by simp), List.getElem_of_eq hbytes, List.getElem_append_right (by omega)]
    simp
  have hv : (blockByte b 15).toNat = n := by
    rw [hlast, BitVec.toNat_ofNat]
    omega
  refine ⟨?_, hv⟩
  have hpad : (blockBytes b).drop (16 - n) = List.replicate n (BitVec.ofNat 8 n) := by
    rw [hbytes, ← hq, Nat.add_sub_cancel, List.drop_left]
  have hrange : 1 ≤ n ∧ n ≤ 16 := by omega
  simp only [unpadOk, hv, hpad]
  simp [hlast, hrange]

/-- Settles O57: the last block holds the padding, and its last byte the padding's length. -/
theorem paddingIsRemovable : Obligations.PaddingIsRemovable := by
  intro p
  obtain ⟨hpos, hsum⟩ := padLen_fills_block p.length
  have hlen := padPkcs_length p
  refine ⟨by omega, by omega, ?_⟩
  rintro b rfl
  rw [padPkcs_drop]
  obtain ⟨hok, hv⟩ := unpadOk_padded (p.drop (16 * (p.length / 16))) (padLen p.length)
    (by rw [List.length_drop]; omega) hpos
  refine ⟨hok, ?_⟩
  rw [hv, padPkcs, List.length_append, List.length_replicate, Nat.add_sub_cancel, List.take_left]

/-! ## Counter blocks -/

/-- Below a multiple of `m`, a number with another remainder modulo `m` in place of its own stays below it. -/
theorem replace_mod_lt {n m M r : Nat} (hM : m ∣ M) (hn : n < M) (hr : r < m) : n - n % m + r < M := by
  obtain ⟨c, rfl⟩ := hM
  have hq : n / m < c := Nat.div_lt_of_lt_mul hn
  have hle : m * (n / m + 1) ≤ m * c := Nat.mul_le_mul_left m hq
  have hdiv := Nat.div_add_mod n m
  rw [Nat.mul_add, Nat.mul_one] at hle
  omega

/-- `inc_w` as a number: the multiple of `2^w` stays, the remainder advances (R115). -/
theorem incBlock_toNat (w : Nat) (x : Block) (hw : w ≤ 128) :
    (incBlock w x).toNat = 2 ^ w * (x.toNat / 2 ^ w) + (x.toNat % 2 ^ w + 1) % 2 ^ w := by
  have hlt := replace_mod_lt (Nat.pow_dvd_pow 2 hw) x.isLt (Nat.mod_lt (x.toNat % 2 ^ w + 1) (Nat.two_pow_pos w))
  rw [incBlock, BitVec.toNat_ofNat, Nat.mod_eq_of_lt hlt, Nat.mul_div_self_eq_mod_sub_self]

/-- Settles O58: the remainder by `2^w` is the low bits, the quotient the others. -/
theorem counterBlockIncrement : Obligations.CounterBlockIncrement := by
  intro w x _ hw
  have hpos := Nat.two_pow_pos w
  have hlow : (incBlock w x).toNat % 2 ^ w = (x.toNat % 2 ^ w + 1) % 2 ^ w := by
    rw [incBlock_toNat w x hw, Nat.mul_add_mod, Nat.mod_mod]
  have hhigh : (incBlock w x).toNat / 2 ^ w = x.toNat / 2 ^ w := by
    rw [incBlock_toNat w x hw, Nat.mul_add_div hpos, Nat.div_eq_of_lt (Nat.mod_lt _ hpos), Nat.add_zero]
  refine ⟨hlow, hhigh, ?_, by decide +kernel⟩
  intro hones
  rw [hlow, hones, Nat.sub_add_cancel hpos, Nat.mod_self]

/-! ## GHASH -/

@[simp] theorem ghash_nil (h : Block) : ghash h [] = 0 := rfl

theorem chunks_blockBytes (b : Block) : chunks (blockBytes b) = [blockBytes b] :=
  chunks_short _ (List.ne_nil_of_length_pos (by simp)) (by simp)

/-- One more block after whole blocks is one more step of the accumulator (R119). -/
theorem ghash_append_block (h : Block) (x : List Byte) (b : Block) (hx : x.length % 16 = 0) :
    ghash h (x ++ blockBytes b) = ghashStep h (ghash h x) b := by
  simp [ghash, chunks_append x _ hx, chunks_blockBytes]

/-- Settles O59: the accumulator's last step is the last block's. -/
theorem ghashIsIncremental : Obligations.GhashIsIncremental := fun h x b hx =>
  ⟨ghash_nil h, ghash_append_block h x b hx⟩

end Sys2Proof.Machine
end

section
/-! The multiplier of GF(2^128) (O60): its loop is linear in each factor, and `80 00 .. 00` is its unit
(spec/40_primitives.md R117, R118). -/

namespace Sys2Proof.Machine

/-! ## The loop is linear -/

/-- `v` when the bit is 1, zero when it is 0: what a bit of a factor contributes. -/
def bitTimes (b : Bool) (v : Block) : Block := if b then v else 0

theorem bitTimes_xor_bit (b c : Bool) (v : Block) : bitTimes (b ^^ c) v = bitTimes b v ^^^ bitTimes c v := by
  cases b <;> cases c <;> simp [bitTimes]

theorem bitTimes_xor (b : Bool) (v w : Block) : bitTimes b (v ^^^ w) = bitTimes b v ^^^ bitTimes b w := by
  cases b <;> simp [bitTimes]

theorem bitTimes_getElem (b : Bool) (v : Block) (j : Nat) (hj : j < 128) : (bitTimes b v)[j] = (b && v[j]) := by
  cases b <;> simp [bitTimes]

theorem gcmShift_eq (v : Block) : gcmShift v = (v >>> 1) ^^^ bitTimes (v.getLsbD 0) gcmR := by
  unfold gcmShift bitTimes
  split <;> simp

theorem gcmMulLoop_succ (x : Block) (n i : Nat) (z v : Block) :
    gcmMulLoop x (n + 1) i z v = gcmMulLoop x n (i + 1) (z ^^^ bitTimes (x.getMsbD i) v) (gcmShift v) := by
  rw [gcmMulLoop]
  cases x.getMsbD i <;> simp [bitTimes]

theorem gcmShift_xor (v w : Block) : gcmShift (v ^^^ w) = gcmShift v ^^^ gcmShift w := by
  simp only [gcmShift_eq, BitVec.ushiftRight_xor_distrib, BitVec.getLsbD_xor, bitTimes_xor_bit]
  ac_rfl

theorem gcmMulLoop_xor_right (x : Block) (n i : Nat) (z z' v v' : Block) :
    gcmMulLoop x n i (z ^^^ z') (v ^^^ v') = gcmMulLoop x n i z v ^^^ gcmMulLoop x n i z' v' := by
  induction n generalizing i z z' v v' with
  | zero => rfl
  | succ n ih =>
    simp only [gcmMulLoop_succ, gcmShift_xor, bitTimes_xor, ← ih]
    congr 1
    ac_rfl

theorem gcmMulLoop_xor_left (x x' : Block) (n i : Nat) (z z' v : Block) :
    gcmMulLoop (x ^^^ x') n i (z ^^^ z') v = gcmMulLoop x n i z v ^^^ gcmMulLoop x' n i z' v := by
  induction n generalizing i z z' v with
  | zero => rfl
  | succ n ih =>
    simp only [gcmMulLoop_succ, BitVec.getMsbD_xor, bitTimes_xor_bit, ← ih]
    congr 1
    ac_rfl

theorem gcmMul_xor_right (x y z : Block) : gcmMul x (y ^^^ z) = gcmMul x y ^^^ gcmMul x z := by
  unfold gcmMul
  exact gcmMulLoop_xor_right x 128 0 0 0 y z

theorem gcmMul_xor_left (x y z : Block) : gcmMul (x ^^^ y) z = gcmMul x z ^^^ gcmMul y z := by
  unfold gcmMul
  exact gcmMulLoop_xor_left x y 128 0 0 0 z

@[simp] theorem gcmMul_zero (x : Block) : gcmMul x 0 = 0 := by
  simpa using gcmMul_xor_right x 0 0

@[simp] theorem zero_gcmMul (x : Block) : gcmMul 0 x = 0 := by
  simpa using gcmMul_xor_left 0 0 x

/-! ## The unit -/

/-- `80 00 .. 00`: bit 0 in the order of R8 is 1. -/
def gcmOne : Block := 0x80000000000000000000000000000000

theorem gcmOne_eq_twoPow : gcmOne = BitVec.twoPow 128 127 := by decide

theorem gcmOne_getMsbD (j : Nat) : gcmOne.getMsbD j = decide (j = 0) := by
  rw [gcmOne_eq_twoPow, BitVec.getMsbD_twoPow, Bool.eq_iff_iff]
  simp only [Bool.and_eq_true, decide_eq_true_eq]
  omega

/-- Where no bit of `X` is left, the loop adds nothing. -/
theorem gcmMulLoop_of_no_bits (x : Block) (n i : Nat) (z v : Block) (hx : ∀ j, i ≤ j → x.getMsbD j = false) :
    gcmMulLoop x n i z v = z := by
  induction n generalizing i z v with
  | zero => rfl
  | succ n ih =>
    rw [gcmMulLoop, hx i (Nat.le_refl i)]
    exact ih (i + 1) z _ fun j hj => hx j (by omega)

theorem gcmOne_gcmMul (x : Block) : gcmMul gcmOne x = x := by
  have hrest : ∀ j, 1 ≤ j → gcmOne.getMsbD j = false := by
    intro j hj
    rw [gcmOne_getMsbD]
    exact decide_eq_false (by omega)
  unfold gcmMul
  rw [gcmMulLoop_succ _ 127, gcmMulLoop_of_no_bits _ _ _ _ _ hrest, gcmOne_getMsbD]
  simp [bitTimes]

/-- A single bit is shifted, not reduced, as long as it is not the last (R118). -/
theorem gcmShift_twoPow (n : Nat) (hn : n < 127) : gcmShift (BitVec.twoPow 128 (n + 1)) = BitVec.twoPow 128 n := by
  have hlast : (BitVec.twoPow 128 (n + 1)).getLsbD 0 = false := by simp
  have hlt : n + 1 < 128 := by omega
  rw [gcmShift, hlast]
  ext j hj
  simp [BitVec.getLsbD_twoPow, Nat.add_comm 1 j, hlt, eq_comm]

/-- The low `n` bits of a block. -/
def lowBits (x : Block) (n : Nat) : Block := (x.setWidth n).setWidth 128

theorem lowBits_zero (x : Block) : lowBits x 0 = 0 := by
  rw [lowBits, BitVec.of_length_zero (x := x.setWidth 0)]
  rfl

theorem lowBits_succ (x : Block) (n : Nat) :
    lowBits x (n + 1) = bitTimes (x.getLsbD n) (BitVec.twoPow 128 n) ^^^ lowBits x n := by
  ext j hj
  simp only [BitVec.getElem_xor, bitTimes_getElem, BitVec.getElem_twoPow, lowBits, BitVec.getElem_setWidth,
    BitVec.getLsbD_setWidth]
  by_cases hjn : j = n
  · subst hjn
    simp
  · have hiff : j < n + 1 ↔ j < n := by omega
    simp [hjn, hiff]

/-- Started on the single bit `i`, the loop adds the bits of `X` from `i` on: its low `n + 1` bits. -/
theorem gcmMulLoop_twoPow (x : Block) (n i : Nat) (z : Block) (hi : n + i = 127) :
    gcmMulLoop x (n + 1) i z (BitVec.twoPow 128 n) = z ^^^ lowBits x (n + 1) := by
  induction n generalizing i z with
  | zero =>
    obtain rfl : i = 127 := by omega
    rw [gcmMulLoop_succ, lowBits_succ, lowBits_zero, BitVec.getMsbD_eq_getLsbD]
    simp [gcmMulLoop]
  | succ n ih =>
    have hbit : x.getMsbD i = x.getLsbD (n + 1) := by
      rw [BitVec.getMsbD_eq_getLsbD, decide_eq_true (by omega), Bool.true_and]
      congr 1
      omega
    rw [gcmMulLoop_succ, hbit, gcmShift_twoPow n (by omega), ih (i + 1) _ (by omega), lowBits_succ x (n + 1),
      BitVec.xor_assoc]

theorem gcmMul_gcmOne (x : Block) : gcmMul x gcmOne = x := by
  have hbits : gcmMul x gcmOne = 0 ^^^ lowBits x 128 := by
    rw [gcmOne_eq_twoPow]
    unfold gcmMul
    exact gcmMulLoop_twoPow x 127 0 0 rfl
  simpa [lowBits] using hbits

/-- Settles O60: the zero from the sums, the unit bit by bit. -/
theorem galoisZeroUnitAndSums : Obligations.GaloisZeroUnitAndSums := fun x y z =>
  ⟨gcmMul_zero x, zero_gcmMul x, gcmOne_gcmMul x, gcmMul_gcmOne x, gcmMul_xor_left x y z, gcmMul_xor_right x y z⟩

end Sys2Proof.Machine
end

section
/-! CBC-128: the units of both commands (O24, O25), the round trip (O51), and the two operations against the reference
functions (O44) (spec/41_cbc128.md). -/

namespace Sys2Proof.Machine

/-! ## One unit in phase DATA -/

/-- With a unit ready and room for its block, the step of phase DATA applies the unit (R222, R223). -/
theorem engineStep_unit {op : CipherOp} {s : State} {e : Engine} (hd : s.eng.ph = .data)
    (hop : CipherOp.ofCode s.eng.op = some op) (hready : unitReady op s.eng = true) (hroom : 16 ≤ freeOut s)
    (he : applyUnit op s.cfg.ctrWidth s.eng = some e) : engineStep s = .next { s with eng := e } := by
  rw [engineStep_active s op (by simp [hd]) hop]
  simp [phaseStep, hd, dataStep, hready, hroom, xformStep, he]

theorem encCbc128Unit_full {e : Engine} (h : 16 ≤ e.inq.length) : encCbc128Unit e = encCbc128Full e := if_pos h

theorem encCbc128Unit_pad {e : Engine} (h : e.inq.length < 16) : encCbc128Unit e = encCbc128Pad e :=
  if_neg (Nat.not_le.mpr h)

theorem decCbc128Unit_mid {e : Engine} (h : e.tDone.toNat + 16 < e.tLen.toNat) :
    decCbc128Unit e = some (decCbc128Mid e) := if_pos h

theorem decCbc128Unit_last {e : Engine} (h : e.tDone.toNat + 16 = e.tLen.toNat) :
    decCbc128Unit e = some (decCbc128Last e) := by
  rw [decCbc128Unit, if_neg (by omega), if_pos h]

/-- Settles O24: a full block is ready as soon as it is there, the padding once the source is exhausted. -/
theorem cbcEncryptionUnits : Obligations.CbcEncryptionUnits := by
  intro s x c hd hop hroom hc
  refine ⟨fun hlen hx => ?_, fun hex hlen htail hx => ?_⟩
  · have hready : unitReady .encCbc128 s.eng = true := by simp [unitReady, hlen]
    rw [engineStep_unit hd hop hready hroom (congrArg some (encCbc128Unit_full hlen)), hc, hx]
    rfl
  · have hready : unitReady .encCbc128 s.eng = true := by simp [unitReady, exhausted, hex, htail]
    rw [engineStep_unit hd hop hready hroom (congrArg some (encCbc128Unit_pad hlen)), hc, hx]
    rfl

/-- Consistent padding byte by byte: the last byte is the padding's length, and every byte of the padding equals it
(R113). -/
theorem unpadOk_iff (b : Block) :
    unpadOk b = true ↔ 1 ≤ (blockByte b 15).toNat ∧ (blockByte b 15).toNat ≤ 16 ∧
      ∀ i < 16, 16 - (blockByte b 15).toNat ≤ i → (blockByte b i).toNat = (blockByte b 15).toNat := by
  simp only [unpadOk, Bool.and_eq_true, decide_eq_true_eq, and_assoc]
  refine and_congr_right fun _ => and_congr_right fun hle => ?_
  simp only [List.all_eq_true, decide_eq_true_eq, List.forall_mem_iff_forall_getElem, List.getElem_drop,
    List.length_drop, blockBytes_length, blockBytes_getElem, ← BitVec.toNat_inj]
  constructor
  · intro h i hi hv
    have hi' := h (i - (16 - (blockByte b 15).toNat)) (by omega)
    rwa [Nat.add_sub_cancel' hv] at hi'
  · intro h i hi
    exact h _ (by omega) (by omega)

/-- Settles O25: the last unit's two outcomes are those of the padding check. -/
theorem cbcDecryptionUnits : Obligations.CbcDecryptionUnits := by
  rintro s x p hd hop hroom hlen rfl rfl
  have hready : unitReady .decCbc128 s.eng = true := by simp [unitReady, hlen]
  refine ⟨fun hmid => ?_, ?_⟩
  · rw [engineStep_unit hd hop hready hroom (decCbc128Unit_mid hmid)]
    rfl
  · rintro hlast v rfl
    rw [engineStep_unit hd hop hready hroom (decCbc128Unit_last hlast), ← unpadOk_iff]
    refine ⟨fun hpad => ?_, fun hpad => ?_⟩
    · simp [decCbc128Last, hpad]
    · simp [decCbc128Last, hpad, lateError]

/-! ## The round trip -/

/-- Text of less than a block is one padding block, whose padding is consistent (R140, R141). -/
theorem cbcDec_cbcEnc_of_lt (k iv : Block) {p : List Byte} (hp : p.length < 16) :
    cbcDec k iv (cbcEnc k iv p) = some p := by
  obtain ⟨hok, hv⟩ := unpadOk_padded p (16 - p.length) (by omega) (by omega)
  have hbytes := blockBytes_bytesBlock (p ++ List.replicate (16 - p.length) (BitVec.ofNat 8 (16 - p.length)))
    (by simp; omega)
  rw [cbcEnc_last k iv p hp, cbcDec_last k iv _ (blockBytes_length _), bytesBlock_blockBytes, blockD_blockE,
    BitVec.xor_assoc, BitVec.xor_self, BitVec.xor_zero]
  simp only [hok, hv, hbytes, if_true]
  rw [List.take_left' (by omega)]

/-- Decryption gives the first block back and goes on with the first ciphertext block as its chaining value, as
encryption did (R140, R141). -/
theorem cbcDec_cbcEnc_of_le (k iv : Block) {p : List Byte} (hp : 16 ≤ p.length) :
    cbcDec k iv (cbcEnc k iv p) =
      (cbcDec k (blockE k (bytesBlock (p.take 16) ^^^ iv))
        (cbcEnc k (blockE k (bytesBlock (p.take 16) ^^^ iv)) (p.drop 16))).map (p.take 16 ++ ·) := by
  have hfirst : blockBytes (bytesBlock (p.take 16)) = p.take 16 := blockBytes_bytesBlock _ (by simpa using hp)
  rw [cbcEnc_cons k iv p hp, cbcDec_cons k iv _ (by simp [cbcEnc_length]) (by simp [cbcEnc_length]),
    List.take_left' (blockBytes_length _), List.drop_left' (blockBytes_length _), bytesBlock_blockBytes,
    blockD_blockE, BitVec.xor_assoc, BitVec.xor_self, BitVec.xor_zero, hfirst]

/-- Settles O51: block by block from the front, down to the padding block. -/
theorem cbcRoundTrip : Obligations.CbcRoundTrip := by
  intro k iv p
  induction hn : p.length using Nat.strongRecOn generalizing iv p with
  | ind n ih =>
    by_cases hp : 16 ≤ p.length
    · rw [cbcDec_cbcEnc_of_le k iv hp, ih _ (by rw [List.length_drop]; omega) _ (p.drop 16) rfl, Option.map_some,
        List.take_append_drop]
    · exact cbcDec_cbcEnc_of_lt k iv (Nat.not_le.mp hp)

/-! ## The operations -/

/-- A command written while not BUSY is accepted (R210). -/
theorem startOperation_notBusy {s : State} (hb : s.status.state ≠ .busy) (op : CipherOp) (z : Bool) :
    startOperation op z s = acceptCommand op z s := if_neg (by simpa using hb)

/-- A ready operation, from its command on, runs to what it comes to within R239's bound. -/
theorem Ready.exec_run {i : Instr} {op : CipherOp} {z : Bool} {s : State} (h : Ready op z s)
    (hz : z = true → op.isGcm = true) (hi : exec i s = .next (startOperation op z s)) :
    ∃ t, exec i s = .next t ∧ ∃ n ≤ stepBound op s.desc, run n t = .next (result op (begun op z s)) :=
  ⟨_, hi.trans (congrArg _ (startOperation_notBusy h.between.notBusy op z)), operation_run hz h⟩

/-- After INIT an operation that is none of GCM's is in phase DATA. -/
theorem result_begun_of_not_gcm {op : CipherOp} (hg : op.isGcm = false) (z : Bool) (s : State) :
    result op (begun op z s) = dataResult op (begun op z s) := by
  have hph : (begun op z s).eng.ph = .data := by simp [begun, initStep, hg]
  simp [result, lateResult, hph]

/-- After INIT a CBC operation holds the key and, as its chaining value, the IV (R140, R141, R218). -/
theorem cbc_begun {op : CipherOp} (hop : op = .encCbc128 ∨ op = .decCbc128) (z : Bool) (s : State) :
    (begun op z s).eng.key = keyOf s ∧ (begun op z s).eng.cv = ivOf s ∧ (begun op z s).eng.tailDone = false := by
  rcases hop with rfl | rfl <;> exact ⟨rfl, bytesBlock_iv s.mem s.desc.ivAddr, rfl⟩

theorem result_begun_encCbc128 {s : State} (h : Ready .encCbc128 false s) :
    result .encCbc128 (begun .encCbc128 false s) = finishedOk (cbcEnc (keyOf s) (ivOf s) (srcOf s)) s := by
  obtain ⟨hkey, hcv, htail⟩ := cbc_begun (.inl rfl) false s
  have hsrc : restText (begun .encCbc128 false s) = srcOf s := restText_begun h
  rw [result_begun_of_not_gcm rfl, dataResult, outq_begun h, hkey, hcv, htail, hsrc]
  exact endsOk_begun _

theorem result_begun_decCbc128 {s : State} (h : Ready .decCbc128 false s) :
    result .decCbc128 (begun .decCbc128 false s) = match cbcDec (keyOf s) (ivOf s) (srcOf s) with
      | some p => finishedOk p s
      | none => finishedLate .invalidPadding
          (s.cfg.stageBytes * ((s.desc.srcLen.toNat - 16) / s.cfg.stageBytes)) s := by
  obtain ⟨hkey, hcv, htail⟩ := cbc_begun (.inr rfl) false s
  have hsrc : restText (begun .decCbc128 false s) = srcOf s := restText_begun h
  rw [result_begun_of_not_gcm rfl, dataResult, outq_begun h, hkey, hcv, htail, hsrc]
  cases cbcDec (keyOf s) (ivOf s) (srcOf s) with
  | some p => exact endsOk_begun p
  | none => exact endsLate_begun .invalidPadding _

/-- Settles O44: each command runs to what it comes to after INIT, which is the reference function's result. -/
theorem cbcOperationsGiveTheReference : Obligations.CbcOperationsGiveTheReference := by
  refine ⟨fun s h => ?_, fun s h => ?_⟩
  · rw [← result_begun_encCbc128 h]
    exact h.exec_run (by simp) rfl
  · obtain ⟨t, ht, n, hn, hr⟩ := h.exec_run (i := .decCbc128) (by simp) rfl
    exact ⟨t, ht, n, hn, hr.trans (congrArg _ (result_begun_decCbc128 h))⟩

end Sys2Proof.Machine
end

section
/-! CTR-128: the unit of both commands (O26), the round trip (O52), and the two operations against the reference
function (O45) (spec/42_ctr128.md). -/

namespace Sys2Proof.Machine

/-! ## One unit in phase DATA -/

/-- Keystream bytes past the text's length do not matter (R110). -/
theorem xorBytes_take_length (a b : List Byte) : xorBytes a (b.take a.length) = xorBytes a b := by
  refine List.ext_getElem (by simp) fun i _ _ => ?_
  simp [xorBytes]

/-- A counter mode's unit is ready on a whole block, or on a shorter rest once the source is exhausted; in both cases
it is what `S.in` holds of its first 16 bytes (R220, R164). -/
theorem streamUnitReady_of_unit {e : Engine} {x : List Byte}
    (h : 16 ≤ e.inq.length ∧ x = e.inq.take 16 ∨
      e.srcPos = e.tLen ∧ 0 < e.inq.length ∧ e.inq.length < 16 ∧ x = e.inq) :
    streamUnitReady e = true ∧ x = e.inq.take 16 ∧ e.inq.drop x.length = e.inq.drop 16 := by
  rcases h with ⟨hlen, rfl⟩ | ⟨hex, hpos, hlt, rfl⟩
  · refine ⟨by simp [streamUnitReady, hlen], rfl, ?_⟩
    rw [List.length_take, Nat.min_eq_left hlen]
  · refine ⟨by simp [streamUnitReady, exhausted, hex, hpos, hlt], (List.take_of_length_le hlt.le).symm, ?_⟩
    rw [List.drop_length, List.drop_of_length_le hlt.le]

/-- Settles O26: a ready unit takes the first 16 bytes of `S.in`, which are all of it at the text's end. The model's
unit has the name `ctrUnit`. -/
theorem engineStep_ctrUnit : Obligations.CtrUnit := by
  intro s op x hd hop hctr hroom hx
  obtain ⟨hready, hfirst, hdrop⟩ := streamUnitReady_of_unit hx
  have hunit : unitReady op s.eng = true ∧
      applyUnit op s.cfg.ctrWidth s.eng = some (ctrUnit s.cfg.ctrWidth s.eng) := by
    rcases hctr with rfl | rfl <;> exact ⟨hready, rfl⟩
  rw [engineStep_unit hd hop hunit.1 hroom hunit.2, hdrop, xorBytes_take_length, hfirst]
  rfl

/-! ## The round trip -/

/-- The output's first 16 bytes are the first piece's, the bytes after them those of the rest (R160). -/
theorem ctr_take_drop (w : Nat) (k cb : Block) (x : List Byte) :
    (ctr w k cb x).take 16 = xorBytes (x.take 16) (blockBytes (blockE k cb)) ∧
      (ctr w k cb x).drop 16 = ctr w k (incBlock w cb) (x.drop 16) := by
  rcases eq_or_ne x [] with rfl | hx
  · exact ⟨rfl, rfl⟩
  have hlen := xorBytes_keystream_length x (blockE k cb)
  rw [ctr_cons w k cb x hx]
  by_cases hfull : 16 ≤ x.length
  · have hsixteen := hlen.trans (List.length_take_of_le hfull)
    exact ⟨List.take_left' hsixteen, List.drop_left' hsixteen⟩
  · have hrest : ctr w k (incBlock w cb) (x.drop 16) = [] := by
      rw [List.drop_of_length_le (by omega)]
      rfl
    have hshort := hlen.trans_le (List.length_take_le 16 x)
    rw [hrest, List.append_nil]
    exact ⟨List.take_of_length_le hshort, List.drop_of_length_le hshort⟩

/-- Settles O52: piece by piece from the front, the same keystream block is applied twice. -/
theorem ctrRoundTrip : Obligations.CtrRoundTrip := by
  intro w k cb x
  induction hn : x.length using Nat.strongRecOn generalizing cb x with
  | ind n ih =>
    rcases eq_or_ne x [] with rfl | hx
    · rfl
    have hpos := List.length_pos_iff.mpr hx
    have hne : ctr w k cb x ≠ [] := List.ne_nil_of_length_pos (by rwa [ctr_length])
    obtain ⟨htake, hdrop⟩ := ctr_take_drop w k cb x
    rw [ctr_cons w k cb _ hne, htake, hdrop, xorBytes_xorBytes _ _ (by simp),
      ih _ (by rw [List.length_drop]; omega) _ (x.drop 16) rfl, List.take_append_drop]

/-! ## The operations -/

/-- What a CTR operation comes to in phase DATA is what it has staged and CTR of the rest, under either command. -/
theorem dataResult_ctr {op : CipherOp} (hop : op = .encCtr128 ∨ op = .decCtr128) (s : State) :
    dataResult op s = endsOk s (s.eng.outq ++ ctr s.cfg.ctrWidth s.eng.key s.eng.cb (restText s)) := by
  rcases hop with rfl | rfl <;> rfl

/-- After INIT a CTR operation holds the key and, as its counter block, the IV, and its whole source is still to come
(R160, R218). -/
theorem ctr_begun {op : CipherOp} (hop : op = .encCtr128 ∨ op = .decCtr128) {s : State} (h : Ready op false s) :
    (begun op false s).eng.key = keyOf s ∧ (begun op false s).eng.cb = ivOf s ∧
      restText (begun op false s) = srcOf s := by
  rcases hop with rfl | rfl <;> exact ⟨rfl, bytesBlock_iv s.mem s.desc.ivAddr, restText_begun h⟩

/-- From INIT on a CTR operation comes to the reference function's result (R166, R231). -/
theorem result_begun_ctr {op : CipherOp} (hop : op = .encCtr128 ∨ op = .decCtr128) {s : State}
    (h : Ready op false s) :
    result op (begun op false s) = finishedOk (ctr s.cfg.ctrWidth (keyOf s) (ivOf s) (srcOf s)) s := by
  have hgcm : op.isGcm = false := by rcases hop with rfl | rfl <;> rfl
  obtain ⟨hkey, hcb, hsrc⟩ := ctr_begun hop h
  rw [result_begun_of_not_gcm hgcm, dataResult_ctr hop, outq_begun h, hkey, hcb, hsrc]
  exact endsOk_begun _

/-- Settles O45: each command runs to what it comes to after INIT, which is the reference function's result. -/
theorem ctrOperationsGiveTheReference : Obligations.CtrOperationsGiveTheReference := by
  refine ⟨fun s h => ?_, fun s h => ?_⟩
  · rw [← result_begun_ctr (.inl rfl) h]
    exact h.exec_run (by simp) rfl
  · rw [← result_begun_ctr (.inr rfl) h]
    exact h.exec_run (by simp) rfl

end Sys2Proof.Machine
end

section
/-! GCM-128: one step of the AAD phase (O23), the units of both commands (O27), the TAG steps (O32), the round trip
(O53), and the two operations against the reference functions (O46) (spec/43_gcm128.md). -/

namespace Sys2Proof.Machine

/-! ## One step of phase AAD -/

/-- The block of memory bytes, filled up with zero bytes (R120). -/
theorem zpadBlock_bytesAt (m : Memory) (a : Addr) (k : Nat) :
    zpadBlock (m.bytesAt a k) = bytesBlock (m.bytesAt a k ++ List.replicate (16 - k) 0) := by
  rw [zpadBlock, padBlock, Memory.bytesAt_length]

/-- A GCM command's step in phase AAD is the AAD step (R186, R218). -/
theorem engineStep_aad {op : CipherOp} {s : State} (hd : s.eng.ph = .aad) (hop : CipherOp.ofCode s.eng.op = some op)
    (hg : op.isGcm = true) : engineStep s = .next (gcmAad s) := by
  rw [engineStep_active s op (by simp [hd]) hop]
  simp [phaseStep, hd, aadStep, hg]

theorem gcmAad_default {s : State} (hz : s.eng.aadz = true) :
    gcmAad s = { s with eng := { s.eng with y := ghashStep s.eng.h s.eng.y 0, aadPos := 16, ph := .data } } :=
  if_pos hz

theorem gcmAad_done {s : State} (hz : s.eng.aadz = false) (hall : ¬ s.eng.aadPos.toNat < s.desc.aadLen.toNat) :
    gcmAad s = { s with eng := { s.eng with ph := .data } } := by
  simp [gcmAad, hz, hall]

theorem gcmAad_block {s : State} (hz : s.eng.aadz = false) (hleft : s.eng.aadPos.toNat < s.desc.aadLen.toNat)
    {k : Nat} (hk : k = min 16 (s.desc.aadLen.toNat - s.eng.aadPos.toNat))
    (hok : readsOk s.cfg (s.desc.aadAddr + s.eng.aadPos) k) :
    gcmAad s = { s with eng := { s.eng with
      y := ghashStep s.eng.h s.eng.y (zpadBlock (s.mem.bytesAt (s.desc.aadAddr + s.eng.aadPos) k))
      aadPos := s.eng.aadPos + BitVec.ofNat 32 k } } := by
  simp [gcmAad, hz, hleft, ← hk, readRun_ok _ _ _ _ hok]

theorem gcmAad_fault {s : State} (hz : s.eng.aadz = false) (hleft : s.eng.aadPos.toNat < s.desc.aadLen.toNat)
    {i : Nat} (hi : i < min 16 (s.desc.aadLen.toNat - s.eng.aadPos.toNat))
    (hok : readsOk s.cfg (s.desc.aadAddr + s.eng.aadPos) i)
    (hbad : memOk s.cfg (s.desc.aadAddr + s.eng.aadPos + BitVec.ofNat 32 i) .read = false) :
    gcmAad s = completeErr .memoryFault (s.desc.aadAddr + s.eng.aadPos + BitVec.ofNat 32 i) s := by
  simp [gcmAad, hz, hleft, readRun_stops _ _ _ _ i hi hok hbad, memoryFault]

/-- Settles O23: the default block, a block of memory or its first failing byte, and the move to DATA are the AAD
step's branches. -/
theorem aadAbsorbedBlockByBlock : Obligations.AadAbsorbedBlockByBlock := by
  intro s op hd hop hgcm
  have hg : op.isGcm = true := by rcases hgcm with rfl | rfl <;> rfl
  rw [engineStep_aad hd hop hg]
  refine ⟨fun hz => congrArg _ (gcmAad_default hz), fun hz hleft k hk => ⟨fun hok => ?_, fun i hi hok hbad => ?_⟩,
    fun hz hall => congrArg _ (gcmAad_done hz hall)⟩
  · rw [gcmAad_block hz hleft hk hok, zpadBlock_bytesAt]
    rfl
  · rw [gcmAad_fault hz hleft (hk ▸ hi) hok hbad]

/-! ## One unit in phase DATA -/

/-- Settles O27: a ready unit takes the first 16 bytes of `S.in`, which are all of it at the text's end; the two
commands differ in which side of the keystream they hash. -/
theorem gcmUnits : Obligations.GcmUnits := by
  intro s x y hd hroom hx hy
  obtain ⟨hready, hfirst, hdrop⟩ := streamUnitReady_of_unit hx
  rw [xorBytes_take_length] at hy
  rw [hdrop, hy, hfirst]
  exact ⟨fun hop => engineStep_unit hd hop hready hroom rfl, fun hop => engineStep_unit hd hop hready hroom rfl⟩

/-! ## The step of phase TAG -/

theorem engineStep_tag {op : CipherOp} {s : State} (hd : s.eng.ph = .tag)
    (hop : CipherOp.ofCode s.eng.op = some op) : engineStep s = tagStep op s := by
  rw [engineStep_active s op (by simp [hd]) hop]
  simp [phaseStep, hd]

theorem encGcm128Tag_ok {s : State} (hok : writesOk s.cfg (s.desc.dstAddr + s.eng.dstPos) 16) :
    encGcm128Tag s = completeOk (s.eng.dstPos + 16)
      { s with mem := s.mem.setBytes (s.desc.dstAddr + s.eng.dstPos) (blockBytes (gcmTag s.eng)) } := by
  rw [encGcm128Tag, writeRun_ok _ _ _ _ (by rwa [blockBytes_length])]

theorem encGcm128Tag_fault {s : State} {i : Nat} (hi : i < 16)
    (hok : writesOk s.cfg (s.desc.dstAddr + s.eng.dstPos) i)
    (hbad : memOk s.cfg (s.desc.dstAddr + s.eng.dstPos + BitVec.ofNat 32 i) .write = false) :
    encGcm128Tag s = completeErr .memoryFault (s.desc.dstAddr + s.eng.dstPos + BitVec.ofNat 32 i)
      { s with mem := s.mem.setBytes (s.desc.dstAddr + s.eng.dstPos) ((blockBytes (gcmTag s.eng)).take i) } := by
  rw [encGcm128Tag, writeRun_stops _ _ _ _ i (by rwa [blockBytes_length]) hok hbad]
  rfl

/-- A 16-byte string and a block are the same when the string is the block's bytes (R8). -/
theorem bytesBlock_eq_iff {bs : List Byte} (h : bs.length = 16) (b : Block) :
    bytesBlock bs = b ↔ bs = blockBytes b := by
  constructor
  · rintro rfl
    exact (blockBytes_bytesBlock bs h).symm
  · rintro rfl
    exact bytesBlock_blockBytes b

/-- The received tag against the computed one, once its bytes are read (R124, R190). -/
theorem decGcm128Tag_ok {s : State} (hok : readsOk s.cfg (s.desc.srcAddr + s.eng.tLen) 16) :
    decGcm128Tag s =
      if s.mem.bytesAt (s.desc.srcAddr + s.eng.tLen) 16 = blockBytes (gcmTag s.eng) then completeOk s.eng.dstPos s
      else { s with
        eng := lateError .authenticationFailure { s.eng with tag := recvTag s, y := gcmFinalHash s.eng } } := by
  simp only [decGcm128Tag, readRun_ok _ _ _ _ hok, bytesBlock_eq_iff (Memory.bytesAt_length _ _ 16)]
  rfl

theorem decGcm128Tag_fault {s : State} {i : Nat} (hi : i < 16)
    (hok : readsOk s.cfg (s.desc.srcAddr + s.eng.tLen) i)
    (hbad : memOk s.cfg (s.desc.srcAddr + s.eng.tLen + BitVec.ofNat 32 i) .read = false) :
    decGcm128Tag s = completeErr .memoryFault (s.desc.srcAddr + s.eng.tLen + BitVec.ofNat 32 i) s := by
  rw [decGcm128Tag, readRun_stops _ _ _ _ i hi hok hbad]
  rfl

/-- Settles O32: the tag is written or compared whole, or the first failing access ends the step. -/
theorem tagSteps : Obligations.TagSteps := by
  intro s y t hd hy ht
  obtain rfl : y = gcmFinalHash s.eng := hy
  obtain rfl : t = gcmTag s.eng := ht
  refine ⟨fun hop => ?_, fun hop => ?_⟩ <;> rw [engineStep_tag hd hop]
  · exact ⟨fun hok => congrArg _ (encGcm128Tag_ok hok),
      fun i hi hok hbad => congrArg _ (encGcm128Tag_fault hi hok hbad)⟩
  · exact ⟨fun hok => ⟨fun hmatch => congrArg _ ((decGcm128Tag_ok hok).trans (if_pos hmatch)),
        fun hdiff => congrArg _ ((decGcm128Tag_ok hok).trans (if_neg hdiff))⟩,
      fun i hi hok hbad => congrArg _ (decGcm128Tag_fault hi hok hbad)⟩

/-! ## The round trip -/

/-- The same keystream twice gives the string back (R122). -/
theorem gctr_gctr (k cb : Block) (x : List Byte) : gctr k cb (gctr k cb x) = x := ctrRoundTrip 32 k cb x

theorem gcmEnc_length (k : Block) (n : BitVec 96) (a p : List Byte) : (gcmEnc k n a p).length = p.length + 16 := by
  simp [gcmEnc]

/-- GCM_DEC of a ciphertext and a tag compares the tag with the ciphertext's and decrypts when they agree (R181). -/
theorem gcmDec_append (k t : Block) (n : BitVec 96) (a c : List Byte) :
    gcmDec k n a (c ++ blockBytes t) =
      if t = gcmTagOf k n a c then some (gctr k (incBlock 32 (j0Block n)) c) else none := by
  have hlen : (c ++ blockBytes t).length = c.length + 16 := by simp
  have htag : blockBytes t = blockBytes (gcmTagOf k n a c) ↔ t = gcmTagOf k n a c :=
    ⟨blockBytes_injective _ _, congrArg _⟩
  rw [gcmDec, if_neg (by omega), hlen, Nat.add_sub_cancel, List.take_left, List.drop_left]
  simp only [htag]

/-- GCM_DEC gives 16 bytes less than it takes (R181). -/
theorem length_of_gcmDec {k : Block} {n : BitVec 96} {a x p : List Byte} (h : gcmDec k n a x = some p) :
    p.length = x.length - 16 := by
  unfold gcmDec at h
  split at h
  · cases h
  · dsimp only at h
    split at h <;> cases h
    simp

/-- Settles O53: the tag at the end is the ciphertext's own exactly when decryption takes it. -/
theorem gcmRoundTrip : Obligations.GcmRoundTrip := by
  refine ⟨fun k n a p => ?_, fun k t n a c => ?_⟩
  · rw [gcmEnc, gcmDec_append, if_pos rfl, gctr_gctr]
  · simp [gcmDec_append]

/-! ## The operations -/

/-- The state with the AAD still to come absorbed, which is where phase DATA of the operation starts from (R186). -/
def aadAbsorbed (s : State) : State :=
  { s with eng := { s.eng with y := ghashFrom s.eng.h s.eng.y (aadRest s) } }

section
variable {op : CipherOp} {z : Bool} {s : State}

theorem result_begun_gcm (hg : op.isGcm = true) :
    result op (begun op z s) = dataResult op (aadAbsorbed (begun op z s)) :=
  if_pos (by simp [begun, initStep, hg])

/-- The nonce LOAD_IV read is the operation's (R47, R217). -/
theorem nonceOf_begun (hg : op.isGcm = true) : nonceOf (begun op z s).eng.iv = gcmNonceOf s := by
  cases op <;> cases hg <;> exact nonce_iv s.mem s.desc.ivAddr

/-- What INIT sets up for a GCM operation (R185). -/
theorem gcm_begun (hg : op.isGcm = true) :
    (begun op z s).eng.key = keyOf s ∧ (begun op z s).eng.h = blockE (keyOf s) 0 ∧
      (begun op z s).eng.ej0 = blockE (keyOf s) (j0Block (gcmNonceOf s)) ∧
      (begun op z s).eng.cb = incBlock 32 (j0Block (gcmNonceOf s)) ∧ (begun op z s).eng.y = 0 := by
  rw [← nonceOf_begun (z := z) hg]
  cases op <;> cases hg <;> exact ⟨rfl, rfl, rfl, rfl, rfl⟩

/-- After INIT the whole AAD is still to come (R185). -/
theorem aadRest_begun (hg : op.isGcm = true) : aadRest (begun op z s) = aadOf z s := by
  cases op <;> cases hg <;> simp [aadRest, aadOf, begun, initStep, modeInit, gcmInit]

/-- The AAD length of the length block is the AAD's (R120, R185). -/
theorem aadBytes_begun (hg : op.isGcm = true) : (begun op z s).eng.aadBytes.toNat = (aadOf z s).length := by
  cases op <;> cases hg <;> cases z <;> simp [aadOf, begun, initStep, modeInit, gcmInit]

/-- The tag the engine computes once the AAD and the whole ciphertext are absorbed is the reference's (R123). -/
theorem tagAfter_begun (hg : op.isGcm = true) {c : List Byte} (hc : c.length = (textLen op s.desc.srcLen).toNat) :
    tagAfter (aadAbsorbed (begun op z s)).eng c = gcmTagOf (keyOf s) (gcmNonceOf s) (aadOf z s) c := by
  obtain ⟨-, hh, hej0, -, hy⟩ := gcm_begun (z := z) (s := s) hg
  have htext : (begun op z s).eng.tLen = textLen op s.desc.srcLen := rfl
  simp only [tagAfter, aadAbsorbed, gcmTagOf_eq, hh, hej0, hy, htext, hc, aadRest_begun hg, aadBytes_begun hg]

end

/-- What an encryption comes to with the AAD still to be absorbed (R192). -/
theorem dataResult_encGcm128 (t : State) {c : List Byte} (hc : c = gctr t.eng.key t.eng.cb (restText t)) :
    dataResult .encGcm128 (aadAbsorbed t) =
      endsOk t (t.eng.outq ++ (c ++ blockBytes (tagAfter (aadAbsorbed t).eng c))) := by
  subst hc
  rfl

/-- What a decryption comes to with the AAD still to be absorbed: the received tag decides (R190, R191). -/
theorem dataResult_decGcm128 (t : State) :
    dataResult .decGcm128 (aadAbsorbed t) =
      if recvTag t = tagAfter (aadAbsorbed t).eng (restText t) then
        endsOk t (t.eng.outq ++ gctr t.eng.key t.eng.cb (restText t))
      else endsLate t .authenticationFailure t.eng.tLen.toNat := rfl

/-- From INIT on an encryption comes to GCM_ENC's bytes (R180, R192). -/
theorem result_begun_encGcm128 {z : Bool} {s : State} (h : Ready .encGcm128 z s) :
    result .encGcm128 (begun .encGcm128 z s) =
      finishedOk (gcmEnc (keyOf s) (gcmNonceOf s) (aadOf z s) (srcOf s)) s := by
  obtain ⟨hkey, -, -, hcb, -⟩ := gcm_begun (op := .encGcm128) (z := z) (s := s) rfl
  have hsrc : restText (begun .encGcm128 z s) = srcOf s := restText_begun h
  rw [result_begun_gcm rfl, dataResult_encGcm128 _ rfl, outq_begun h, hkey, hcb, hsrc,
    tagAfter_begun rfl (by simp [srcOf, textLen])]
  exact endsOk_begun _

/-- Memory holds the ciphertext and then the received tag (R184, R218). -/
theorem srcOf_decGcm128 {z : Bool} {s : State} (h : Ready .decGcm128 z s) :
    srcOf s = restText (begun .decGcm128 z s) ++ blockBytes (recvTag (begun .decGcm128 z s)) := by
  obtain ⟨hlen, -, hmin, -⟩ := checkError_textLen h.checks
  have hsplit : s.desc.srcLen.toNat = (textLen .decGcm128 s.desc.srcLen).toNat + 16 := by
    rw [hlen, if_pos rfl, Nat.sub_add_cancel (hmin rfl)]
  rw [srcOf, hsplit, Memory.bytesAt_add, restText_begun h, recvTag,
    blockBytes_bytesBlock _ (Memory.bytesAt_length _ _ 16), ← word_eq_ofNat]
  rfl

/-- From INIT on a decryption comes to GCM_DEC's bytes, or to AuthenticationFailure (R181, R191, R192). -/
theorem result_begun_decGcm128 {z : Bool} {s : State} (h : Ready .decGcm128 z s) :
    result .decGcm128 (begun .decGcm128 z s) =
      match gcmDec (keyOf s) (gcmNonceOf s) (aadOf z s) (srcOf s) with
      | some p => finishedOk p s
      | none => finishedLate .authenticationFailure (s.desc.srcLen.toNat - 16) s := by
  obtain ⟨hkey, -, -, hcb, -⟩ := gcm_begun (op := .decGcm128) (z := z) (s := s) rfl
  obtain ⟨hlen, -⟩ := checkError_textLen h.checks
  have htext : (begun .decGcm128 z s).eng.tLen.toNat = s.desc.srcLen.toNat - 16 := hlen.trans (if_pos rfl)
  rw [result_begun_gcm rfl, dataResult_decGcm128, outq_begun h, hkey, hcb, htext,
    tagAfter_begun rfl (by simp [restText_begun h]), srcOf_decGcm128 h, gcmDec_append]
  split
  · exact endsOk_begun _
  · exact endsLate_begun .authenticationFailure _

/-- Settles O46: each command runs to what it comes to after INIT, which is the reference function's result. -/
theorem gcmOperationsGiveTheReference : Obligations.GcmOperationsGiveTheReference := by
  refine ⟨fun z s h => ?_, fun z s h => ?_⟩
  · obtain ⟨t, ht, n, hn, hr⟩ := h.exec_run (i := .encGcm128 z) (fun _ => rfl) rfl
    exact ⟨t, ht, n, hn, hr.trans (congrArg _ (result_begun_encGcm128 h)), by simp [gcmEnc_length, srcOf]⟩
  · obtain ⟨t, ht, n, hn, hr⟩ := h.exec_run (i := .decGcm128 z) (fun _ => rfl) rfl
    exact ⟨t, ht, n, hn, hr.trans (congrArg _ (result_begun_decGcm128 h)),
      fun p hp => (length_of_gcmDec hp).trans (by simp [srcOf])⟩

end Sys2Proof.Machine
end

section
/-! The commands and the steps that run them (O7 to O10, O38), and that every accepted operation ends (O43)
(spec/44_stream_manager.md R210 to R213, R234, R239 to R241). -/

namespace Sys2Proof.Machine

/-! ## What a command does -/

/-- Every command but NOP starts the operation that its word's OP and AADZ bits name (R81, R82, R210). -/
theorem exec_eq_startOperation {i : Instr} (hi : i ≠ .nop) :
    ∃ op z, op.code = (encode i).extractLsb' 0 4 ∧ z = (encode i).getLsbD 8 ∧ (z = true → op.isGcm = true) ∧
      ∀ s, exec i s = .next (startOperation op z s) := by
  cases i with
  | nop => exact absurd rfl hi
  | encCbc128 => exact ⟨.encCbc128, false, by decide, by decide, by decide, fun _ => rfl⟩
  | decCbc128 => exact ⟨.decCbc128, false, by decide, by decide, by decide, fun _ => rfl⟩
  | encCtr128 => exact ⟨.encCtr128, false, by decide, by decide, by decide, fun _ => rfl⟩
  | decCtr128 => exact ⟨.decCtr128, false, by decide, by decide, by decide, fun _ => rfl⟩
  | encGcm128 z => exact ⟨.encGcm128, z, by revert z; decide, by revert z; decide, fun _ => rfl, fun _ => rfl⟩
  | decGcm128 z => exact ⟨.decGcm128, z, by revert z; decide, by revert z; decide, fun _ => rfl, fun _ => rfl⟩

/-- A command changes nothing, or sets IGN, or is accepted (R210, R213). -/
theorem exec_cases {i : Instr} {s t : State} (h : exec i s = .next t) :
    t = s ∨ t = s.setIgn ∨ ∃ op z, t = acceptCommand op z s := by
  by_cases hi : i = .nop
  · subst hi; cases h; exact .inl rfl
  · obtain ⟨op, z, -, -, -, hexec⟩ := exec_eq_startOperation hi
    rw [hexec s] at h
    cases h
    by_cases hb : s.status.state = .busy
    · exact .inr (.inl (startOperation_busy hb op z))
    · exact .inr (.inr ⟨op, z, startOperation_notBusy hb op z⟩)

/-- A legal word written to CMD is its command (R210). -/
theorem writeCmd_legal {w : Word} {i : Instr} (h : decode w = .ok i) (s : State) : writeCmd w s = exec i s := by
  simp only [writeCmd, h]

/-- Settles O7: NOP's word is 0, and no other word with OP 0 is legal. -/
theorem nopChangesNothing : Obligations.NopChangesNothing := by
  refine ⟨fun s => ⟨rfl, writeCmd_legal (decode_encode .nop) s⟩, fun w s hw hop hb => ?_⟩
  have hillegal : ∀ i, decode w ≠ .ok i := fun i hi => hw ((exists_decode_iff_eq_zero hop).mp ⟨i, hi⟩)
  rw [writeCmd_illegal hillegal, illegalWrite_notBusy hb]
  rfl

/-- Settles O8: the command is accepted, and in a legal state the internal registers were zero before. -/
theorem commandStartsItsOperation : Obligations.CommandStartsItsOperation := by
  intro i s hi hb
  obtain ⟨op, z, hcode, haadz, -, hexec⟩ := exec_eq_startOperation hi
  refine ⟨?_, fun hinv => ?_⟩
  · rw [hexec s, startOperation_notBusy hb, ← hcode, ← haadz]
    rfl
  · rw [hinv.idleEng (by simpa using hb)]
    rfl

/-- Settles O9: while BUSY the command is ignored, and in every state it does one of three things. -/
theorem commandFrame : Obligations.CommandFrame := by
  refine ⟨fun i s hi hb => ?_, fun i s t h => ?_⟩
  · obtain ⟨op, z, -, -, -, hexec⟩ := exec_eq_startOperation hi
    rw [hexec s, startOperation_busy hb]
    rfl
  · rcases exec_cases h with rfl | rfl | ⟨op, z, rfl⟩ <;>
      exact ⟨rfl, rfl, rfl, rfl, rfl, rfl, fun _ => rfl, rfl⟩

/-! ## The schedule of a step -/

/-- The access that is due is made in the step (log entry 3). -/
theorem step_due {s : State} {together : Bool} {op : HostOp} {rest : List HostInput}
    (h : s.inputs = { after := 0, together := together, op := op } :: rest) :
    step s = hostStep together op { s with inputs := rest } := by
  simp only [step, h]

/-- Until an access's time has come the step is the engine's. -/
theorem step_later {s : State} {n : Nat} {together : Bool} {op : HostOp} {rest : List HostInput}
    (h : s.inputs = { after := n + 1, together := together, op := op } :: rest) :
    step s = engineStep { s with inputs := { after := n, together := together, op := op } :: rest } := by
  simp only [step, h]

theorem hostStep_apart (op : HostOp) (s : State) : hostStep false op s = hostAct op s := by
  unfold hostStep
  split
  case h_1 t ht => rw [ht]; exact if_neg (by simp)
  case h_2 f hf => exact hf.symm
  case h_3 r hr => exact hr.symm

/-- An access that lands together with the engine's step comes before it (R41, log entry 5). -/
theorem hostStep_together {op : HostOp} {s t : State} (h : hostAct op s = .next t) :
    hostStep true op s = if s.eng.ph = .none then .next t else engineStep t := by
  by_cases hph : s.eng.ph = .none <;> simp [hostStep, h, hph]

theorem hostStep_refused {op : HostOp} {s : State} {r : Refusal} (h : hostAct op s = .refused r)
    (together : Bool) : hostStep together op s = .refused r := by
  simp only [hostStep, h]

/-- The host's write of a legal word to CMD is its command (R86, R210). -/
theorem hostAct_wr_cmd {s : State} {w : Word} {i : Instr} (h : decode w = .ok i) (rest : List HostInput) :
    hostAct (wr s.cfg .cmd w) { s with inputs := rest } = exec i { s with inputs := rest } :=
  (busWrite_cmd w { s with inputs := rest }).trans (writeCmd_legal h _)

/-- The placed word is the host's next access, due at once (log entry 8). -/
theorem withFetchWord_inputs (s : State) (w : Word) :
    (s.withFetchWord 32 w.toNat).inputs =
      { after := 0, together := false, op := wr s.cfg .cmd w } :: s.inputs := by
  rw [State.withFetchWord, Nat.mod_eq_of_lt w.isLt, BitVec.ofNat_toNat, BitVec.setWidth_eq]
  rfl

/-- Settles O10: the step's schedule, access by access, and the CMD write as one of them. -/
theorem stepRunsTheDecodedCommand : Obligations.StepRunsTheDecodedCommand := by
  refine ⟨fun s w i rest hw => ⟨fun h => ?_, fun h t ht => ?_, ?_⟩,
    fun s op rest => ⟨fun h => ?_, fun h t ht => ?_, fun together r h hr => ?_, fun n together h => step_later h,
      step_of_no_inputs s⟩,
    fun s addr size v => ⟨rfl, rfl⟩⟩
  · rw [step_due h, hostStep_apart, hostAct_wr_cmd hw]
  · rw [step_due h, hostStep_together ((hostAct_wr_cmd hw rest).trans ht)]
  · rw [step_due (withFetchWord_inputs s w), hostStep_apart]
    exact hostAct_wr_cmd hw s.inputs
  · rw [step_due h, hostStep_apart]
  · rw [step_due h, hostStep_together ht]
  · rw [step_due h, hostStep_refused hr]

/-! ## Every step goes on, to the operation's end -/

/-- In a legal state the engine has a next state, with an operation running or without (R240). -/
theorem Inv.engineStep_next {s : State} (h : Inv s) : ∃ t, engineStep s = .next t := by
  by_cases hact : s.eng.ph = .none
  · exact ⟨s, engineStep_idle s hact⟩
  · obtain ⟨op, -, t, ht, -⟩ := engine_progress s h hact
    exact ⟨t, ht⟩

theorem Inv.engineStep_ne_fault {s : State} (h : Inv s) (f : Fault) : engineStep s ≠ .fault f := by
  obtain ⟨t, ht⟩ := h.engineStep_next
  simp [ht]

/-- The host's access does not fault, and leaves the engine a legal state. -/
theorem Inv.hostStep_ne_fault {s : State} (h : Inv s) (together : Bool) (op : HostOp) (f : Fault) :
    hostStep together op s ≠ .fault f := by
  unfold hostStep
  split
  case h_1 t ht =>
    split
    · exact (inv_hostAct h op ht).engineStep_ne_fault f
    · simp
  case h_2 g hg => exact absurd hg (hostAct_ne_fault op s g)
  case h_3 => simp

/-- Settles O38: neither of a step's two agents faults. -/
theorem legalStatesNeverFault : Obligations.LegalStatesNeverFault := by
  refine fun s h => ⟨fun f => ?_, h.engineStep_next⟩
  unfold step
  split
  case h_1 => exact h.engineStep_ne_fault f
  case h_2 inp rest _ =>
    split
    · exact (h.congr_io rest s.rdata).hostStep_ne_fault _ _ f
    · exact (h.congr_io _ s.rdata).engineStep_ne_fault f

/-- An accepted command's operation runs, in phase CHECK (R211). -/
theorem Inv.running_acceptCommand {s : State} (h : Inv s) (hb : s.status.state ≠ .busy) (op : CipherOp) {z : Bool}
    (hz : z = true → op.isGcm = true) : Running op (acceptCommand op z s) := by
  have hacc : Inv (acceptCommand op z s) := startOperation_notBusy hb op z ▸ inv_start h op z hz
  obtain ⟨op', hop', haadz, hph⟩ := hacc.running.active (by simp)
  obtain rfl : op = op' := Option.some.inj ((CipherOp.ofCode_code op).symm.trans hop')
  exact ⟨hacc, by simp, hop', haadz, hph⟩

/-- A running operation that nothing disturbs completes, with an error or without, within the steps it has left: by
induction on these (R234, R239). -/
theorem Running.completes {op : CipherOp} {s : State} (h : Running op s) (hin : s.inputs = []) :
    ∃ n ≤ stepsLeft op s.desc s.eng, ∃ u, run n s = .next u ∧ Completed u := by
  induction hm : stepsLeft op s.desc s.eng using Nat.strongRecOn generalizing s with
  | ind m ih =>
    have hpos : 0 < stepsLeft op s.desc s.eng := stepsLeft_pos h.act
    have hbusy : s.status.state = .busy := h.inv.running.busy.mpr h.act
    obtain ⟨t, ht, hit, hend⟩ := h.ends_or_goes_on
    have hstep : step s = .next t := (step_of_no_inputs s hin).trans ht
    rcases hend with hended | ⟨hr, hlt⟩
    · rcases engineStep_state_or_completed ht with hstate | hdone
      · exact absurd hended (hit.running.busy.mp (hstate.trans hbusy))
      · exact ⟨1, by omega, t, run_succ 0 s t hstep, hdone⟩
    · obtain ⟨n, hn, u, hu, hdone⟩ := ih _ (hm ▸ hlt) hr ((engineStep_frame s t ht).inputs.trans hin) rfl
      exact ⟨n + 1, by omega, u, (run_succ n s t hstep).trans hu, hdone⟩

/-- R239's bound covers an operation from its acceptance on. -/
theorem stepsLeft_acceptCommand_le (op : CipherOp) (z : Bool) (s : State) :
    stepsLeft op (acceptCommand op z s).desc (acceptCommand op z s).eng ≤ stepBound op s.desc := by
  have hcheck : stepsLeft op (acceptCommand op z s).desc (acceptCommand op z s).eng =
      8 + budget op s.desc + (s.desc.aadLen.toNat + 15) / 16 := rfl
  rw [hcheck, stepBound, budget]
  omega

/-- Settles O43: the command is accepted, and its operation has at most the bound's steps left. -/
theorem operationEndsWithinItsBound : Obligations.OperationEndsWithinItsBound := by
  intro s i op h hb hin hi hop
  obtain ⟨op', z, hcode, -, hz, hexec⟩ := exec_eq_startOperation hi
  obtain rfl : op' = op := CipherOp.code_injective _ _ (hcode.trans hop)
  obtain ⟨n, hn, u, hu, hdone⟩ := (h.running_acceptCommand hb op' hz).completes hin
  exact ⟨_, (hexec s).trans (congrArg _ (startOperation_notBusy hb op' z)), n,
    hn.trans (stepsLeft_acceptCommand_le op' z s), u, hu, hdone.state⟩

end Sys2Proof.Machine
end

section
/-! The phases CHECK, LOAD_KEY, LOAD_IV and INIT (O18 to O22) (spec/44_stream_manager.md R214 to R218). -/

namespace Sys2Proof.Machine

/-! ## The step of each phase -/

section
variable {op : CipherOp} {s : State}

theorem engineStep_check (hd : s.eng.ph = .check) (hop : CipherOp.ofCode s.eng.op = some op) :
    engineStep s = .next (checkStep op s) := by
  rw [engineStep_active s op (by simp [hd]) hop]
  simp [phaseStep, hd]

theorem engineStep_loadKey (hd : s.eng.ph = .loadKey) (hop : CipherOp.ofCode s.eng.op = some op) :
    engineStep s = .next (loadKeyStep s) := by
  rw [engineStep_active s op (by simp [hd]) hop]
  simp [phaseStep, hd]

theorem engineStep_loadIv (hd : s.eng.ph = .loadIv) (hop : CipherOp.ofCode s.eng.op = some op) :
    engineStep s = .next (loadIvStep op s) := by
  rw [engineStep_active s op (by simp [hd]) hop]
  simp [phaseStep, hd]

theorem engineStep_init (hd : s.eng.ph = .init) (hop : CipherOp.ofCode s.eng.op = some op) :
    engineStep s = .next (initStep op s) := by
  rw [engineStep_active s op (by simp [hd]) hop]
  simp [phaseStep, hd]

end

/-! ## The checks -/

theorem CipherOp.isGcm_iff (op : CipherOp) : op.isGcm = true ↔ op = .encGcm128 ∨ op = .decGcm128 := by
  cases op <;> decide

theorem ivBytes_eq (op : CipherOp) : ivBytes op = if op = .encGcm128 ∨ op = .decGcm128 then 12 else 16 := by
  simp only [ivBytes, op.isGcm_iff]

theorem ivBytes_le (op : CipherOp) : ivBytes op ≤ 16 := by
  cases op <;> decide

/-- Settles O18: CHECK's outcome in each case of its first failing check. -/
theorem checksInTheirOrder : Obligations.ChecksInTheirOrder := by
  intro s op hd hop
  rw [engineStep_check hd hop, checkStep, checkError, ivBytes_eq]
  split_ifs <;> rfl

/-- Settles O19: the padding fills the last block, and the others are R215's differences. -/
theorem requiredDestinationLength : Obligations.RequiredDestinationLength := by
  refine fun n => ⟨?_, rfl, fun h => ?_, rfl, rfl, rfl, fun h => Nat.sub_add_cancel h⟩
  · have hpad := padLen_fills_block n
    change 16 * (n / 16 + 1) = n + padLen n
    omega
  · exact Nat.sub_add_cancel (show 1 ≤ n by omega)

/-! ## The key and the IV -/

/-- Byte `i` of the block a 16-byte string stands for is byte `i` of the string (R8). -/
theorem blockByte_bytesBlock {bs : List Byte} (h : bs.length = 16) {i : Nat} (hi : i < bs.length) :
    blockByte (bytesBlock bs) i = bs[i] := by
  rw [← blockBytes_getElem _ i (by rw [blockBytes_length]; omega), List.getElem_of_eq (blockBytes_bytesBlock bs h)]

theorem loadKeyStep_ok {s : State} (h : readsOk s.cfg s.desc.keyAddr 16) :
    loadKeyStep s = { s with
      eng := { s.eng with key := bytesBlock (s.mem.bytesAt s.desc.keyAddr 16), ph := .loadIv } } := by
  rw [loadKeyStep, readRun_ok _ _ _ _ h]

theorem loadKeyStep_fault {s : State} {i : Nat} (hi : i < 16) (hok : readsOk s.cfg s.desc.keyAddr i)
    (hbad : memOk s.cfg (s.desc.keyAddr + BitVec.ofNat 32 i) .read = false) :
    loadKeyStep s = completeErr .memoryFault (s.desc.keyAddr + BitVec.ofNat 32 i) s := by
  rw [loadKeyStep, readRun_stops _ _ _ _ i hi hok hbad]
  rfl

/-- Settles O20: LOAD_KEY's read run gives the bytes or stops at the first that fails. -/
theorem loadKeyReadsTheKey : Obligations.LoadKeyReadsTheKey := by
  intro s op hd hop
  rw [engineStep_loadKey hd hop]
  refine ⟨fun hok => ⟨_, congrArg _ (loadKeyStep_ok hok), rfl, fun i hi => ?_⟩,
    fun i hi hok hbad => congrArg _ (loadKeyStep_fault hi hok hbad)⟩
  rw [← Memory.bytesAt_getElem _ _ 16 i (by simpa using hi)]
  exact blockByte_bytesBlock (Memory.bytesAt_length _ _ 16) _

/-- A block with its first `n` bytes replaced by `n` bytes of memory (R217). -/
theorem blockByte_loaded (m : Memory) (a : Addr) (x : Block) {n i : Nat} (hn : n ≤ 16) (hi : i < 16) :
    blockByte (bytesBlock (m.bytesAt a n ++ (blockBytes x).drop n)) i =
      if i < n then m.byteAt (a + BitVec.ofNat 32 i) else blockByte x i := by
  have hlen : (m.bytesAt a n ++ (blockBytes x).drop n).length = 16 := by
    simp
    omega
  rw [blockByte_bytesBlock hlen (by omega), List.getElem_append]
  split
  case isTrue hlt => rw [if_pos (by simpa using hlt), Memory.bytesAt_getElem]
  case isFalse hge =>
    simp only [Memory.bytesAt_length] at hge
    simp only [Memory.bytesAt_length, List.getElem_drop, blockBytes_getElem, if_neg hge]
    rw [Nat.add_sub_cancel' (Nat.le_of_not_lt hge)]

theorem loadIvStep_ok {op : CipherOp} {s : State} (h : readsOk s.cfg s.desc.ivAddr (ivBytes op)) :
    loadIvStep op s = { s with
      eng := { s.eng with
        iv := bytesBlock (s.mem.bytesAt s.desc.ivAddr (ivBytes op) ++ (blockBytes s.eng.iv).drop (ivBytes op))
        ph := .init } } := by
  rw [loadIvStep, readRun_ok _ _ _ _ h]

theorem loadIvStep_fault {op : CipherOp} {s : State} {i : Nat} (hi : i < ivBytes op)
    (hok : readsOk s.cfg s.desc.ivAddr i)
    (hbad : memOk s.cfg (s.desc.ivAddr + BitVec.ofNat 32 i) .read = false) :
    loadIvStep op s = completeErr .memoryFault (s.desc.ivAddr + BitVec.ofNat 32 i) s := by
  rw [loadIvStep, readRun_stops _ _ _ _ i hi hok hbad]
  rfl

/-- Settles O21: LOAD_IV's read run gives the bytes that replace the first ones of `S.iv`, or stops at the first that
fails. -/
theorem loadIvReadsTheIv : Obligations.LoadIvReadsTheIv := by
  intro s op hd hop n hn
  obtain rfl : n = ivBytes op := hn.trans (ivBytes_eq op).symm
  rw [engineStep_loadIv hd hop]
  have hle := ivBytes_le op
  refine ⟨fun hok => ⟨_, congrArg _ (loadIvStep_ok hok), rfl, fun i hi => ?_, fun i hi hge => ?_⟩,
    fun i hi hok hbad => congrArg _ (loadIvStep_fault hi hok hbad)⟩
  · exact (blockByte_loaded _ _ _ hle (by omega)).trans (if_pos hi)
  · exact (blockByte_loaded _ _ _ hle hi).trans (if_neg (Nat.not_lt.mpr hge))

/-! ## INIT -/

/-- The nonce stands in the first 12 bytes of J0 (R121). -/
theorem blockByte_j0Block_nonceOf (iv : Block) {k : Nat} (hk : k < 12) :
    blockByte (j0Block (nonceOf iv)) k = blockByte iv k := by
  refine BitVec.eq_of_getLsbD_eq fun b hb => ?_
  simp only [blockByte, j0Block, nonceOf, BitVec.getLsbD_extractLsb', BitVec.getLsbD_append]
  rw [if_neg (by omega), decide_eq_true hb, decide_eq_true (show 8 * (15 - k) + b - 32 < 96 by omega),
    Nat.add_sub_cancel' (show 32 ≤ 8 * (15 - k) + b by omega), Bool.true_and]

theorem setWidth_j0Block (n : BitVec 96) : (j0Block n).setWidth 32 = 1#32 := by
  rw [j0Block, BitVec.setWidth_append, dif_pos (Nat.le_refl 32), BitVec.setWidth_eq]

/-- The last four bytes of a block are those of its low word (R8). -/
theorem blockByte_of_low (x : Block) {k : Nat} (hk : 12 ≤ k) :
    blockByte x k = (x.setWidth 32).extractLsb' (8 * (15 - k)) 8 := by
  refine BitVec.eq_of_getLsbD_eq fun b hb => ?_
  simp only [blockByte, BitVec.getLsbD_extractLsb', BitVec.getLsbD_setWidth]
  rw [decide_eq_true (show 8 * (15 - k) + b < 32 by omega), Bool.true_and]

/-- J0 is the block whose bytes are the 12 nonce bytes and `00 00 00 01` (R121). -/
theorem eq_j0Block {j0 iv : Block} (hnonce : ∀ k < 12, blockByte j0 k = blockByte iv k)
    (hone : j0.setWidth 32 = 1#32) : j0 = j0Block (nonceOf iv) := by
  refine blockByte_ext _ _ fun k hk => ?_
  by_cases hlt : k < 12
  · rw [hnonce k hlt, blockByte_j0Block_nonceOf iv hlt]
  · have hge : 12 ≤ k := Nat.le_of_not_lt hlt
    rw [blockByte_of_low j0 hge, blockByte_of_low _ hge, hone, setWidth_j0Block]

/-- Settles O22: INIT command by command, J0 being the model's. -/
theorem initSetsUpTheMode : Obligations.InitSetsUpTheMode := by
  intro s op hd hop
  rw [engineStep_init hd hop]
  refine ⟨?_, ?_, fun hgcm j0 hnonce hone => ?_⟩
  · rintro (rfl | rfl) <;> rfl
  · rintro (rfl | rfl) <;> rfl
  · rw [eq_j0Block hnonce hone]
    rcases hgcm with rfl | rfl <;> rfl

end Sys2Proof.Machine
end

section
/-! The staging loop (O28 to O31), the phase ZERO and the completions (O33, O34)
(spec/44_stream_manager.md R220 to R229, R236 to R238). -/

namespace Sys2Proof.Machine

/-! ## Step selection in phase DATA -/

theorem exhausted_iff (e : Engine) : exhausted e = true ↔ e.srcPos = e.tLen := by
  simp [exhausted]

theorem streamUnitReady_iff (e : Engine) :
    streamUnitReady e = true ↔
      16 ≤ e.inq.length ∨ e.srcPos = e.tLen ∧ 0 < e.inq.length ∧ e.inq.length < 16 := by
  simp [streamUnitReady, exhausted, and_assoc]

/-- `unit_ready` as R220 defines it, command by command. -/
theorem unitReady_iff (op : CipherOp) (e : Engine) :
    unitReady op e = true ↔
      (op = .encCbc128 ∧ (16 ≤ e.inq.length ∨ e.srcPos = e.tLen ∧ e.tailDone = false)) ∨
      (op = .decCbc128 ∧ 16 ≤ e.inq.length) ∨
      ((op = .encCtr128 ∨ op = .decCtr128 ∨ op = .encGcm128 ∨ op = .decGcm128) ∧
        (16 ≤ e.inq.length ∨ e.srcPos = e.tLen ∧ 0 < e.inq.length ∧ e.inq.length < 16)) := by
  cases op with
  | encCbc128 => simp [unitReady, exhausted]
  | decCbc128 => simp [unitReady]
  | encCtr128 | decCtr128 | encGcm128 | decGcm128 => simp [unitReady, streamUnitReady_iff]

section
variable {op : CipherOp} {s : State}

theorem engineStep_data (hd : s.eng.ph = .data) (hop : CipherOp.ofCode s.eng.op = some op) :
    engineStep s = dataStep op s := by
  rw [engineStep_active s op (by simp [hd]) hop]
  simp [phaseStep, hd]

theorem dataStep_xform (hready : unitReady op s.eng = true) (hroom : 16 ≤ freeOut s) :
    dataStep op s = xformStep op s := by
  simp [dataStep, hready, hroom]

theorem dataStep_overflow (hready : unitReady op s.eng = true) (hfull : freeOut s < 16) :
    dataStep op s = .next (drainStep s) := by
  simp [dataStep, overflow, hready, hfull]

theorem dataStep_feed (hready : unitReady op s.eng = false) (hex : exhausted s.eng = false) :
    dataStep op s = .next (feedStep s) := by
  simp [dataStep, overflow, underflow, hready, hex]

theorem dataStep_finalDrain (hready : unitReady op s.eng = false) (hex : exhausted s.eng = true)
    (hout : 0 < s.eng.outq.length) : dataStep op s = .next (drainStep s) := by
  simp only [dataStep, overflow, underflow, hready, hex, if_pos hout]
  rfl

theorem dataStep_endOfData (hready : unitReady op s.eng = false) (hex : exhausted s.eng = true)
    (hout : s.eng.outq.length = 0) : dataStep op s = .next (endOfData op s) := by
  simp [dataStep, overflow, underflow, hready, hex, hout]

end

/-- Settles O28: R222's lines, each under its condition. -/
theorem stepSelectionInData : Obligations.StepSelectionInData := by
  rintro s op r free ex ready hd hop rfl rfl hex hready
  have hex' : ex ↔ exhausted s.eng = true := hex.trans (exhausted_iff s.eng).symm
  have hready' : ready ↔ unitReady op s.eng = true := by rw [unitReady_iff, hready, hex]
  rw [engineStep_data hd hop, hex', hready', Bool.not_eq_true, Bool.not_eq_true]
  exact ⟨fun ⟨hu, hroom⟩ => dataStep_xform hu hroom, fun ⟨hu, hfull⟩ => dataStep_overflow hu hfull,
    fun ⟨hu, he⟩ => dataStep_feed hu he, fun ⟨hu, he, hout⟩ => dataStep_finalDrain hu he hout,
    fun ⟨hu, he, hout⟩ => dataStep_endOfData hu he hout⟩

/-! ## FEED, DRAIN and the end of data -/

theorem feedStep_ok {s : State} (h : readsOk s.cfg (s.desc.srcAddr + s.eng.srcPos) (feedCount s)) :
    feedStep s = { s with eng := { s.eng with
      inq := s.eng.inq ++ s.mem.bytesAt (s.desc.srcAddr + s.eng.srcPos) (feedCount s)
      srcPos := s.eng.srcPos + BitVec.ofNat 32 (feedCount s) } } := by
  rw [feedStep, readRun_ok _ _ _ _ h]

theorem feedStep_fault {s : State} {i : Nat} (hi : i < feedCount s)
    (hok : readsOk s.cfg (s.desc.srcAddr + s.eng.srcPos) i)
    (hbad : memOk s.cfg (s.desc.srcAddr + s.eng.srcPos + BitVec.ofNat 32 i) .read = false) :
    feedStep s = completeErr .memoryFault (s.desc.srcAddr + s.eng.srcPos + BitVec.ofNat 32 i) s := by
  rw [feedStep, readRun_stops _ _ _ _ i hi hok hbad]
  rfl

/-- A whole block in the staging input is a unit under every command (R220). -/
theorem unitReady_of_block (op : CipherOp) {e : Engine} (h : 16 ≤ e.inq.length) : unitReady op e = true := by
  cases op <;> simp [unitReady, streamUnitReady, h]

/-- When FEED is selected there is room for a byte in the staging input and a byte of text to read (R219, R225). -/
theorem feedCount_pos {op : CipherOp} {s : State} (h : Running op s) (hd : s.eng.ph = .data)
    (hu : underflow op s.eng = true) : 1 ≤ feedCount s := by
  obtain ⟨-, hdi⟩ := (phaseInv_data hd).mp h.ph
  obtain ⟨-, hstage⟩ := wf_stage h.inv.cfg
  simp only [underflow, Bool.and_eq_true, Bool.not_eq_true'] at hu
  obtain ⟨hready, hex⟩ := hu
  have hroom : s.eng.inq.length < 16 := by
    by_contra hge
    simp [unitReady_of_block op (Nat.le_of_not_lt hge)] at hready
  have hleft : s.eng.srcPos.toNat ≠ s.eng.tLen.toNat := fun heq => by
    simp [(exhausted_iff s.eng).mpr (BitVec.eq_of_toNat_eq heq)] at hex
  have hle := hdi.srcLe
  unfold feedCount
  omega

/-- Settles O29: FEED's read run gives the bytes or stops at the first that fails. -/
theorem feedReadsTheSource : Obligations.FeedReadsTheSource := by
  intro s k hk
  obtain rfl : k = feedCount s := hk
  refine ⟨feedStep_ok, fun i hi hok hbad => feedStep_fault hi hok hbad, fun op hinv hd hop hu => ?_⟩
  obtain ⟨op', h, -⟩ := engine_progress s hinv (by simp [hd])
  obtain rfl : op' = op := Option.some.inj (h.hop.symm.trans hop)
  exact feedCount_pos h hd hu

/-- Settles O30: DRAIN's write run stores the whole of `S.out` or stops at the first byte that fails. -/
theorem drainWritesTheOutput : Obligations.DrainWritesTheOutput := by
  refine fun s => ⟨fun hok => ?_, fun i hi hok hbad => ?_⟩
  · rw [drainStep, writeRun_ok _ _ _ _ hok]
  · rw [drainStep, writeRun_stops _ _ _ _ i hi hok hbad]
    rfl

/-- Settles O31: nothing is ready, left or pending, so the step is the end of data. The model's step has the name
`endOfData`. -/
theorem engineStep_endOfData : Obligations.EndOfData := by
  intro s op hd hop hready hex hout
  rw [engineStep_data hd hop, dataStep_endOfData hready ((exhausted_iff s.eng).mpr hex) (by simp [hout]), endOfData]
  simp only [op.isGcm_iff]

/-! ## ZERO and the completions -/

theorem engineStep_zero {op : CipherOp} {s : State} (hd : s.eng.ph = .zero)
    (hop : CipherOp.ofCode s.eng.op = some op) : engineStep s = .next (zeroStep s) := by
  rw [engineStep_active s op (by simp [hd]) hop]
  simp [phaseStep, hd]

/-- ZERO over the destination bytes written so far, once each of them can be written (R229). -/
theorem zeroStep_ok {s : State} (hz : s.eng.zeroPos = 0) (hok : writesOk s.cfg s.desc.dstAddr s.eng.dstPos.toNat) :
    zeroStep s = completeErr s.eng.perr 0
      { s with mem := s.mem.setBytes s.desc.dstAddr (List.replicate s.eng.dstPos.toNat 0) } := by
  have hfirst : s.desc.dstAddr + s.eng.zeroPos = s.desc.dstAddr := by simp [hz]
  have hlen : s.eng.dstPos.toNat - s.eng.zeroPos.toNat = s.eng.dstPos.toNat := by simp [hz]
  have hrun := writeRun_ok s.cfg s.mem s.desc.dstAddr (List.replicate s.eng.dstPos.toNat 0) (by simpa using hok)
  simp only [zeroStep, hfirst, hlen, hrun]

/-- Settles O33: the invariant says that each byte was written before, and with which late error ZERO was entered. -/
theorem zeroFillCannotFail : Obligations.ZeroFillCannotFail := by
  intro s hinv hd
  obtain ⟨op, h, -⟩ := engine_progress s hinv (by simp [hd])
  have hph := h.ph
  simp only [PhaseInv, hd] at hph
  obtain ⟨-, -, -, hz, -, hperr⟩ := hph
  exact ⟨(engineStep_zero hd h.hop).trans (congrArg _ (zeroStep_ok hz hinv.running.written)),
    hperr.imp (fun hp => hp.2) (fun hp => hp.2)⟩

/-- Settles O34: the cleared engine is the one with every internal register zero. -/
theorem completionRegisters : Obligations.CompletionRegisters := by
  rintro s n code addr _ rfl
  exact ⟨rfl, rfl⟩

end Sys2Proof.Machine
end

section
/-! The error codes a command can raise (O40) (spec/60_exceptions.md R250, R255, R256). -/

namespace Sys2Proof.Machine

/-- The command `op` can raise the error `c`: four errors are open to every operation, the two late ones to one
command each (R255). -/
inductive CanRaise (op : CipherOp) : ErrorCode → Prop
  | invalidKeyLength : CanRaise op .invalidKeyLength
  | invalidIvLength : CanRaise op .invalidIvLength
  | bufferTooSmall : CanRaise op .bufferTooSmall
  | memoryFault : CanRaise op .memoryFault
  | invalidPadding (hop : op = .decCbc128) : CanRaise op .invalidPadding
  | authenticationFailure (hop : op = .decGcm128) : CanRaise op .authenticationFailure

section
variable {op : CipherOp} {c : ErrorCode} {s t : State}

/-- The two late errors are the decryptions' alone. -/
theorem CanRaise.code_mem (h : CanRaise op c) (hcbc : op ≠ .decCbc128) (hgcm : op ≠ .decGcm128) :
    c.code ∈ [1, 4, 5, 7] := by
  cases h with
  | invalidPadding hop => exact absurd hop hcbc
  | authenticationFailure hop => exact absurd hop hgcm
  | _ => decide

theorem CanRaise.code_mem_decCbc128 (h : CanRaise .decCbc128 c) : c.code ∈ [1, 2, 4, 5, 7] := by
  cases h with
  | authenticationFailure hop => cases hop
  | _ => decide

theorem CanRaise.code_mem_decGcm128 (h : CanRaise .decGcm128 c) : c.code ∈ [1, 3, 4, 5, 7] := by
  cases h with
  | invalidPadding hop => cases hop
  | _ => decide

/-- CHECK reports an error the command can raise: R214 makes its padding and tag checks under one command each. -/
theorem canRaise_of_checkError {d : Desc} (h : checkError op d = some c) : CanRaise op c := by
  unfold checkError at h
  split_ifs at h with _ _ hpad htag _ <;> cases h
  · exact .invalidKeyLength
  · exact .invalidIvLength
  · exact .invalidPadding hpad.1
  · exact .authenticationFailure htag.1
  · exact .bufferTooSmall

/-- The pending late error is one the command can raise (R228, R229). -/
theorem Running.canRaise_perr (h : Running op s) (hd : s.eng.ph = .zero) : CanRaise op s.eng.perr := by
  have hph := h.ph
  simp only [PhaseInv, hd] at hph
  obtain ⟨-, -, -, -, -, ⟨hop, hp⟩ | ⟨hop, hp⟩⟩ := hph <;> rw [hp]
  · exact .invalidPadding hop
  · exact .authenticationFailure hop

/-- A step of a running operation that ends it with an error reports one its command can raise (R255). -/
theorem StepEnd.canRaise_err (he : StepEnd op s t) (h : Running op s) (ht : t.status.state = .doneErr) :
    CanRaise op t.status.err := by
  cases he with
  | goesOn m e =>
    have hbusy : s.status.state = .busy := h.inv.running.busy.mpr h.act
    exact absurd (hbusy.symm.trans ht) (by decide)
  | succeeds n m e => cases ht
  | earlyError c hc => exact canRaise_of_checkError hc
  | lateError m hd => exact h.canRaise_perr hd
  | faults a m ha => exact .memoryFault

end

/-- Settles O40: the step's error is one the command can raise, and the codes are those of R250. -/
theorem errorCodesByCommand : Obligations.ErrorCodesByCommand := by
  refine ⟨fun s t op hi hact hop hst ht => ?_, fun w s t hw hb ht => ?_, fun s t ht => ?_⟩
  · have hrun := hi.running_of_ofCode hact hop
    rw [engineStep_active s op hact hop] at hst
    have hraise := (phaseStep_end hst).canRaise_err hrun ht
    refine ⟨?_, ?_, ?_⟩
    · rintro (rfl | rfl | rfl | rfl) <;> exact hraise.code_mem (by decide) (by decide)
    · rintro rfl
      exact hraise.code_mem_decCbc128
    · rintro rfl
      exact hraise.code_mem_decGcm128
  · rw [writeCmd_illegal hw, illegalWrite_notBusy hb] at ht
    cases ht
    exact ⟨rfl, rfl⟩
  · cases ht
    rfl

end Sys2Proof.Machine
end

section
/-! Reset (O1, O2, O36): the reset input leaves the state that power-on leaves, in which the engine has nothing to do
(spec/70_reset_and_hazards.md R291, R292, R293). -/

namespace Sys2Proof.Machine

/-! ## The state reset leaves -/

theorem hostAct_reset (s : State) : hostAct .reset s = .next (assertReset s) := rfl

/-- Power-on reset is the reset input in the state it gives, so what holds after the one holds after the other. -/
theorem assertReset_reset : assertReset State.reset = State.reset := rfl

/-- After reset every host-visible register reads zero (R291). -/
@[simp] theorem readReg_assertReset (r : Reg) (s : State) : readReg r (assertReset s) = 0 := by
  cases r with
  | desc d => cases d <;> rfl
  | cmd | status | resultLen | faultAddr | irqEn | irqStat => rfl

/-- The engine does nothing after reset (R293). -/
@[simp] theorem engineStep_assertReset (s : State) : engineStep (assertReset s) = .next (assertReset s) :=
  engineStep_idle _ rfl

/-- Reset together with an action of the engine is reset alone: the engine finds nothing to do (R293). -/
theorem hostStep_reset (together : Bool) (s : State) :
    hostStep together .reset s = .next (assertReset s) := by
  cases together with
  | false => rw [hostStep_apart, hostAct_reset]
  | true => rw [hostStep_together (hostAct_reset s), engineStep_assertReset, ite_self]

/-- Reset leaves a legal state wherever the parameters, memory and the caches, which it keeps, are well formed. -/
theorem inv_assertReset {s : State} (hcfg : s.cfg.wf = true) (hmem : Memory.wf s.mem)
    (hcache : HostCache.wf s.hostCache) : Inv (assertReset s) where
  cfg := hcfg
  mem := hmem
  cache := hcache
  status := ⟨by simp, fun _ => rfl, fun _ => rfl⟩
  running := runningInv_cleared _ (by simp) rfl

/-! ## The obligations -/

/-- Settles O1: power-on reset and the reset input are one case. -/
theorem resetLeavesEveryRegisterZero : Obligations.ResetLeavesEveryRegisterZero := by
  intro s t ht
  obtain ⟨u, rfl⟩ : ∃ u, t = assertReset u := by
    rcases ht with rfl | ht
    · exact ⟨State.reset, assertReset_reset.symm⟩
    · rw [hostAct_reset] at ht
      cases ht
      exact ⟨s, rfl⟩
  exact ⟨fun r => readReg_assertReset r u, rfl, rfl, rfl, rfl, rfl⟩

/-- Settles O2: the step, with the engine's action or without, gives the state reset leaves. -/
theorem resetEndsARunningOperation : Obligations.ResetEndsARunningOperation := fun s together =>
  ⟨assertReset s, hostStep_reset together s, rfl, rfl, rfl, rfl, engineStep_assertReset s⟩

/-- Settles O36: the parameters after power-on are well formed, and memory and the caches are empty. -/
theorem resetIsLegal : Obligations.ResetIsLegal :=
  inv_assertReset (s := State.reset) (by decide) Memory.wf_nil HostCache.wf_nil

end Sys2Proof.Machine
end
